-- ==== Sys2Proof/Word.lean ====
section
/-!
DEFINITION. Sys2Proof/Word.lean: the word types of the block.

Every host-visible register is 64 bits wide (10_state.md rule R21) and data memory is made of bytes
(20_memory.md rule R72).  An "n-bit value" of the spec with n ≤ 64 (00_scope.md rule R7) is held in a `Word`
whose bits n and above are zero.
-/

namespace Sys2Proof

/-- A 64-bit value: a host-visible register, an accumulator, a table entry or a field value. -/
abbrev Word := BitVec 64

/-- One byte of data memory or of a message. -/
abbrev Byte := BitVec 8

end Sys2Proof
end

