-- ==== Sys2Proof/Syntax.lean ====
section
/-!
DEFINITION. Sys2Proof/Syntax.lean: the commands of the block, one constructor per row of spec/opcode_table.json
(30_encoding.md rules R107, R113).  Operands that the command word carries are the constructor's arguments; all
other operands come from fixed registers (rule R113).
-/

namespace Sys2Proof

/-- A command of the set `CRCE-1`. -/
inductive Instr where
  /-- `CONFIGURE` (40_control.md rule R130). -/
  | configure
  /-- `CLEARERR` (40_control.md rule R137). -/
  | clearerr
  /-- `RESET c` (42_crc_engine.md rule R172). -/
  | reset (ctx : Nat)
  /-- `UPDB c, byte` (42_crc_engine.md rule R174). -/
  | updb (ctx : Nat) (byte : Byte)
  /-- `UPDBITS c, value, count` (42_crc_engine.md rule R176). -/
  | updbits (ctx : Nat) (value : Byte) (count : Nat)
  /-- `UPDBUF c` (42_crc_engine.md rule R177). -/
  | updbuf (ctx : Nat)
  /-- `UPDALL c` (42_crc_engine.md rule R178). -/
  | updall (ctx : Nat)
  /-- `VALUE c` (42_crc_engine.md rule R184). -/
  | value (ctx : Nat)
  /-- `GFMUL` (44_gf2_combiner.md rule R228). -/
  | gfmul
  /-- `GFXPOW` (44_gf2_combiner.md rule R229). -/
  | gfxpow
  /-- `COMBINE` (44_gf2_combiner.md rule R230). -/
  | combine
  /-- `CHSEED` (44_gf2_combiner.md rule R231). -/
  | chseed
  /-- `ZEROES` (44_gf2_combiner.md rule R232). -/
  | zeroes
  /-- `RESIDUE` (44_gf2_combiner.md rule R233). -/
  | residue
deriving DecidableEq, Repr

end Sys2Proof
end

