-- ==== Sys2Proof/WellFormed.lean ====
section
/-!
DEFINITION. Sys2Proof/WellFormed.lean: which commands a command word can spell.

CTX is a 4-bit field, so a context number is 0..15 (30_encoding.md rule R103), and NBITS is a 3-bit field, so a bit
count is 0..7 (rule R105).  IMM8 is a `Byte` by its type (rule R104).  A context number of `NCTX` or more is well
formed: it is a BAD_CTX fault of the machine, not of the encoding (60_exceptions.md rule R255).
-/

namespace Sys2Proof

/-- A context number fits the CTX field (30_encoding.md rule R103). -/
def ctxFits (ctx : Nat) : Bool := decide (ctx < 16)

/-- A bit count fits the NBITS field (30_encoding.md rule R105). -/
def countFits (count : Nat) : Bool := decide (count < 8)

/-- The command can be written as a command word. -/
def Instr.wellFormed : Instr → Bool
  | .configure => true
  | .clearerr => true
  | .reset ctx => ctxFits ctx
  | .updb ctx _ => ctxFits ctx
  | .updbits ctx _ count => ctxFits ctx && countFits count
  | .updbuf ctx => ctxFits ctx
  | .updall ctx => ctxFits ctx
  | .value ctx => ctxFits ctx
  | .gfmul => true
  | .gfxpow => true
  | .combine => true
  | .chseed => true
  | .zeroes => true
  | .residue => true

end Sys2Proof
end

