-- ==== Sys2Proof/Decode.lean ====
section
/-!
DEFINITION. Sys2Proof/Decode.lean: from the 64-bit value written to CMD to a command, and back.

The command word's format is 30_encoding.md rule R101, the opcode rows are rule R107, decoding is rule R111 and the
illegal words are rule R109.
-/

namespace Sys2Proof

/-- The fourteen mnemonics of 30_encoding.md rule R107. -/
inductive Mnemonic where
  | configure | clearerr
  | reset | updb | updbits | updbuf | updall | value
  | gfmul | gfxpow | combine | chseed | zeroes | residue
deriving DecidableEq, Repr

/-- Why a value written to CMD is illegal: the four causes of 60_exceptions.md rule R251. -/
inductive Illegal where
  /-- Bits `[63:32]` are not zero (30_encoding.md rule R100). -/
  | highBits
  /-- A reserved bit, `[31:27]` or `[15:12]`, is set (rule R106). -/
  | reservedBit
  /-- `OPC` is assigned to no command (rule R108). -/
  | unassignedOpcode
  /-- A field the command does not use is not zero (rule R107). -/
  | unusedField
deriving DecidableEq, Repr

/-- What a value written to CMD decodes to. -/
inductive Decoded where
  | command (i : Instr)
  | illegal (why : Illegal)
deriving DecidableEq, Repr

/-- `OPC = W[7:0]` (30_encoding.md rule R102). -/
def fieldOpc (w : BitVec 32) : BitVec 8 := w.extractLsb' 0 8

/-- `CTX = W[11:8]` (30_encoding.md rule R103). -/
def fieldCtx (w : BitVec 32) : BitVec 4 := w.extractLsb' 8 4

/-- `IMM8 = W[23:16]` (30_encoding.md rule R104). -/
def fieldImm8 (w : BitVec 32) : BitVec 8 := w.extractLsb' 16 8

/-- `NBITS = W[26:24]` (30_encoding.md rule R105). -/
def fieldNbits (w : BitVec 32) : BitVec 3 := w.extractLsb' 24 3

/-- One row of the table of 30_encoding.md rule R107: a word `W` spells the command exactly when
`(W & mask) = pattern`. -/
structure OpcodeRow where
  mnemonic : Mnemonic
  pattern : BitVec 32
  mask : BitVec 32
deriving DecidableEq, Repr

/-- The rows of 30_encoding.md rule R107, in its order. -/
def opcodeRows : List OpcodeRow :=
  [ ⟨.configure, 0x00000001, 0xFFFFFFFF⟩
  , ⟨.clearerr, 0x00000002, 0xFFFFFFFF⟩
  , ⟨.reset, 0x00000010, 0xFFFFF0FF⟩
  , ⟨.updb, 0x00000011, 0xFF00F0FF⟩
  , ⟨.updbits, 0x00000012, 0xF800F0FF⟩
  , ⟨.updbuf, 0x00000013, 0xFFFFF0FF⟩
  , ⟨.updall, 0x00000014, 0xFFFFF0FF⟩
  , ⟨.value, 0x00000015, 0xFFFFF0FF⟩
  , ⟨.gfmul, 0x00000020, 0xFFFFFFFF⟩
  , ⟨.gfxpow, 0x00000021, 0xFFFFFFFF⟩
  , ⟨.combine, 0x00000022, 0xFFFFFFFF⟩
  , ⟨.chseed, 0x00000023, 0xFFFFFFFF⟩
  , ⟨.zeroes, 0x00000024, 0xFFFFFFFF⟩
  , ⟨.residue, 0x00000025, 0xFFFFFFFF⟩ ]

/-- The word spells the row's command (30_encoding.md rule R107). -/
def OpcodeRow.spells (r : OpcodeRow) (w : BitVec 32) : Bool := w &&& r.mask == r.pattern

/-- The command a mnemonic stands for, with its operands read from the word (30_encoding.md rules R103 to R105). -/
def operandsOf (m : Mnemonic) (w : BitVec 32) : Instr :=
  match m with
  | .configure => .configure
  | .clearerr => .clearerr
  | .reset => .reset (fieldCtx w).toNat
  | .updb => .updb (fieldCtx w).toNat (fieldImm8 w)
  | .updbits => .updbits (fieldCtx w).toNat (fieldImm8 w) (fieldNbits w).toNat
  | .updbuf => .updbuf (fieldCtx w).toNat
  | .updall => .updall (fieldCtx w).toNat
  | .value => .value (fieldCtx w).toNat
  | .gfmul => .gfmul
  | .gfxpow => .gfxpow
  | .combine => .combine
  | .chseed => .chseed
  | .zeroes => .zeroes
  | .residue => .residue

/-- The cause of a word that matches no row (30_encoding.md rules R106 to R109). -/
def illegalCause (w : BitVec 32) : Illegal :=
  if w &&& 0xF800F000 ≠ 0 then .reservedBit
  else if opcodeRows.any (fun r => fieldOpc r.pattern == fieldOpc w) then .unusedField
  else .unassignedOpcode

/-- Decoding of a 32-bit command word (30_encoding.md rule R111). -/
def decodeWord (w : BitVec 32) : Decoded :=
  match opcodeRows.find? (fun r => r.spells w) with
  | some r => .command (operandsOf r.mnemonic w)
  | none => .illegal (illegalCause w)

/-- Decoding of the 64-bit value written to CMD (30_encoding.md rules R100, R111). -/
def decode (v : Word) : Decoded :=
  if v.extractLsb' 32 32 ≠ 0 then .illegal .highBits
  else decodeWord (v.extractLsb' 0 32)

/-- The command word with the given fields: the bit pattern `00000nnn iiiiiiii 0000cccc oooooooo` of 30_encoding.md
rule R101. -/
def packWord (opc : BitVec 8) (ctx : BitVec 4) (imm8 : BitVec 8) (nbits : BitVec 3) : BitVec 32 :=
  (0 : BitVec 5) ++ nbits ++ imm8 ++ (0 : BitVec 4) ++ ctx ++ opc

/-- The command word of a command (30_encoding.md rule R114). -/
def encodeWord : Instr → BitVec 32
  | .configure => packWord 0x01 0 0 0
  | .clearerr => packWord 0x02 0 0 0
  | .reset ctx => packWord 0x10 (BitVec.ofNat 4 ctx) 0 0
  | .updb ctx byte => packWord 0x11 (BitVec.ofNat 4 ctx) byte 0
  | .updbits ctx value count => packWord 0x12 (BitVec.ofNat 4 ctx) value (BitVec.ofNat 3 count)
  | .updbuf ctx => packWord 0x13 (BitVec.ofNat 4 ctx) 0 0
  | .updall ctx => packWord 0x14 (BitVec.ofNat 4 ctx) 0 0
  | .value ctx => packWord 0x15 (BitVec.ofNat 4 ctx) 0 0
  | .gfmul => packWord 0x20 0 0 0
  | .gfxpow => packWord 0x21 0 0 0
  | .combine => packWord 0x22 0 0 0
  | .chseed => packWord 0x23 0 0 0
  | .zeroes => packWord 0x24 0 0 0
  | .residue => packWord 0x25 0 0 0

/-- The 64-bit value the host writes to CMD to issue a command: the command word with bits `[63:32]` zero
(30_encoding.md rule R100). -/
def encode (i : Instr) : Word := (0 : BitVec 32) ++ encodeWord i

/-- The command the decoder reads from an opcode-table row's word, numbered as spec/opcode_table.json numbers it.
Commands have one length, 32 significant bits in one 64-bit write (30_encoding.md rule R112). -/
def decodeTableWord (nbits w : Nat) : Option Instr :=
  match decode (BitVec.ofNat 64 (w % 2 ^ nbits)) with
  | .command i => some i
  | .illegal _ => none

end Sys2Proof
end

