-- ==== Sys2Proof/Machine/Bits.lean ====
section
/-!
DEFINITION. Sys2Proof/Machine/Bits.lean: the bit notation of 00_scope.md rules R7 and R8 on 64-bit words, and the
little-endian byte order of 20_memory.md rule R73.
-/

namespace Sys2Proof.Machine

/-- `mask_n = 2^n - 1` for n ≤ 64 (00_scope.md rule R7). -/
def mask (n : Nat) : Word := BitVec.ofNat 64 (2 ^ n - 1)

/-- `shl_n(v, k)`, a left shift truncated to n bits (00_scope.md rule R7). -/
def shl (n : Nat) (v : Word) (k : Nat) : Word := (v <<< k) &&& mask n

/-- `bitrev_n(v)`, the n-bit reversal of the low n bits (00_scope.md rule R8): bit 0 goes to place `n - 1`, and the
other bits are reversed below it. -/
def bitrev : Nat → Word → Word
  | 0, _ => 0
  | n + 1, v => bitrev n (v >>> 1) ||| ((v &&& 1) <<< n)

/-- The low byte of a word. -/
def lowByte (v : Word) : Byte := v.setWidth 8

/-- The value of a byte sequence, least significant byte first (20_memory.md rule R73). -/
def littleEndian : List Byte → Word
  | [] => 0
  | b :: bs => b.setWidth 64 ||| (littleEndian bs <<< 8)

/-- The low `n` bytes of a word, least significant first: byte `j` is bits `[8j+7:8j]` (20_memory.md rule R73). -/
def bytesOf (v : Word) (n : Nat) : List Byte := (List.range n).map fun j => lowByte (v >>> (8 * j))

end Sys2Proof.Machine
end

