-- ==== Sys2Proof/Config.lean ====
section
/-!
DEFINITION. Sys2Proof/Config.lean: the parameters of an implementation and the free values.

The parameters `NW`, `NCTX`, `DMEM_BYTES` and `BLOCK_BASE` are arguments of the model (00_scope.md rule R5).
They are held in the state as one field that no step changes (log entry 1), so that every statement about a state
speaks of every parameter choice.
-/

namespace Sys2Proof

/-- `NW`, the native register width of the engine: 32 or 64 (00_scope.md rule R5). -/
inductive NativeWidth where
  | nw32
  | nw64
deriving DecidableEq, Repr

/-- The number of bits of a native width. -/
def NativeWidth.bits : NativeWidth → Nat
  | .nw32 => 32
  | .nw64 => 64

/-- The implementation parameters of 00_scope.md rule R5. -/
structure Params where
  /-- `NW`. -/
  nw : NativeWidth
  /-- `NCTX - 1`, the value PARAM reports in its NCTXM1 field (10_state.md rule R23); `NCTX` is 1..16. -/
  nctxM1 : Fin 16
  /-- `DMEM_BYTES`, 1..2^32-1. -/
  dmemBytes : Nat
  /-- `BLOCK_BASE`, the host address of the block's offset 0, 64 KiB aligned. -/
  blockBase : Nat
deriving DecidableEq, Repr

/-- `NCTX`, the number of accumulator contexts (00_scope.md rule R5). -/
def Params.nctx (p : Params) : Nat := p.nctxM1.val + 1

/-- The legal values of the parameters (00_scope.md rule R5); `NW` and `NCTX` are legal by their types. -/
def Params.wf (p : Params) : Bool :=
  decide (1 ≤ p.dmemBytes) && decide (p.dmemBytes < 2 ^ 32) && decide (p.blockBase % 65536 = 0)

/-- The parameters of the block that `Machine.State.reset` describes: those of 95_test_vectors.md section 2.2.
DESIGN CHOICE (log entry 2): no rule fixes them, and every statement but one about `State.reset` itself holds for
all of them. -/
def Config.params : Params where
  nw := .nw64
  nctxM1 := 1
  dmemBytes := 64
  blockBase := 0

/-- The value of data-memory byte `address` that the host has not written since reset number `resets`
(20_memory.md rule R89, 93_implementation_defined.md U1, U2): any value, fixed by nothing.  FREE VALUE, log entry 3. -/
opaque Config.freeByte (resets address : Nat) : Byte

end Sys2Proof
end

