-- ==== Sys2Proof/Machine/State.lean ====
section
/-!
DEFINITION. Sys2Proof/Machine/State.lean: the architectural state of the block (10_state.md rule R20), as plain data.

NW-bit and w-bit values are held in 64-bit words whose upper bits are zero (log entry 11; `Safety.lean` states it as
part of the invariant).
-/

namespace Sys2Proof.Machine

/-- The codes of `STATUS.ERR_CODE` (60_exceptions.md rule R250).  Codes 8..255 are never written. -/
inductive FaultCode where
  | noFault
  | illegalCmd
  | notConfigured
  | badWidth
  | badCfg
  | badCtx
  | bounds
  | lanes
deriving DecidableEq, Repr

/-- The staging registers MODEL_WIDTH, MODEL_POLY, MODEL_INIT, MODEL_XOROUT, MODEL_CFG (10_state.md rules R26 to
R30). -/
structure Staging where
  width : Word
  poly : Word
  init : Word
  xorOut : Word
  cfg : Word
deriving DecidableEq, Repr

/-- The active configuration (10_state.md rule R44); its CFG_VALID is the field `State.cfgValid`. -/
structure ActiveConfig where
  /-- `AW`, the active width. -/
  aw : BitVec 7
  /-- `APOLY`, the polynomial without its implicit top bit. -/
  apoly : Word
  /-- `AINIT`, the initial register value in natural order. -/
  ainit : Word
  /-- `AXOR`, the output XOR mask in output order. -/
  axor : Word
  /-- `AREFIN`. -/
  refIn : Bool
  /-- `AREFOUT`. -/
  refOut : Bool
  /-- `ALANES`, the lane count. -/
  alanes : BitVec 5
deriving DecidableEq, Repr

/-- The width `w` as a number. -/
def ActiveConfig.w (a : ActiveConfig) : Nat := a.aw.toNat

/-- The lane count `L` as a number. -/
def ActiveConfig.lanes (a : ActiveConfig) : Nat := a.alanes.toNat

/-- The active configuration after reset (10_state.md rule R44, 70_reset_and_hazards.md rule R281). -/
def ActiveConfig.unset : ActiveConfig where
  aw := 0
  apoly := 0
  ainit := 0
  axor := 0
  refIn := false
  refOut := false
  alanes := 0

/-- The GF(2) field context (10_state.md rule R47). -/
structure FieldContext where
  /-- `XPOW[0..63]`. -/
  xpow : List Word
  /-- `RED[0]`. -/
  red0 : Word
  /-- `RED[1]`. -/
  red1 : Word
  /-- `ONE`. -/
  one : Word
  /-- `CANON`. -/
  canon : Word
  /-- `RESK`, the residue constant. -/
  resk : Word
deriving DecidableEq, Repr

/-- The field context before the first CONFIGURE.  Its contents are not observable (70_reset_and_hazards.md rule
R281); DESIGN CHOICE zeros, log entry 10. -/
def FieldContext.unbuilt : FieldContext where
  xpow := List.replicate 64 0
  red0 := 0
  red1 := 0
  one := 0
  canon := 0
  resk := 0

/-- Data memory: the bytes the host has written since the last reset, by strictly rising address.  A byte that is not
listed has no recorded value (20_memory.md rule R89, log entry 3). -/
abbrev Memory := List Host.Cell

/-- What reaches the block from outside: one host access, or the platform's reset input (70_reset_and_hazards.md rule
R280).  Addresses are host addresses; the block's window starts at `BLOCK_BASE` (10_state.md rule R21). -/
inductive HostEvent where
  /-- A host write of `width` bytes, the low `8 * width` bits of `value` (log entry 15). -/
  | write (address width : Nat) (value : Word)
  /-- A host read of `width` bytes. -/
  | read (address width : Nat)
  /-- The reset input is asserted and released. -/
  | resetInput
deriving DecidableEq, Repr

/-- The bus's answer to the last host access (the model's own record, log entry 5). -/
inductive BusResponse where
  /-- No access has been answered since reset. -/
  | idle
  /-- A write was accepted. -/
  | written
  /-- A read returned this value, zero-extended. -/
  | data (value : Word)
  /-- The access raised a bus error (20_memory.md rule R79). -/
  | busError
  /-- The address lies below `BLOCK_BASE`: the access is not one to the block (log entry 7). -/
  | notSelected
deriving DecidableEq, Repr

/-- The state of the block. -/
structure State where
  /-- The implementation parameters (00_scope.md rule R5); no step changes them. -/
  params : Params
  /-- `STATUS.CFG_VALID` (10_state.md rule R24). -/
  cfgValid : Bool
  /-- `STATUS.ERR` (10_state.md rule R24). -/
  err : Bool
  /-- `STATUS.ERR_CODE` (10_state.md rule R24). -/
  errCode : FaultCode
  /-- `FAULT_CMD` (10_state.md rule R38). -/
  faultCmd : Word
  /-- The staging registers (10_state.md rules R26 to R30). -/
  staging : Staging
  /-- `BUF_BASE` (10_state.md rule R31). -/
  bufBase : Word
  /-- `BUF_LEN` (10_state.md rule R32). -/
  bufLen : Word
  /-- `ARG0` (10_state.md rule R33). -/
  arg0 : Word
  /-- `ARG1`. -/
  arg1 : Word
  /-- `ARG2`. -/
  arg2 : Word
  /-- `ARG3`. -/
  arg3 : Word
  /-- `RESULT` (10_state.md rule R34). -/
  result : Word
  /-- The active configuration (10_state.md rule R44). -/
  active : ActiveConfig
  /-- The lane tables `T[0..ALANES-1]`, 256 entries each (10_state.md rule R46). -/
  tables : List (List Word)
  /-- The GF(2) field context (10_state.md rule R47). -/
  field : FieldContext
  /-- The accumulator file `ACC[0..NCTX-1]` (10_state.md rule R48). -/
  acc : List Word
  /-- DMEM (20_memory.md rule R72). -/
  dmem : Memory
  /-- How many block resets there have been (the model's own field, log entry 3). -/
  resets : Nat
  /-- The host accesses still to happen, oldest first (the model's own field, log entry 4). -/
  pending : List HostEvent
  /-- The bus's answer to the last access (the model's own field, log entry 5). -/
  response : BusResponse
deriving DecidableEq, Repr

/-- Why the machine stops with a fault: never.  Every fault of the spec is a command fault after which the block goes
on with its registers defined (60_exceptions.md rule R258), or a bus error, which changes nothing (20_memory.md rule
R79), and "No behaviour is `stuck`" (93_implementation_defined.md part 1).  No constructor, so nobody raises one
(safe); log entry 13. -/
inductive Fault where
deriving DecidableEq, Repr

/-- Why the model declines to run an instruction. -/
inductive Refusal where
  /-- An instruction with no meaning yet.  Raised by `exec` alone, for an arm that is rejected by name; no arm of this
  model is, so nobody raises it.  Safe: the run stops. -/
  | notModelled (mnemonic : String)
deriving DecidableEq, Repr

/-- The outcome of a step. -/
abbrev Outcome := Host.Outcome State Fault Refusal

/-- The state right after the reset input is released (70_reset_and_hazards.md rule R281), for a block with
parameters `p` that has been reset `resets` times since power-on. -/
def State.resetWith (p : Params) (resets : Nat) : State where
  params := p
  cfgValid := false
  err := false
  errCode := .noFault
  faultCmd := 0
  staging := { width := 0, poly := 0, init := 0, xorOut := 0, cfg := 0 }
  bufBase := 0
  bufLen := 0
  arg0 := 0
  arg1 := 0
  arg2 := 0
  arg3 := 0
  result := 0
  active := .unset
  tables := []
  field := .unbuilt
  acc := List.replicate p.nctx 0
  dmem := []
  resets := resets
  pending := []
  response := .idle

/-- The machine right after power-on reset, with the parameters of `Config.params` (log entry 2).  No access is
pending: a host's accesses come from outside (log entry 4). -/
def State.reset : State := State.resetWith Config.params 0

end Sys2Proof.Machine
end

