-- ==== Sys2Proof/Machine/Adapter.lean ====
section
/-!
DEFINITION. Sys2Proof/Machine/Adapter.lean: the constants of the width-generic adapter (43_width_adapter.md), pure
functions of the native width `nw` and the active configuration (10_state.md rule R45).
-/

namespace Sys2Proof.Machine

/-- `S = N - w`, the alignment shift (43_width_adapter.md rule R200). -/
def alignShift (nw : Nat) (a : ActiveConfig) : Nat := nw - a.w

/-- `EPOLY = shl_N(P, S)` (43_width_adapter.md rule R201). -/
def epoly (nw : Nat) (a : ActiveConfig) : Word := shl nw a.apoly (alignShift nw a)

/-- `EINIT = shl_N(I, S)` (43_width_adapter.md rule R202). -/
def einit (nw : Nat) (a : ActiveConfig) : Word := shl nw a.ainit (alignShift nw a)

/-- `EXOR = AREFOUT ? X : shl_N(X, S)` (43_width_adapter.md rule R203). -/
def exor (nw : Nat) (a : ActiveConfig) : Word :=
  if a.refOut then a.axor else shl nw a.axor (alignShift nw a)

/-- `PR = bitrev_N(EP)`, the reflected polynomial (42_crc_engine.md, 41_table_builder.md rule R150). -/
def reflectedPoly (nw : Nat) (a : ActiveConfig) : Word := bitrev nw (epoly nw a)

end Sys2Proof.Machine
end

