-- ==== Sys2Proof/Machine/TableBuilder.lean ====
section
/-!
DEFINITION. Sys2Proof/Machine/TableBuilder.lean: the lookup-table builder (41_table_builder.md).  `nw` is `N = NW`,
`ep` is `EP = EPOLY`.
-/

namespace Sys2Proof.Machine

/-- One division step of the reflected builder (41_table_builder.md rule R150). -/
def divideReflected (pr r : Word) : Word :=
  if r.getLsbD 0 then (r >>> 1) ^^^ pr else r >>> 1

/-- One division step of the natural builder (41_table_builder.md rule R151). -/
def divideNatural (nw : Nat) (ep r : Word) : Word :=
  if r.getLsbD (nw - 1) then shl nw r 1 ^^^ ep else shl nw r 1

/-- `BuildReflected(EP)` (41_table_builder.md rule R150). -/
def buildReflected (nw : Nat) (ep : Word) : List Word :=
  (List.range 256).map fun n => (divideReflected (bitrev nw ep))^[8] (BitVec.ofNat 64 n)

/-- `BuildUnreflected(EP)` (41_table_builder.md rule R151). -/
def buildUnreflected (nw : Nat) (ep : Word) : List Word :=
  (List.range 256).map fun n => (divideNatural nw ep)^[8] (shl nw (BitVec.ofNat 64 n) (nw - 8))

/-- The base table `T[0]` (41_table_builder.md rule R153). -/
def baseTable (nw : Nat) (ep : Word) (refIn : Bool) : List Word :=
  if refIn then buildReflected nw ep else buildUnreflected nw ep

/-- `Fold(v, refIn)`: one zero byte through the register, by the base table `t0` (41_table_builder.md rule R153,
90_conflicts.md C1). -/
def foldZero (nw : Nat) (refIn : Bool) (t0 : List Word) (v : Word) : Word :=
  if refIn then t0.getD (v &&& 0xFF).toNat 0 ^^^ (v >>> 8)
  else t0.getD (v >>> (nw - 8)).toNat 0 ^^^ shl nw v 8

/-- `count` lane tables, the first being `t` and each next one the fold of the one before it
(41_table_builder.md rule R153). -/
def laneTables (nw : Nat) (refIn : Bool) (t0 : List Word) : Nat → List Word → List (List Word)
  | 0, _ => []
  | count + 1, t => t :: laneTables nw refIn t0 count (t.map (foldZero nw refIn t0))

/-- `BuildLaneTables(EP, refIn, L)` (41_table_builder.md rule R153). -/
def buildLaneTables (nw : Nat) (ep : Word) (refIn : Bool) (lanes : Nat) : List (List Word) :=
  laneTables nw refIn (baseTable nw ep refIn) lanes (baseTable nw ep refIn)

/-- `T[k][n]` (00_scope.md rule R9). -/
def tableEntry (tables : List (List Word)) (k n : Nat) : Word := (tables.getD k []).getD n 0

end Sys2Proof.Machine
end

