-- ==== Sys2Proof/Machine/Engine.lean ====
section
/-!
DEFINITION. Sys2Proof/Machine/Engine.lean: the steps of the CRC engine as functions of the native width `nw`, the
active configuration `a`, the lane tables and the register (42_crc_engine.md).
-/

namespace Sys2Proof.Machine

/-- `ResetValue()` (42_crc_engine.md rule R172). -/
def resetValue (nw : Nat) (a : ActiveConfig) : Word :=
  if a.refIn then bitrev nw (einit nw a) else einit nw a

/-- `ByteStep(acc, b)` (42_crc_engine.md rule R173). -/
def byteStep (nw : Nat) (a : ActiveConfig) (tables : List (List Word)) (acc : Word) (b : Byte) : Word :=
  if a.refIn then tableEntry tables 0 (lowByte acc ^^^ b).toNat ^^^ (acc >>> 8)
  else tableEntry tables 0 (lowByte (acc >>> (nw - 8)) ^^^ b).toNat ^^^ shl nw acc 8

/-- `BitStep(acc, bit)` (42_crc_engine.md rule R175). -/
def bitStep (nw : Nat) (a : ActiveConfig) (acc : Word) (bit : Bool) : Word :=
  if a.refIn then (acc >>> 1) ^^^ (if acc.getLsbD 0 ^^ bit then reflectedPoly nw a else 0)
  else shl nw acc 1 ^^^ (if acc.getLsbD (nw - 1) ^^ bit then epoly nw a else 0)

/-- The low `k` bits of a byte in message bit order: low bit first when reflected, bit `k - 1` first otherwise
(00_scope.md rule R13, 42_crc_engine.md rule R176). -/
def messageBits (refIn : Bool) (k : Nat) (v : Byte) : List Bool :=
  if refIn then (List.range k).map fun i => v.getLsbD i
  else (List.range k).reverse.map fun i => v.getLsbD i

/-- The register after the low `k` bits of `v` (42_crc_engine.md rule R176). -/
def updateBits (nw : Nat) (a : ActiveConfig) (acc : Word) (v : Byte) (k : Nat) : Word :=
  (messageBits a.refIn k v).foldl (bitStep nw a) acc

/-- `RegByte(acc, i)`, the register byte that lane `i` is keyed by (42_crc_engine.md rule R181). -/
def regByte (nw : Nat) (refIn : Bool) (acc : Word) (i : Nat) : Byte :=
  if nw / 8 ≤ i then 0
  else if refIn then lowByte (acc >>> (8 * i))
  else lowByte (acc >>> (nw - 8 * (i + 1)))

/-- `BlockStep(acc, d_0, ..., d_{L-1})` for the `L = ALANES` bytes `ds` (42_crc_engine.md rule R180). -/
def blockStep (nw : Nat) (a : ActiveConfig) (tables : List (List Word)) (acc : Word) (ds : List Byte) : Word :=
  (List.range a.lanes).foldl
    (fun x i => x ^^^ tableEntry tables (a.lanes - 1 - i) (ds.getD i 0 ^^^ regByte nw a.refIn acc i).toNat)
    (if a.refIn then acc >>> (8 * a.lanes) else shl nw acc (8 * a.lanes))

/-- The block loop of `UpdateRange`: while at least `L` bytes remain a block is consumed, and the tail goes byte by
byte (42_crc_engine.md rules R179, R182).  `fuel` bounds the number of blocks. -/
def consumeBlocks (nw : Nat) (a : ActiveConfig) (tables : List (List Word)) : Nat → Word → List Byte → Word
  | 0, acc, bytes => bytes.foldl (byteStep nw a tables) acc
  | fuel + 1, acc, bytes =>
    if a.lanes ≤ bytes.length then
      consumeBlocks nw a tables fuel (blockStep nw a tables acc (bytes.take a.lanes)) (bytes.drop a.lanes)
    else bytes.foldl (byteStep nw a tables) acc

/-- `UpdateRange` over the bytes of the range in ascending address order (42_crc_engine.md rule R179).  With more
than one lane there are fewer blocks than bytes, so the length of the range is fuel enough. -/
def updateRange (nw : Nat) (a : ActiveConfig) (tables : List (List Word)) (acc : Word) (bytes : List Byte) : Word :=
  if 1 < a.lanes then consumeBlocks nw a tables bytes.length acc bytes
  else bytes.foldl (byteStep nw a tables) acc

/-- `Finalize(acc)` (42_crc_engine.md rule R184). -/
def finalize (nw : Nat) (a : ActiveConfig) (acc : Word) : Word :=
  let reflected := if a.refOut = a.refIn then acc else bitrev nw acc
  let masked := reflected ^^^ exor nw a
  (if a.refOut then masked else masked >>> alignShift nw a) &&& mask a.w

end Sys2Proof.Machine
end

