-- ==== Sys2Proof/Machine/Field.lean ====
section
/-!
DEFINITION. Sys2Proof/Machine/Field.lean: the arithmetic of the GF(2) combiner and the building of its field context
(44_gf2_combiner.md).  Every value is a w-bit word in combiner encoding (rule R215).
-/

namespace Sys2Proof.Machine

/-- `POLYENC` (44_gf2_combiner.md rule R218). -/
def polyEnc (a : ActiveConfig) : Word := if a.refIn then bitrev a.w a.apoly else a.apoly

/-- `ONE = E(1)` (44_gf2_combiner.md rule R218). -/
def fieldOne (a : ActiveConfig) : Word := if a.refIn then BitVec.twoPow 64 (a.w - 1) else 1

/-- `CANON` (44_gf2_combiner.md rule R219). -/
def canonValue (a : ActiveConfig) : Word := if a.refIn = a.refOut then a.axor else bitrev a.w a.axor

/-- `XMODP`, the encoding of `x mod P` (44_gf2_combiner.md rule R222). -/
def xModP (a : ActiveConfig) : Word :=
  if a.w = 1 then a.apoly &&& 1
  else if a.refIn then BitVec.twoPow 64 (a.w - 2) else 2

/-- `b * x mod P`, the reduction step of `GfMul` by the two-entry vector `{red0, red1}`
(44_gf2_combiner.md rule R220). -/
def mulX (a : ActiveConfig) (red0 red1 b : Word) : Word :=
  if a.refIn then (b >>> 1) ^^^ (if b.getLsbD 0 then red1 else red0)
  else shl a.w b 1 ^^^ (if b.getLsbD (a.w - 1) then red1 else red0)

/-- The coefficient of `x^i` in the combiner-encoded `v` (44_gf2_combiner.md rule R215). -/
def coefficient (a : ActiveConfig) (v : Word) (i : Nat) : Bool :=
  if a.refIn then v.getLsbD (a.w - 1 - i) else v.getLsbD i

/-- `GfMul(u, v)`: the shift-and-reduce loop over all `w` coefficients of `u` (44_gf2_combiner.md rules R220, R221).
The loop's state is `(b, prod)`. -/
def gfMul (a : ActiveConfig) (red0 red1 u v : Word) : Word :=
  ((List.range a.w).foldl
    (fun (st : Word × Word) i =>
      (mulX a red0 red1 st.1, if coefficient a (u &&& mask a.w) i then st.2 ^^^ st.1 else st.2))
    (v &&& mask a.w, 0)).2

/-- `count` entries of XPOW, the first being `x` and each next one the square of the one before it
(44_gf2_combiner.md rule R224). -/
def xpowEntries (a : ActiveConfig) (red0 red1 : Word) : Nat → Word → List Word
  | 0, _ => []
  | count + 1, x => x :: xpowEntries a red0 red1 count (gfMul a red0 red1 x x)

/-- `XPowN(n)` by square-and-multiply over the entries of XPOW (44_gf2_combiner.md rule R225). -/
def xPowN (a : ActiveConfig) (f : FieldContext) (n : Word) : Word :=
  (List.range 64).foldl
    (fun r i => if n.getLsbD i then gfMul a f.red0 f.red1 r (f.xpow.getD i 0) else r) f.one

/-- `X8N(len) = XPowN((8 * len) mod 2^64)` (44_gf2_combiner.md rule R226). -/
def x8N (a : ActiveConfig) (f : FieldContext) (len : Word) : Word := xPowN a f (8 * len)

/-- RED, ONE, CANON and XPOW, with RESK still to be computed from them (44_gf2_combiner.md rule R223). -/
def fieldContextBeforeResidue (a : ActiveConfig) : FieldContext where
  xpow := xpowEntries a 0 (polyEnc a) 64 (xModP a)
  red0 := 0
  red1 := polyEnc a
  one := fieldOne a
  canon := canonValue a
  resk := 0

/-- `RESK = GfMul(CANON, ONE ^ XPowN(w))` (44_gf2_combiner.md rule R227). -/
def residueConstant (a : ActiveConfig) (f : FieldContext) : Word :=
  gfMul a f.red0 f.red1 f.canon (f.one ^^^ xPowN a f (BitVec.ofNat 64 a.w))

/-- `BuildFieldContext()` (40_control.md rule R133, 44_gf2_combiner.md rule R223). -/
def buildFieldContext (a : ActiveConfig) : FieldContext :=
  { fieldContextBeforeResidue a with resk := residueConstant a (fieldContextBeforeResidue a) }

end Sys2Proof.Machine
end

