-- ==== Sys2Proof/Machine/Flags.lean ====
section
/-!
DEFINITION. Sys2Proof/Machine/Flags.lean: the block's flags and the words in which the host reads them
(10_state.md rules R22 to R24, R30, R37; 60_exceptions.md rule R250).
-/

namespace Sys2Proof.Machine

/-- The code of a fault (60_exceptions.md rule R250). -/
def FaultCode.code : FaultCode → BitVec 8
  | .noFault => 0
  | .illegalCmd => 1
  | .notConfigured => 2
  | .badWidth => 3
  | .badCfg => 4
  | .badCtx => 5
  | .bounds => 6
  | .lanes => 7

/-- The constant `ID` (10_state.md rule R22). -/
def idWord : Word := 0x0000000143524345

/-- `NWCODE` of PARAM (10_state.md rule R23). -/
def nwCode : NativeWidth → BitVec 2
  | .nw32 => 1
  | .nw64 => 2

/-- The word PARAM reads (10_state.md rule R23). -/
def paramWord (p : Params) : Word :=
  BitVec.ofNat 32 p.dmemBytes ++ (0 : BitVec 20) ++ BitVec.ofNat 4 p.nctxM1.val ++ (0 : BitVec 6) ++ nwCode p.nw

/-- The word STATUS reads (10_state.md rule R24). -/
def statusWord (s : State) : Word :=
  (0 : BitVec 48) ++ s.errCode.code ++ (0 : BitVec 6) ++ BitVec.ofBool s.err ++ BitVec.ofBool s.cfgValid

/-- The word ACT_CFG reads (10_state.md rule R37). -/
def actCfgWord (a : ActiveConfig) : Word :=
  (0 : BitVec 48) ++ a.alanes.setWidth 8 ++ (0 : BitVec 6) ++ BitVec.ofBool a.refOut ++ BitVec.ofBool a.refIn

/-- `REFIN` of MODEL_CFG (10_state.md rule R30). -/
def cfgRefIn (cfg : Word) : Bool := cfg.getLsbD 0

/-- `REFOUT` of MODEL_CFG (10_state.md rule R30). -/
def cfgRefOut (cfg : Word) : Bool := cfg.getLsbD 1

/-- `LANES` of MODEL_CFG (10_state.md rule R30). -/
def cfgLanes (cfg : Word) : BitVec 8 := cfg.extractLsb' 8 8

/-- MODEL_CFG has no reserved bit set and a legal lane count (10_state.md rule R30, 40_control.md rule R131). -/
def cfgLegal (cfg : Word) : Bool :=
  (cfg &&& ~~~(0xFF03 : Word)) == 0 && (cfgLanes cfg == 1 || cfgLanes cfg == 8 || cfgLanes cfg == 16)

/-- MODEL_WIDTH, as a 64-bit unsigned value, is in `1..NW` (40_control.md rule R131). -/
def widthLegal (nw : Nat) (width : Word) : Bool := decide (1 ≤ width.toNat) && decide (width.toNat ≤ nw)

end Sys2Proof.Machine
end

