-- ==== Sys2Proof/Machine/Ops.lean ====
section
/-!
DEFINITION. Sys2Proof/Machine/Ops.lean: the shared operations on the state: accumulators, RESULT, data memory, taking
a fault and leaving the error state, and running a command behind its checks.
-/

namespace Sys2Proof.Machine

/-- `NW` of the block. -/
def State.nw (s : State) : Nat := s.params.nw.bits

/-! ### Accumulators and RESULT -/

/-- `ACC[c]` (10_state.md rule R48). -/
def State.readAcc (s : State) (c : Nat) : Word := s.acc.getD c 0

/-- `ACC[c] <- v` (10_state.md rule R48). -/
def State.setAcc (s : State) (c : Nat) (v : Word) : State := { s with acc := s.acc.set c v }

/-- `REG.RESULT <- zext_64(v)` (10_state.md rule R34). -/
def State.setResult (s : State) (v : Word) : State := { s with result := v }

/-! ### Data memory -/

/-- The byte recorded at an address, if the host has written one since reset. -/
def Memory.read? : Memory → Nat → Option Byte
  | [], _ => none
  | (k, v) :: rest, a => if k = a then some v else Memory.read? rest a

/-- Record a byte, keeping the list strictly rising. -/
def Memory.write : Memory → Nat → Byte → Memory
  | [], a, b => [(a, b)]
  | (k, v) :: rest, a, b =>
    if a < k then (a, b) :: (k, v) :: rest
    else if a = k then (k, b) :: rest
    else (k, v) :: Memory.write rest a b

/-- Record consecutive bytes from address `a` up. -/
def Memory.writeAll : Memory → Nat → List Byte → Memory
  | m, _, [] => m
  | m, a, b :: bs => Memory.writeAll (m.write a b) (a + 1) bs

/-- The first address of a memory, if any, is above `bound`. -/
def Memory.above (bound : Nat) : Memory → Bool
  | [] => true
  | (k, _) :: _ => decide (bound < k)

/-- The canonical form: addresses strictly rising.  An address that is not listed has no recorded value, so no entry
can equal it. -/
def Memory.wf : Memory → Bool
  | [] => true
  | (k, _) :: rest => Memory.above k rest && Memory.wf rest

/-- `MemRead(a, 1)` (20_memory.md rule R72): the byte the host wrote there, and the free value of the address if it
has written none since reset (rule R89, log entry 3). -/
def State.memRead (s : State) (a : Nat) : Byte :=
  match s.dmem.read? a with
  | some b => b
  | none => Config.freeByte s.resets a

/-- The `n` bytes from DMEM address `a` up, in ascending order (20_memory.md rule R75). -/
def State.memBytes (s : State) (a n : Nat) : List Byte := (List.range n).map fun j => s.memRead (a + j)

/-- A host store of bytes from DMEM address `a` up (20_memory.md rule R73). -/
def State.storeBytes (s : State) (a : Nat) (bytes : List Byte) : State :=
  { s with dmem := s.dmem.writeAll a bytes }

/-! ### Faults -/

/-- Fault entry: command `v` faults with code `k`, and nothing else changes (60_exceptions.md rule R258). -/
def State.takeFault (s : State) (k : FaultCode) (v : Word) : State :=
  { s with err := true, errCode := k, faultCmd := v }

/-- Leaving the error state (60_exceptions.md rule R259, 40_control.md rule R137). -/
def State.clearFault (s : State) : State :=
  { s with err := false, errCode := .noFault, faultCmd := 0 }

/-- The fault of the first check that applies, in the order of the list (60_exceptions.md rule R260). -/
def firstFault : List (Bool × FaultCode) → Option FaultCode
  | [] => none
  | (applies, k) :: rest => if applies then some k else firstFault rest

/-- Run a legal command `i` behind its checks (60_exceptions.md rules R258, R260, R261): while ERR = 1 it is dropped;
otherwise the first check that applies is taken as a fault that records the command's word; otherwise the command has
its effect on the state.  Decoding is exact, so the value written to CMD is `encode i` (log entry 9). -/
def runCommand (i : Instr) (s : State) (checks : List (Bool × FaultCode)) (effect : State → State) :
    Outcome :=
  if s.err then .next s
  else
    match firstFault checks with
    | some k => .next (s.takeFault k (encode i))
    | none => .next (effect s)

end Sys2Proof.Machine
end

