-- ==== Sys2Proof/Machine/Operands.lean ====
section
/-!
DEFINITION. Sys2Proof/Machine/Operands.lean: the operand forms of the commands (30_encoding.md rule R113) and the
checks on them (60_exceptions.md rules R252 to R257).
-/

namespace Sys2Proof.Machine

/-! ### Checks -/

/-- NOT_CONFIGURED applies (60_exceptions.md rule R252). -/
def checkConfigured (s : State) : Bool × FaultCode := (!s.cfgValid, .notConfigured)

/-- BAD_CTX applies to context `c` (60_exceptions.md rule R255). -/
def checkCtx (s : State) (c : Nat) : Bool × FaultCode := (decide (s.params.nctx ≤ c), .badCtx)

/-- LANES applies (60_exceptions.md rule R257). -/
def checkLanes (s : State) : Bool × FaultCode := (decide (s.active.lanes ≠ 1), .lanes)

/-- The sub-range lies in the buffer and the buffer in DMEM, in exact arithmetic (42_crc_engine.md rule R177). -/
def rangeLegal (s : State) (base blen o len : Nat) : Bool :=
  decide (base + blen ≤ s.params.dmemBytes) && decide (o ≤ blen) && decide (len ≤ blen - o)

/-- BOUNDS applies to UPDBUF (42_crc_engine.md rule R177). -/
def checkSubRange (s : State) : Bool × FaultCode :=
  (!rangeLegal s s.bufBase.toNat s.bufLen.toNat s.arg0.toNat s.arg1.toNat, .bounds)

/-- BOUNDS applies to UPDALL (42_crc_engine.md rule R178). -/
def checkBuffer (s : State) : Bool × FaultCode :=
  (!decide (s.bufBase.toNat + s.bufLen.toNat ≤ s.params.dmemBytes), .bounds)

/-- BAD_WIDTH applies (60_exceptions.md rule R253). -/
def checkWidth (s : State) : Bool × FaultCode := (!widthLegal s.nw s.staging.width, .badWidth)

/-- BAD_CFG applies (60_exceptions.md rule R254). -/
def checkCfg (s : State) : Bool × FaultCode := (!cfgLegal s.staging.cfg, .badCfg)

/-! ### Operands -/

/-- A combiner operand: the register's low `w` bits (44_gf2_combiner.md rule R215). -/
def State.operand (s : State) (v : Word) : Word := v &&& mask s.active.w

/-- `GfMul` in the current field context (44_gf2_combiner.md rule R220). -/
def State.gfMul (s : State) (u v : Word) : Word := Machine.gfMul s.active s.field.red0 s.field.red1 u v

/-- `XPowN` in the current field context (44_gf2_combiner.md rule R225). -/
def State.xPowN (s : State) (n : Word) : Word := Machine.xPowN s.active s.field n

/-- `X8N` in the current field context (44_gf2_combiner.md rule R226). -/
def State.x8N (s : State) (len : Word) : Word := Machine.x8N s.active s.field len

/-- The bytes UPDBUF consumes (42_crc_engine.md rule R177, 20_memory.md rule R75). -/
def State.subRangeBytes (s : State) : List Byte :=
  s.memBytes (s.bufBase.toNat + s.arg0.toNat) s.arg1.toNat

/-- The bytes UPDALL consumes (42_crc_engine.md rule R178). -/
def State.bufferBytes (s : State) : List Byte := s.memBytes s.bufBase.toNat s.bufLen.toNat

/-- `UpdateRange` from context `c` over `bytes`, in the current configuration (42_crc_engine.md rule R179). -/
def State.rangeValue (s : State) (c : Nat) (bytes : List Byte) : Word :=
  updateRange s.nw s.active s.tables (s.readAcc c) bytes

end Sys2Proof.Machine
end

