-- ==== Sys2Proof/Machine/CombinerCommands.lean ====
section
/-!
DEFINITION. Sys2Proof/Machine/CombinerCommands.lean: GFMUL, GFXPOW, COMBINE, CHSEED, ZEROES and RESIDUE
(44_gf2_combiner.md).  They check nothing about their operands (rule R239).
-/

namespace Sys2Proof.Machine

/-- `GFMUL` (44_gf2_combiner.md rule R228). -/
def execGfmul (s : State) : Outcome :=
  runCommand .gfmul s [checkConfigured s] fun s =>
    s.setResult (s.gfMul (s.operand s.arg0) (s.operand s.arg1))

/-- `GFXPOW` (44_gf2_combiner.md rule R229). -/
def execGfxpow (s : State) : Outcome :=
  runCommand .gfxpow s [checkConfigured s] fun s =>
    s.setResult (s.xPowN s.arg0)

/-- `COMBINE` (44_gf2_combiner.md rule R230). -/
def execCombine (s : State) : Outcome :=
  runCommand .combine s [checkConfigured s] fun s =>
    s.setResult (s.operand s.arg1 ^^^ s.gfMul (s.operand s.arg0) (s.x8N s.arg2))

/-- `CHSEED` (44_gf2_combiner.md rule R231). -/
def execChseed (s : State) : Outcome :=
  runCommand .chseed s [checkConfigured s] fun s =>
    s.setResult (s.operand s.arg0 ^^^ s.gfMul (s.operand (s.arg3 ^^^ s.arg2)) (s.x8N s.arg1))

/-- `ZEROES` (44_gf2_combiner.md rule R232). -/
def execZeroes (s : State) : Outcome :=
  runCommand .zeroes s [checkConfigured s] fun s =>
    s.setResult (s.gfMul (s.operand s.arg1 ^^^ s.field.canon) (s.x8N s.arg0) ^^^ s.field.canon)

/-- `RESIDUE` (44_gf2_combiner.md rule R233). -/
def execResidue (s : State) : Outcome :=
  runCommand .residue s [checkConfigured s] fun s =>
    s.setResult s.field.resk

end Sys2Proof.Machine
end

