-- ==== Sys2Proof/Machine/Control.lean ====
section
/-!
DEFINITION. Sys2Proof/Machine/Control.lean: the control commands CONFIGURE and CLEARERR (40_control.md).
-/

namespace Sys2Proof.Machine

/-- The configuration CONFIGURE latches from the staging registers (40_control.md rule R132). -/
def latched (g : Staging) : ActiveConfig where
  aw := g.width.setWidth 7
  apoly := g.poly &&& mask g.width.toNat
  ainit := g.init &&& mask g.width.toNat
  axor := g.xorOut &&& mask g.width.toNat
  refIn := cfgRefIn g.cfg
  refOut := cfgRefOut g.cfg
  alanes := (cfgLanes g.cfg).setWidth 5

/-- A successful construction from configuration `a`: latch, build the lane tables and the field context, mark the
block configured and reset every context (40_control.md rules R132 to R134). -/
def State.configured (s : State) (a : ActiveConfig) : State :=
  { s with
    cfgValid := true
    active := a
    tables := buildLaneTables s.nw (epoly s.nw a) a.refIn a.lanes
    field := buildFieldContext a
    acc := List.replicate s.params.nctx (resetValue s.nw a) }

/-- `CONFIGURE` (40_control.md rules R130, R131). -/
def execConfigure (s : State) : Outcome :=
  runCommand .configure s [checkWidth s, checkCfg s] fun s => s.configured (latched s.staging)

/-- `CLEARERR` (40_control.md rules R137, R138): the one command that is not dropped while ERR = 1. -/
def execClearerr (s : State) : Outcome := .next (if s.err then s.clearFault else s)

end Sys2Proof.Machine
end

