-- ==== Sys2Proof/Machine/EngineCommands.lean ====
section
/-!
DEFINITION. Sys2Proof/Machine/EngineCommands.lean: RESET, UPDB, UPDBITS, UPDBUF, UPDALL and VALUE
(42_crc_engine.md).  Each lists its checks in the order of 60_exceptions.md rule R260.
-/

namespace Sys2Proof.Machine

/-- `RESET c` (42_crc_engine.md rule R172). -/
def execReset (c : Nat) (s : State) : Outcome :=
  runCommand (.reset c) s [checkConfigured s, checkCtx s c] fun s =>
    s.setAcc c (resetValue s.nw s.active)

/-- `UPDB c, b` (42_crc_engine.md rule R174). -/
def execUpdb (c : Nat) (b : Byte) (s : State) : Outcome :=
  runCommand (.updb c b) s [checkConfigured s, checkCtx s c] fun s =>
    s.setAcc c (byteStep s.nw s.active s.tables (s.readAcc c) b)

/-- `UPDBITS c, v, k` (42_crc_engine.md rule R176). -/
def execUpdbits (c : Nat) (v : Byte) (k : Nat) (s : State) : Outcome :=
  runCommand (.updbits c v k) s [checkConfigured s, checkCtx s c, checkLanes s] fun s =>
    s.setAcc c (updateBits s.nw s.active (s.readAcc c) v k)

/-- `UPDBUF c` (42_crc_engine.md rule R177). -/
def execUpdbuf (c : Nat) (s : State) : Outcome :=
  runCommand (.updbuf c) s [checkConfigured s, checkCtx s c, checkSubRange s] fun s =>
    s.setAcc c (s.rangeValue c s.subRangeBytes)

/-- `UPDALL c` (42_crc_engine.md rule R178). -/
def execUpdall (c : Nat) (s : State) : Outcome :=
  runCommand (.updall c) s [checkConfigured s, checkCtx s c, checkBuffer s] fun s =>
    s.setAcc c (s.rangeValue c s.bufferBytes)

/-- `VALUE c` (42_crc_engine.md rule R184). -/
def execValue (c : Nat) (s : State) : Outcome :=
  runCommand (.value c) s [checkConfigured s, checkCtx s c] fun s =>
    s.setResult (finalize s.nw s.active (s.readAcc c))

end Sys2Proof.Machine
end

