-- ==== Sys2Proof/Machine/Dispatch.lean ====
section
/-!
DEFINITION. Sys2Proof/Machine/Dispatch.lean: the meaning of every command, one arm per constructor of `Instr`.
-/

namespace Sys2Proof.Machine

/-- The outcome of issuing a legal command: 60_exceptions.md rule R260 from step 1 on, decoding apart. -/
def exec (i : Instr) (s : State) : Host.Outcome State Fault Refusal :=
  match i with
  -- control family (40_control.md)
  | .configure => Sys2Proof.Machine.execConfigure s
  | .clearerr => Sys2Proof.Machine.execClearerr s
  -- engine family (42_crc_engine.md)
  | .reset ctx => Sys2Proof.Machine.execReset ctx s
  | .updb ctx byte => Sys2Proof.Machine.execUpdb ctx byte s
  | .updbits ctx value count => Sys2Proof.Machine.execUpdbits ctx value count s
  | .updbuf ctx => Sys2Proof.Machine.execUpdbuf ctx s
  | .updall ctx => Sys2Proof.Machine.execUpdall ctx s
  | .value ctx => Sys2Proof.Machine.execValue ctx s
  -- combiner family (44_gf2_combiner.md)
  | .gfmul => Sys2Proof.Machine.execGfmul s
  | .gfxpow => Sys2Proof.Machine.execGfxpow s
  | .combine => Sys2Proof.Machine.execCombine s
  | .chseed => Sys2Proof.Machine.execChseed s
  | .zeroes => Sys2Proof.Machine.execZeroes s
  | .residue => Sys2Proof.Machine.execResidue s

end Sys2Proof.Machine
end

