-- ==== Sys2Proof/Machine/Bus.lean ====
section
/-!
DEFINITION. Sys2Proof/Machine/Bus.lean: the block as the host sees it: the register map (10_state.md rule R21), data
memory (20_memory.md), bus errors (rule R79), issuing a command (10_state.md rule R25) and the reset input
(70_reset_and_hazards.md rule R280).
-/

namespace Sys2Proof.Machine

/-- A place of the register space (10_state.md rule R21). -/
inductive Reg where
  | id | param | status | cmd
  | modelWidth | modelPoly | modelInit | modelXorout | modelCfg
  | bufBase | bufLen
  | arg0 | arg1 | arg2 | arg3
  | result
  | acc (c : Nat)
  | actWidth | actPoly | actInit | actXorout | actCfg
  | faultCmd
  | xpow (i : Nat)
  | table (k n : Nat)
  | unmapped
deriving DecidableEq, Repr

/-- The windows of the register map: ACC_c, XPOW_i and TABLE_k_n; everything else is unmapped
(10_state.md rules R21, R35, R39, R40, R42).  `offset` is a multiple of 8. -/
def windowAt (offset : Nat) : Reg :=
  if 0x080 ≤ offset ∧ offset < 0x100 then .acc ((offset - 0x080) / 8)
  else if 0x400 ≤ offset ∧ offset < 0x600 then .xpow ((offset - 0x400) / 8)
  else if 0x8000 ≤ offset ∧ offset < 0x10000 then
    .table ((offset - 0x8000) / 8 / 256) ((offset - 0x8000) / 8 % 256)
  else .unmapped

/-- The register at an 8-byte-aligned offset below 0x10000 (10_state.md rule R21). -/
def regAt (offset : Nat) : Reg :=
  match offset with
  | 0x000 => .id
  | 0x008 => .param
  | 0x010 => .status
  | 0x018 => .cmd
  | 0x020 => .modelWidth
  | 0x028 => .modelPoly
  | 0x030 => .modelInit
  | 0x038 => .modelXorout
  | 0x040 => .modelCfg
  | 0x048 => .bufBase
  | 0x050 => .bufLen
  | 0x058 => .arg0
  | 0x060 => .arg1
  | 0x068 => .arg2
  | 0x070 => .arg3
  | 0x078 => .result
  | 0x100 => .actWidth
  | 0x108 => .actPoly
  | 0x110 => .actInit
  | 0x118 => .actXorout
  | 0x120 => .actCfg
  | 0x128 => .faultCmd
  | offset => windowAt offset

/-- The 64-bit value a register reads (10_state.md rules R22 to R42).  Reads have no effect (20_memory.md rule R81). -/
def readReg (r : Reg) (s : State) : Word :=
  match r with
  | .id => idWord
  | .param => paramWord s.params
  | .status => statusWord s
  | .cmd => 0
  | .modelWidth => s.staging.width
  | .modelPoly => s.staging.poly
  | .modelInit => s.staging.init
  | .modelXorout => s.staging.xorOut
  | .modelCfg => s.staging.cfg
  | .bufBase => s.bufBase
  | .bufLen => s.bufLen
  | .arg0 => s.arg0
  | .arg1 => s.arg1
  | .arg2 => s.arg2
  | .arg3 => s.arg3
  | .result => s.result
  | .acc c => if c < s.params.nctx then s.readAcc c else 0
  | .actWidth => s.active.aw.setWidth 64
  | .actPoly => s.active.apoly
  | .actInit => s.active.ainit
  | .actXorout => s.active.axor
  | .actCfg => actCfgWord s.active
  | .faultCmd => s.faultCmd
  | .xpow i => if s.cfgValid then s.field.xpow.getD i 0 else 0
  | .table k n => if s.cfgValid && decide (k < s.active.lanes) then tableEntry s.tables k n else 0
  | .unmapped => 0

/-- Issue the command `v` (10_state.md rule R25, 60_exceptions.md rules R251, R260, R261): a legal command runs; an
illegal one is dropped while ERR = 1 and faults with ILLEGAL_CMD otherwise. -/
def issue (v : Word) (s : State) : Outcome :=
  match decode v with
  | .command i => exec i s
  | .illegal _ => .next (if s.err then s else s.takeFault .illegalCmd v)

/-- A host write of the 64-bit value `v` to a register (10_state.md rules R22 to R43): the read-write registers store
it, CMD issues it, and every other place ignores it. -/
def writeReg (r : Reg) (v : Word) (s : State) : Outcome :=
  match r with
  | .cmd => issue v s
  | .modelWidth => .next { s with staging := { s.staging with width := v } }
  | .modelPoly => .next { s with staging := { s.staging with poly := v } }
  | .modelInit => .next { s with staging := { s.staging with init := v } }
  | .modelXorout => .next { s with staging := { s.staging with xorOut := v } }
  | .modelCfg => .next { s with staging := { s.staging with cfg := v } }
  | .bufBase => .next { s with bufBase := v }
  | .bufLen => .next { s with bufLen := v }
  | .arg0 => .next { s with arg0 := v }
  | .arg1 => .next { s with arg1 := v }
  | .arg2 => .next { s with arg2 := v }
  | .arg3 => .next { s with arg3 := v }
  | .id => .next s
  | .param => .next s
  | .status => .next s
  | .result => .next s
  | .acc _ => .next s
  | .actWidth => .next s
  | .actPoly => .next s
  | .actInit => .next s
  | .actXorout => .next s
  | .actCfg => .next s
  | .faultCmd => .next s
  | .xpow _ => .next s
  | .table _ _ => .next s
  | .unmapped => .next s

/-- What an access of `width` bytes at a block offset reaches (20_memory.md rules R70, R76, R78, R79). -/
inductive Target where
  | register (r : Reg)
  | dmem (a : Nat)
  | busError
deriving DecidableEq, Repr

/-- A DMEM access is 1, 2, 4 or 8 bytes wide (20_memory.md rule R78). -/
def dmemWidth (width : Nat) : Bool :=
  decide (width = 1) || decide (width = 2) || decide (width = 4) || decide (width = 8)

/-- The target of an access (20_memory.md rules R70, R76, R78, R79; log entry 16). -/
def targetOf (p : Params) (offset width : Nat) : Target :=
  if offset < 0x10000 then
    if width = 8 ∧ offset % 8 = 0 then .register (regAt offset) else .busError
  else if dmemWidth width = true ∧ (offset - 0x10000) % width = 0 ∧ offset - 0x10000 + width ≤ p.dmemBytes then
    .dmem (offset - 0x10000)
  else .busError

/-- The block offset of a host address (10_state.md rule R21); none below `BLOCK_BASE` (log entry 7). -/
def offsetOf (p : Params) (address : Nat) : Option Nat :=
  if p.blockBase ≤ address then some (address - p.blockBase) else none

/-- The bus's answer to a host read at a block offset. -/
def hostRead (offset width : Nat) (s : State) : BusResponse :=
  match targetOf s.params offset width with
  | .register r => .data (readReg r s)
  | .dmem a => .data (littleEndian (s.memBytes a width))
  | .busError => .busError

/-- Record the bus's answer. -/
def State.respond (s : State) (r : BusResponse) : State := { s with response := r }

/-- A host write at a block offset.  The answer is recorded with the state the write starts from, so that a command
runs on the state in which its own write is accepted. -/
def hostWrite (offset width : Nat) (v : Word) (s : State) : Outcome :=
  match targetOf s.params offset width with
  | .register r => writeReg r v (s.respond .written)
  | .dmem a => .next ((s.respond .written).storeBytes a (bytesOf v width))
  | .busError => .next (s.respond .busError)

/-- The reset input: every piece of state takes its reset value, DMEM is unspecified again, and the parameters and the
accesses still to come stay (70_reset_and_hazards.md rules R280 to R282, log entry 8). -/
def State.afterReset (s : State) : State :=
  { State.resetWith s.params (s.resets + 1) with pending := s.pending }

/-- One event from outside. -/
def perform (e : HostEvent) (s : State) : Outcome :=
  match e with
  | .write address width v =>
    match offsetOf s.params address with
    | some offset => hostWrite offset width v s
    | none => .next (s.respond .notSelected)
  | .read address width =>
    match offsetOf s.params address with
    | some offset => .next (s.respond (hostRead offset width s))
    | none => .next (s.respond .notSelected)
  | .resetInput => .next s.afterReset

/-- Perform the oldest pending event; with none pending the block is idle and holds all its state
(70_reset_and_hazards.md rule R292, 20_memory.md rule R84; log entry 6). -/
def performNext (s : State) : Outcome :=
  match s.pending with
  | [] => .next s
  | e :: rest => perform e { s with pending := rest }

/-- The host's write of `v` to CMD (10_state.md rule R25). -/
def cmdWrite (p : Params) (v : Word) : HostEvent := .write (p.blockBase + 0x018) 8 v

end Sys2Proof.Machine
end

