-- ==== Sys2Proof/Machine/HostProgram.lean ====
section
/-!
DEFINITION. Sys2Proof/Machine/HostProgram.lean: the host-program lines and pseudo-instructions of 30_encoding.md rules
R114 to R118, as the host accesses they stand for.  A program runs by standing in `State.pending` (log entry 4).
-/

namespace Sys2Proof.Machine

/-- The offset of a named register of 10_state.md rule R21.  DESIGN CHOICE (log entry 18) for terms that name none:
offset 0x0130, an unmapped one, for the unmapped places, and the window's formula for an index past its end. -/
def Reg.offset : Reg → Nat
  | .id => 0x000
  | .param => 0x008
  | .status => 0x010
  | .cmd => 0x018
  | .modelWidth => 0x020
  | .modelPoly => 0x028
  | .modelInit => 0x030
  | .modelXorout => 0x038
  | .modelCfg => 0x040
  | .bufBase => 0x048
  | .bufLen => 0x050
  | .arg0 => 0x058
  | .arg1 => 0x060
  | .arg2 => 0x068
  | .arg3 => 0x070
  | .result => 0x078
  | .acc c => 0x080 + 8 * c
  | .actWidth => 0x100
  | .actPoly => 0x108
  | .actInit => 0x110
  | .actXorout => 0x118
  | .actCfg => 0x120
  | .faultCmd => 0x128
  | .xpow i => 0x400 + 8 * i
  | .table k n => 0x8000 + 8 * (256 * k + n)
  | .unmapped => 0x130

/-- A line of a host program (30_encoding.md rules R114 to R118). -/
inductive Line where
  /-- `wr <REG>, <value>` (rule R115). -/
  | wr (r : Reg) (value : Word)
  /-- `wrb <addr>, <b0>, <b1>, ...` (rule R115). -/
  | wrb (addr : Nat) (bytes : List Byte)
  /-- `rd <REG>` (rule R115). -/
  | rd (r : Reg)
  /-- A command line (rule R114). -/
  | command (i : Instr)
  /-- `wrs <addr>, "<text>"` (rule R116; log entry 17 for a character that is not ASCII). -/
  | wrs (addr : Nat) (text : List Char)
  /-- `MODEL <w>, <poly>, <init>, <refin>, <refout>, <xorout>, <lanes>` (rule R117). -/
  | model (w poly init : Word) (refIn refOut : Bool) (xorOut lanes : Word)
  /-- `CRCBUF c<n>, <base>, <len>` (rule R118). -/
  | crcbuf (ctx : Nat) (base len : Word)
  /-- `GFCALL <op>, <a0>[, <a1>[, <a2>[, <a3>]]]` (rule R118). -/
  | gfcall (op : Instr) (operands : List Word)
deriving DecidableEq, Repr

/-- `wr <REG>, <value>` as a host access (30_encoding.md rule R115). -/
def writeEvent (p : Params) (r : Reg) (v : Word) : HostEvent := .write (p.blockBase + r.offset) 8 v

/-- `wrb` as 1-byte accesses to DMEM (30_encoding.md rule R115). -/
def byteEvents (p : Params) : Nat → List Byte → List HostEvent
  | _, [] => []
  | addr, b :: bs => .write (p.blockBase + 0x10000 + addr) 1 (b.setWidth 64) :: byteEvents p (addr + 1) bs

/-- The MODEL_CFG value of `MODEL` (30_encoding.md rule R117).  The rule gives the lane count no range and says nothing of
a value that does not fit the 64-bit register (a lane count of 2^56 or more); DESIGN CHOICE (log entry 19): the bits
shifted past bit 63 are dropped. -/
def modelCfgWord (refIn refOut : Bool) (lanes : Word) : Word :=
  (BitVec.ofBool refIn).setWidth 64 ||| ((BitVec.ofBool refOut).setWidth 64 <<< 1) ||| (lanes <<< 8)

/-- The operand registers in the order GFCALL fills them (30_encoding.md rule R118). -/
def argRegs : List Reg := [.arg0, .arg1, .arg2, .arg3]

/-- The byte `wrs` writes for a character: its ASCII code (30_encoding.md rule R116).  The rule gives no meaning to a
character that has none (code point 128 or above); DESIGN CHOICE (log entry 17): the low 8 bits of its Unicode code
point. -/
def charByte (ch : Char) : Byte := BitVec.ofNat 8 ch.toNat

/-- The host accesses a line stands for (30_encoding.md rules R114 to R118).  A character of `wrs` with no ASCII code is
log entry 17; a term no line of a program spells, such as `GFCALL` with more than four operands, is log entry 18. -/
def Line.events (p : Params) : Line → List HostEvent
  | .wr r v => [writeEvent p r v]
  | .wrb addr bytes => byteEvents p addr bytes
  | .rd r => [.read (p.blockBase + r.offset) 8]
  | .command i => [cmdWrite p (encode i)]
  | .wrs addr text => byteEvents p addr (text.map charByte)
  | .model w poly init refIn refOut xorOut lanes =>
    [ writeEvent p .modelWidth w
    , writeEvent p .modelPoly poly
    , writeEvent p .modelInit init
    , writeEvent p .modelXorout xorOut
    , writeEvent p .modelCfg (modelCfgWord refIn refOut lanes)
    , cmdWrite p (encode .configure) ]
  | .crcbuf ctx base len =>
    [ writeEvent p .bufBase base
    , writeEvent p .bufLen len
    , cmdWrite p (encode (.reset ctx))
    , cmdWrite p (encode (.updall ctx))
    , cmdWrite p (encode (.value ctx)) ]
  | .gfcall op operands =>
    (argRegs.zip operands).map (fun (r, v) => writeEvent p r v) ++ [cmdWrite p (encode op)]

/-- The host accesses of a program, in order (30_encoding.md rule R115, 20_memory.md rule R84). -/
def programEvents (p : Params) (lines : List Line) : List HostEvent := lines.flatMap (Line.events p)

/-- The state with a host program's accesses pending after those that already are. -/
def State.withProgram (s : State) (lines : List Line) : State :=
  { s with pending := s.pending ++ programEvents s.params lines }

end Sys2Proof.Machine
end

