-- ==== Sys2Proof/Machine/Step.lean ====
section
/-!
DEFINITION. Sys2Proof/Machine/Step.lean: one step of the machine.

The block fetches no instructions (10_state.md rule R51): a step performs the oldest host access that is pending, and
a command runs whole inside its write to CMD (70_reset_and_hazards.md rule R292).
-/

namespace Sys2Proof.Machine

/-- One step: one host access, or idling (log entry 14 on time). -/
def step (s : State) : Host.Outcome State Fault Refusal := performNext s

/-- The state in which the very next step is the host's write of the given command word to CMD (log entry 4).  Bits
above `nbits` are zero. -/
def State.withFetchWord (s : State) (nbits w : Nat) : State :=
  { s with pending := cmdWrite s.params (BitVec.ofNat 64 (w % 2 ^ nbits)) :: s.pending }

end Sys2Proof.Machine
end

