-- ==== Sys2Proof/Machine/Reference.lean ====
section
/-!
DEFINITION. Sys2Proof/Machine/Reference.lean: the bit-serial reference the engine is equal to (42_crc_engine.md rule
R186) and the combiner's view of a CRC (44_gf2_combiner.md rules R215 to R217, R238).  The machine's step uses none of
it: claims about the machine are stated against it.
-/

namespace Sys2Proof.Machine

/-- One message bit into the w-bit remainder register of `RefCRC` (42_crc_engine.md rule R186). -/
def refBit (a : ActiveConfig) (reg : Word) (bit : Bool) : Word :=
  shl a.w reg 1 ^^^ (if reg.getLsbD (a.w - 1) ^^ bit then a.apoly else 0)

/-- The remainder register after a bit sequence, from `reg` (42_crc_engine.md rule R186). -/
def refRegister (a : ActiveConfig) (reg : Word) (bits : List Bool) : Word := bits.foldl (refBit a) reg

/-- The output step of `RefCRC` (42_crc_engine.md rule R186). -/
def refOutput (a : ActiveConfig) (reg : Word) : Word :=
  (if a.refOut then bitrev a.w reg else reg) ^^^ a.axor

/-- `RefCRC(bits)` (42_crc_engine.md rule R186). -/
def refCrc (a : ActiveConfig) (bits : List Bool) : Word := refOutput a (refRegister a a.ainit bits)

/-- The message bits of a byte sequence, in message bit order (00_scope.md rule R13). -/
def bytesToBits (refIn : Bool) (bytes : List Byte) : List Bool := bytes.flatMap (messageBits refIn 8)

/-- The engine register that holds the remainder `reg` (42_crc_engine.md rule R171). -/
def engineRegister (nw : Nat) (a : ActiveConfig) (reg : Word) : Word :=
  if a.refIn then bitrev a.w reg else shl nw reg (alignShift nw a)

/-- The combiner encoding `E` of a natural w-bit value, and its own inverse (44_gf2_combiner.md rule R215, 00_scope.md
rule R10). -/
def combinerEncode (a : ActiveConfig) (v : Word) : Word := if a.refIn then bitrev a.w v else v

/-- The combiner-encoded CRC, from start `start`, of a message given as bits (44_gf2_combiner.md rule R217). -/
def combinerCrc (a : ActiveConfig) (start : Word) (bits : List Bool) : Word :=
  combinerEncode a (refRegister a (combinerEncode a (start ^^^ canonValue a)) bits) ^^^ canonValue a

/-- A VALUE result in combiner encoding, and back (44_gf2_combiner.md rule R216). -/
def valueToCombiner (a : ActiveConfig) (y : Word) : Word := if a.refIn = a.refOut then y else bitrev a.w y

/-- `encode(c)`: the w message bits of a combiner-encoded CRC (44_gf2_combiner.md rule R238). -/
def crcBits (a : ActiveConfig) (c : Word) : List Bool :=
  if a.refIn then (List.range a.w).map fun i => c.getLsbD i
  else (List.range a.w).reverse.map fun i => c.getLsbD i

/-- `x^n` times a combiner-encoded value: `n` reduction steps (44_gf2_combiner.md rule R220). -/
def timesXPow (a : ActiveConfig) (n : Nat) (v : Word) : Word := (mulX a 0 (polyEnc a))^[n] v

end Sys2Proof.Machine
end

