-- ==== Sys2Proof/Machine/Message.lean ====
section
/-!
DEFINITION. Sys2Proof/Machine/Message.lean: the message a run feeds to each context (42_crc_engine.md rules R171, R186).
The machine's step uses none of it: claims about the machine are stated with it.
-/

namespace Sys2Proof.Machine

/-- The context a command names (30_encoding.md rule R103). -/
def contextOf : Instr → Option Nat
  | .reset c => some c
  | .updb c _ => some c
  | .updbits c _ _ => some c
  | .updbuf c => some c
  | .updall c => some c
  | .value c => some c
  | .configure => none
  | .clearerr => none
  | .gfmul => none
  | .gfxpow => none
  | .combine => none
  | .chseed => none
  | .zeroes => none
  | .residue => none

/-- The combiner commands (30_encoding.md rule R108). -/
def isCombiner : Instr → Bool
  | .gfmul => true
  | .gfxpow => true
  | .combine => true
  | .chseed => true
  | .zeroes => true
  | .residue => true
  | .configure => false
  | .clearerr => false
  | .reset _ => false
  | .updb _ _ => false
  | .updbits _ _ _ => false
  | .updbuf _ => false
  | .updall _ => false
  | .value _ => false

/-- The commands that feed message bits to context `c` (42_crc_engine.md rule R186). -/
def isUpdateOf (c : Nat) : Instr → Bool
  | .updb d _ => decide (d = c)
  | .updbits d _ _ => decide (d = c)
  | .updbuf d => decide (d = c)
  | .updall d => decide (d = c)
  | .configure => false
  | .clearerr => false
  | .reset _ => false
  | .value _ => false
  | .gfmul => false
  | .gfxpow => false
  | .combine => false
  | .chseed => false
  | .zeroes => false
  | .residue => false

/-- The message bits a command feeds, in message bit order (00_scope.md rule R13). -/
def bitsFed (s : State) : Instr → List Bool
  | .updb _ b => messageBits s.active.refIn 8 b
  | .updbits _ v k => messageBits s.active.refIn k v
  | .updbuf _ => bytesToBits s.active.refIn s.subRangeBytes
  | .updall _ => bytesToBits s.active.refIn s.bufferBytes
  | .configure => []
  | .clearerr => []
  | .reset _ => []
  | .value _ => []
  | .gfmul => []
  | .gfxpow => []
  | .combine => []
  | .chseed => []
  | .zeroes => []
  | .residue => []

/-- The messages `m` with the message of context `c` replaced. -/
def replaceMessage (m : Nat → List Bool) (c : Nat) (bits : List Bool) : Nat → List Bool :=
  fun d => if d = c then bits else m d

/-- The messages of the contexts, since the last RESET or CONFIGURE of each, after a command that performs. -/
def messagesAfter (m : Nat → List Bool) (s : State) : Instr → Nat → List Bool
  | .configure => fun _ => []
  | .reset c => replaceMessage m c []
  | .updb c b => replaceMessage m c (m c ++ bitsFed s (.updb c b))
  | .updbits c v k => replaceMessage m c (m c ++ bitsFed s (.updbits c v k))
  | .updbuf c => replaceMessage m c (m c ++ bitsFed s (.updbuf c))
  | .updall c => replaceMessage m c (m c ++ bitsFed s (.updall c))
  | .clearerr => m
  | .value _ => m
  | .gfmul => m
  | .gfxpow => m
  | .combine => m
  | .chseed => m
  | .zeroes => m
  | .residue => m

/-- The command is neither dropped nor faults. -/
def performs (i : Instr) (s : State) : Bool :=
  match exec i s with
  | .next t => !s.err && !t.err
  | .fault _ => false
  | .refused _ => false

/-- The legal command that the next step issues, if it issues one. -/
def State.nextCommand (s : State) : Option Instr :=
  match s.pending with
  | .write address width v :: _ =>
    if address = s.params.blockBase + 0x018 ∧ width = 8 then
      match decode v with
      | .command i => some i
      | .illegal _ => none
    else none
  | .read _ _ :: _ => none
  | .resetInput :: _ => none
  | [] => none

/-- The messages after one step. -/
def messagesStep (m : Nat → List Bool) (s : State) : Nat → List Bool :=
  match s.nextCommand with
  | some i => if performs i s then messagesAfter m s i else m
  | none => m

/-- The messages after `k` steps. -/
def messagesRun : Nat → State → (Nat → List Bool) → Nat → List Bool
  | 0, _, m => m
  | k + 1, s, m =>
    match step s with
    | .next t => messagesRun k t (messagesStep m s)
    | .fault _ => m
    | .refused _ => m

/-- While the block is configured, every context holds, in its place, the remainder of its message from the initial
register (42_crc_engine.md rule R171). -/
def State.holds (s : State) (m : Nat → List Bool) : Prop :=
  s.cfgValid = true → ∀ c, c < s.params.nctx →
    s.readAcc c = engineRegister s.nw s.active (refRegister s.active s.active.ainit (m c))

/-- Commands issued one after another, with no other host access between them. -/
def runCommands : List Instr → State → Outcome
  | [], s => .next s
  | i :: rest, s =>
    match exec i s with
    | .next t => runCommands rest t
    | .fault r => .fault r
    | .refused r => .refused r

/-- An outcome with a next state changed. -/
def mapNext (f : State → State) : Outcome → Outcome
  | .next t => .next (f t)
  | .fault r => .fault r
  | .refused r => .refused r

/-- The CRC-32 model with `lanes` lanes (95_test_vectors.md; the one model the document gives). -/
def crc32 (lanes : BitVec 5) : ActiveConfig where
  aw := 32
  apoly := 0x04C11DB7
  ainit := 0xFFFFFFFF
  axor := 0xFFFFFFFF
  refIn := true
  refOut := true
  alanes := lanes

end Sys2Proof.Machine
end

