-- ==== Sys2Proof/Safety.lean ====
section
/-!
DEFINITION. Sys2Proof/Safety.lean: the invariant of the block's states and what counts as a safe run, in the terms the
claims use.
-/

namespace Sys2Proof.Machine

/-- A value has no bit at place `n` or above: it is an n-bit value (00_scope.md rule R7). -/
def isBits (n : Nat) (v : Word) : Bool := decide (v.toNat < 2 ^ n)

/-- An active configuration that a successful CONFIGURE can latch on a block of native width `nw`
(10_state.md rule R44, 40_control.md rules R131, R132). -/
structure ActiveConfig.Legal (nw : Nat) (a : ActiveConfig) : Prop where
  width_pos : 1 ≤ a.w
  width_le : a.w ≤ nw
  poly_bits : isBits a.w a.apoly = true
  init_bits : isBits a.w a.ainit = true
  xor_bits : isBits a.w a.axor = true
  lanes : a.lanes = 1 ∨ a.lanes = 8 ∨ a.lanes = 16

/-- The configuration part of a state: either never configured since reset and everything unset, or configured and the
tables and the field context those of the active configuration (10_state.md rules R44, R46, R47). -/
structure State.ConfigInv (s : State) : Prop where
  unset : s.cfgValid = false → s.active = .unset ∧ s.tables = [] ∧ s.field = .unbuilt
  legal : s.cfgValid = true → s.active.Legal s.nw
  tables : s.cfgValid = true → s.tables = buildLaneTables s.nw (epoly s.nw s.active) s.active.refIn s.active.lanes
  field : s.cfgValid = true → s.field = buildFieldContext s.active

/-- The fault record (10_state.md rules R24, R38): a code is recorded exactly while ERR = 1, and the record is zero
while ERR = 0. -/
structure State.FaultInv (s : State) : Prop where
  clear : s.err = false → s.errCode = .noFault ∧ s.faultCmd = 0
  recorded : s.err = true → s.errCode ≠ .noFault

/-- Every recorded byte of DMEM has an address below `DMEM_BYTES` (20_memory.md rule R72). -/
def Memory.within (bound : Nat) (m : Memory) : Bool := m.all fun cell => decide (cell.1 < bound)

/-- The invariant of the block's states. -/
structure State.Inv (s : State) : Prop where
  params : s.params.wf = true
  config : s.ConfigInv
  fault : s.FaultInv
  contexts : s.acc.length = s.params.nctx
  native : ∀ c, isBits s.nw (s.readAcc c) = true
  memory : s.dmem.wf = true
  addresses : s.dmem.within s.params.dmemBytes = true

/-- A run is safe as long as no fault is recorded: the contexts and RESULT then hold what the commands computed
(70_reset_and_hazards.md rule R288). -/
def State.safe (s : State) : Bool := !s.err

/-- A command can perform unless a check of its own applies (60_exceptions.md rule R260 from step 6 on): the block is
configured and no fault is recorded. -/
def State.ready (s : State) : Prop := s.err = false ∧ s.cfgValid = true

/-- The staged model is one CONFIGURE accepts (40_control.md rule R131). -/
def State.stagedLegal (s : State) : Prop :=
  (1 ≤ s.staging.width.toNat ∧ s.staging.width.toNat ≤ s.nw) ∧
  (∀ i, i < 64 → (2 ≤ i ∧ i ≤ 7) ∨ 16 ≤ i → s.staging.cfg.getLsbD i = false) ∧
  (s.staging.cfg.extractLsb' 8 8 = 1 ∨ s.staging.cfg.extractLsb' 8 8 = 8 ∨ s.staging.cfg.extractLsb' 8 8 = 16)

/-- Steps 2 to 8 of the check order for a value written to CMD while ERR = 0: the fault of the first check that
applies, if one does (60_exceptions.md rule R260). -/
def firstCheck (s : State) (v : Word) : Option FaultCode :=
  match decode v with
  | .illegal _ => some .illegalCmd
  | .command .configure =>
    if ¬ (1 ≤ s.staging.width.toNat ∧ s.staging.width.toNat ≤ s.nw) then some .badWidth
    else if s.staging.cfg &&& ~~~(0xFF03 : Word) ≠ 0 ∨
        ¬ (cfgLanes s.staging.cfg = 1 ∨ cfgLanes s.staging.cfg = 8 ∨ cfgLanes s.staging.cfg = 16) then some .badCfg
    else none
  | .command .clearerr => none
  | .command i =>
    if s.cfgValid = false then some .notConfigured
    else if (contextOf i).any fun c => decide (s.params.nctx ≤ c) then some .badCtx
    else
      match i with
      | .updbits _ _ _ => if s.active.lanes ≠ 1 then some .lanes else none
      | .updbuf _ =>
        if s.bufBase.toNat + s.bufLen.toNat > s.params.dmemBytes ∨ s.arg0.toNat > s.bufLen.toNat ∨
            s.arg1.toNat > s.bufLen.toNat - s.arg0.toNat then some .bounds
        else none
      | .updall _ => if s.bufBase.toNat + s.bufLen.toNat > s.params.dmemBytes then some .bounds else none
      | .configure | .clearerr | .reset _ | .updb _ _ | .value _ | .gfmul | .gfxpow | .combine | .chseed | .zeroes
      | .residue => none

/-- `k` steps of the machine. -/
def runSteps (k : Nat) (s : State) : Host.Outcome State Fault Refusal := Sys2Proof.core.run k s

end Sys2Proof.Machine
end

