-- ==== Sys2Proof/Certificates/Slice0/Obligations.lean ====
section
/-!
DEFINITION. Sys2Proof/Certificates/Slice0/Obligations.lean: what the model is claimed to satisfy.  Each statement's
docstring names the rule of spec/ it formalises.
-/

open Sys2Proof Sys2Proof.Machine

/-! ### Encoding (30_encoding.md) -/

/-- Decoding the encoding of a command gives the command back, for every command a word can spell. -/
def Obligations.DecodeEncodeGivesCommandBack : Prop :=
  ∀ i : Instr, i.wellFormed = true → decode (encode i) = .command i

/-- A value that decodes to a command spells a well-formed command, and is the only value that does. -/
def Obligations.DecodedValueIsItsCommandsEncoding : Prop :=
  ∀ (v : Word) (i : Instr), decode v = .command i → i.wellFormed = true ∧ encode i = v

/-- 30_encoding.md rule R111: decoding goes by the rows of rule R107, and at most one row matches. -/
def Obligations.DecodeFollowsTheRowTable : Prop :=
  (∀ v : Word, v.extractLsb' 32 32 ≠ 0 → ∃ why, decode v = .illegal why) ∧
  (∀ v : Word, v.extractLsb' 32 32 = 0 → ∀ r ∈ opcodeRows, v.extractLsb' 0 32 &&& r.mask = r.pattern →
    decode v = .command (operandsOf r.mnemonic (v.extractLsb' 0 32))) ∧
  (∀ v : Word, v.extractLsb' 32 32 = 0 → (∀ r ∈ opcodeRows, v.extractLsb' 0 32 &&& r.mask ≠ r.pattern) →
    ∃ why, decode v = .illegal why) ∧
  (∀ w : BitVec 32, ∀ r ∈ opcodeRows, ∀ q ∈ opcodeRows,
    w &&& r.mask = r.pattern → w &&& q.mask = q.pattern → r = q) ∧
  (∀ w : BitVec 32, fieldCtx w = w.extractLsb' 8 4 ∧ fieldImm8 w = w.extractLsb' 16 8 ∧
    fieldNbits w = w.extractLsb' 24 3)

/-- Words written out from the forms of 30_encoding.md rule R114, one or more for each of the fourteen rows of rule R107,
decode to the commands they stand for. -/
def Obligations.SpecWordsDecodeToTheirCommands : Prop :=
  decode 0x00000001 = .command .configure ∧
  decode 0x00000002 = .command .clearerr ∧
  decode 0x00000310 = .command (.reset 3) ∧
  decode 0x00310011 = .command (.updb 0 0x31) ∧
  decode 0x03050012 = .command (.updbits 0 5 3) ∧
  decode 0x07FF0F12 = .command (.updbits 15 0xFF 7) ∧
  decode 0x00000513 = .command (.updbuf 5) ∧
  decode 0x00000F14 = .command (.updall 15) ∧
  decode 0x00000215 = .command (.value 2) ∧
  decode 0x00000020 = .command .gfmul ∧
  decode 0x00000021 = .command .gfxpow ∧
  decode 0x00000022 = .command .combine ∧
  decode 0x00000023 = .command .chseed ∧
  decode 0x00000024 = .command .zeroes ∧
  decode 0x00000025 = .command .residue

/-- 30_encoding.md rule R109: which values are illegal, and what an illegal one does. -/
def Obligations.IllegalValueFaultsOrIsDropped : Prop :=
  ∀ v : Word,
    ((v.extractLsb' 32 32 ≠ 0 ∨ ∀ r ∈ opcodeRows, v.extractLsb' 0 32 &&& r.mask ≠ r.pattern) ↔
      ∀ i, decode v ≠ .command i) ∧
    ∀ s : State, (∀ i, decode v ≠ .command i) →
      issue v s = .next (if s.err then s else { s with err := true, errCode := .illegalCmd, faultCmd := v })

/-! ### The step -/

/-- 20_memory.md rule R84: a step performs the oldest pending access, whichever it is, on the state in which that access
has left the list.  So a step whose next host access is the write of a value to CMD, legal or illegal, issues that value,
and runs exactly the command it decodes to if it is legal, on the state in which the write is also answered; the last
part is the same for the state that `withFetchWord` makes.  (A step also moves past the access; that and the
bus's answer are the model's own fields, log entries 4 and 5.) -/
def Obligations.StepRunsTheDecodedCommand : Prop :=
  (∀ (s : State) (e : HostEvent) (rest : List HostEvent), s.pending = e :: rest →
    step s = perform e { s with pending := rest }) ∧
  (∀ (s : State) (v : Word) (rest : List HostEvent), s.pending = cmdWrite s.params v :: rest →
    step s = issue v { s with pending := rest, response := .written } ∧
    ∀ i : Instr, decode v = .command i → step s = exec i { s with pending := rest, response := .written }) ∧
  (∀ (s : State) (nbits w : Nat),
    step (s.withFetchWord nbits w) = issue (BitVec.ofNat 64 (w % 2 ^ nbits)) { s with response := .written } ∧
    ∀ i : Instr, decode (BitVec.ofNat 64 (w % 2 ^ nbits)) = .command i →
      step (s.withFetchWord nbits w) = exec i { s with response := .written })

/-- Nothing stops the machine and nothing changes its parameters: every step answers a next state of the same block
("No behaviour is `stuck`", 93_implementation_defined.md part 1), and with no access pending the block is idle and holds
all its state (70_reset_and_hazards.md rule R292, last point). -/
def Obligations.EveryStepAnswersANextState : Prop :=
  (∀ s : State, ∃ t, step s = .next t ∧ t.params = s.params) ∧
  (∀ s : State, s.pending = [] → step s = .next s)

/-! ### Faults (60_exceptions.md) -/

/-- 60_exceptions.md rule R258: a fault writes ERR, ERR_CODE and FAULT_CMD and nothing else. -/
def Obligations.FaultEntryChangesNothingElse : Prop :=
  ∀ (v : Word) (s t : State), s.err = false → issue v s = .next t → t.err = true →
    ∃ k, k ≠ FaultCode.noFault ∧ t = { s with err := true, errCode := k, faultCmd := v }

/-- 60_exceptions.md rule R261: while ERR = 1 every value but CLEARERR's is dropped, and every other access works
normally. -/
def Obligations.StickyErrorDropsEveryOtherCommand : Prop :=
  (∀ (v : Word) (s : State), s.err = true → v ≠ 2 → issue v s = .next s) ∧
  (∀ s : State, s.err = true →
    issue 2 s = .next { s with err := false, errCode := .noFault, faultCmd := 0 }) ∧
  (∀ (r : Reg) (v : Word) (s : State) (b : Bool), r ≠ .cmd →
    writeReg r v { s with err := b } = mapNext (fun t => { t with err := b }) (writeReg r v s)) ∧
  (∀ (r : Reg) (s : State) (b : Bool), r ≠ .status → readReg r { s with err := b } = readReg r s) ∧
  (∀ (s : State) (a n : Nat) (bytes : List Byte) (b : Bool),
    ({ s with err := b } : State).memBytes a n = s.memBytes a n ∧
    ({ s with err := b } : State).storeBytes a bytes = { s.storeBytes a bytes with err := b })

/-- 40_control.md rule R138 (and the effect of rule R137): CLEARERR clears a recorded fault, has no effect when none is
recorded, and is spelt by exactly one value. -/
def Obligations.ClearerrLeavesTheErrorState : Prop :=
  (∀ v : Word, decode v = .command .clearerr ↔ v = 2) ∧
  (∀ s : State, s.err = false → exec .clearerr s = .next s) ∧
  (∀ s : State, s.err = true →
    exec .clearerr s = .next { s with err := false, errCode := .noFault, faultCmd := 0 })

/-- 60_exceptions.md rule R260: the checks of a value written to CMD are made in order, one fault is reported, and with
no check that applies the command performs (no fault is recorded). -/
def Obligations.FirstApplicableCheckDecides : Prop :=
  (∀ (v : Word) (s : State), s.err = true →
    issue v s = .next (if v = 2 then { s with err := false, errCode := .noFault, faultCmd := 0 } else s)) ∧
  (∀ (v : Word) (s : State) (k : FaultCode), s.err = false → firstCheck s v = some k →
    issue v s = .next { s with err := true, errCode := k, faultCmd := v }) ∧
  (∀ (v : Word) (s : State), s.err = false → firstCheck s v = none →
    ∃ t, issue v s = .next t ∧ t.err = false ∧ t.errCode = s.errCode ∧ t.faultCmd = s.faultCmd)

/-- 60_exceptions.md rule R252. -/
def Obligations.UnconfiguredBlockFaultsNotConfigured : Prop :=
  ∀ (v : Word) (i : Instr) (s : State), decode v = .command i → i ≠ .configure → i ≠ .clearerr →
    s.err = false → s.cfgValid = false →
    issue v s = .next { s with err := true, errCode := .notConfigured, faultCmd := v }

/-- 60_exceptions.md rules R253 and R254: the faults of CONFIGURE, width first. -/
def Obligations.BadModelFaultsConfigure : Prop :=
  (∀ s : State, s.err = false → s.staging.width.toNat = 0 ∨ s.nw < s.staging.width.toNat →
    exec .configure s = .next { s with err := true, errCode := .badWidth, faultCmd := 1 }) ∧
  (∀ s : State, s.err = false → 1 ≤ s.staging.width.toNat → s.staging.width.toNat ≤ s.nw →
    s.staging.cfg.extractLsb' 2 6 ≠ 0 ∨ s.staging.cfg.extractLsb' 16 48 ≠ 0 ∨
      (s.staging.cfg.extractLsb' 8 8 ≠ 1 ∧ s.staging.cfg.extractLsb' 8 8 ≠ 8 ∧ s.staging.cfg.extractLsb' 8 8 ≠ 16) →
    exec .configure s = .next { s with err := true, errCode := .badCfg, faultCmd := 1 })

/-- 60_exceptions.md rules R255 and R257: the context check, and the lane check of UPDBITS behind it. -/
def Obligations.BadContextAndLanesFault : Prop :=
  (∀ (v : Word) (i : Instr) (c : Nat) (s : State), decode v = .command i → s.ready → contextOf i = some c →
    s.params.nctx ≤ c →
    issue v s = .next { s with err := true, errCode := .badCtx, faultCmd := v }) ∧
  (∀ (v : Word) (c : Nat) (b : Byte) (k : Nat) (s : State), decode v = .command (.updbits c b k) → s.ready →
    c < s.params.nctx → s.active.lanes ≠ 1 →
    issue v s = .next { s with err := true, errCode := .lanes, faultCmd := v })

/-- 60_exceptions.md rule R256: the range checks, in exact arithmetic, whatever the length and whatever DMEM holds. -/
def Obligations.OutOfRangeUpdateFaultsBounds : Prop :=
  (∀ (c : Nat) (s : State), s.ready → c < s.params.nctx →
    s.params.dmemBytes < s.bufBase.toNat + s.bufLen.toNat ∨ s.bufLen.toNat < s.arg0.toNat ∨
      s.bufLen.toNat - s.arg0.toNat < s.arg1.toNat →
    exec (.updbuf c) s = .next { s with err := true, errCode := .bounds, faultCmd := encode (.updbuf c) }) ∧
  (∀ (c : Nat) (s : State), s.ready → c < s.params.nctx →
    s.params.dmemBytes < s.bufBase.toNat + s.bufLen.toNat →
    exec (.updall c) s = .next { s with err := true, errCode := .bounds, faultCmd := encode (.updall c) })

/-- 10_state.md rule R24, on when its flags change: a step that is not a reset never clears CFG_VALID, and clears ERR
only by running CLEARERR; only CONFIGURE sets CFG_VALID. -/
def Obligations.StatusFlagsChangeOnlyAsStated : Prop :=
  ∀ s t : State, (∀ rest, s.pending ≠ .resetInput :: rest) → step s = .next t →
    (s.cfgValid = true → t.cfgValid = true) ∧
    (s.err = true → t.err = false → s.nextCommand = some .clearerr) ∧
    (s.cfgValid = false → t.cfgValid = true → s.nextCommand = some .configure) ∧
    (s.err = false → t.err = true → ∃ v rest, s.pending = cmdWrite s.params v :: rest ∧ t.faultCmd = v)

/-! ### CONFIGURE and its tables (40_control.md, 41_table_builder.md) -/

/-- 40_control.md rules R130, R132 to R134: an accepted CONFIGURE, with everything it changes; all else is unchanged. -/
def Obligations.ConfigureBuildsTheStagedModel : Prop :=
  ∀ s : State, s.err = false → s.stagedLegal →
    ∃ a : ActiveConfig,
      a.w = s.staging.width.toNat ∧
      a.apoly = s.staging.poly &&& mask a.w ∧
      a.ainit = s.staging.init &&& mask a.w ∧
      a.axor = s.staging.xorOut &&& mask a.w ∧
      a.refIn = s.staging.cfg.getLsbD 0 ∧
      a.refOut = s.staging.cfg.getLsbD 1 ∧
      a.lanes = (s.staging.cfg.extractLsb' 8 8).toNat ∧
      exec .configure s = .next { s with
        cfgValid := true
        active := a
        tables := buildLaneTables s.nw (epoly s.nw a) a.refIn a.lanes
        field := buildFieldContext a
        acc := List.replicate s.params.nctx (resetValue s.nw a) }

/-- 40_control.md rule R135: a CONFIGURE that faults changes nothing but the fault state, so a configured block stays
configured with the old model. -/
def Obligations.FailedConfigureKeepsTheOldModel : Prop :=
  ∀ s : State, s.err = false → ¬ s.stagedLegal →
    ∃ k, k ≠ FaultCode.noFault ∧
      exec .configure s = .next { s with err := true, errCode := k, faultCmd := 1 }

/-- 41_table_builder.md rule R152: the base table is the byte step of a zero register, and is linear. -/
def Obligations.BaseTableIsByteStepOfZero : Prop :=
  ∀ (nw : Nat) (a : ActiveConfig), nw = 32 ∨ nw = 64 →
    (∀ n : Byte, (baseTable nw (epoly nw a) a.refIn).getD n.toNat 0 =
      byteStep nw a [baseTable nw (epoly nw a) a.refIn] 0 n) ∧
    (baseTable nw (epoly nw a) a.refIn).getD 0 0 = 0 ∧
    (∀ m n : Byte, (baseTable nw (epoly nw a) a.refIn).getD (m ^^^ n).toNat 0 =
      (baseTable nw (epoly nw a) a.refIn).getD m.toNat 0 ^^^ (baseTable nw (epoly nw a) a.refIn).getD n.toNat 0)

/-- 41_table_builder.md rule R154: lane table `k` is the effect of a byte followed by `k` zero bytes, and is linear. -/
def Obligations.LaneTableIsTrailingZeroBytes : Prop :=
  ∀ (nw : Nat) (a : ActiveConfig) (k : Nat), nw = 32 ∨ nw = 64 → k < a.lanes →
    let t0 := baseTable nw (epoly nw a) a.refIn
    let tables := buildLaneTables nw (epoly nw a) a.refIn a.lanes
    (∀ n : Byte, tableEntry tables k n.toNat = (foldZero nw a.refIn t0)^[k] (t0.getD n.toNat 0)) ∧
    (∀ n : Byte, tableEntry tables k n.toNat = (fun v => byteStep nw a tables v 0)^[k] (byteStep nw a tables 0 n)) ∧
    (∀ v : Word, isBits nw v = true → foldZero nw a.refIn t0 v = byteStep nw a tables v 0) ∧
    tableEntry tables k 0 = 0 ∧
    (∀ m n : Byte, tableEntry tables k (m ^^^ n).toNat = tableEntry tables k m.toNat ^^^ tableEntry tables k n.toNat)

/-- 41_table_builder.md rule R155: the tables depend on `EP`, `AREFIN` and `L` only, and those for 8 lanes are the first
8 of those for 16. -/
def Obligations.TablesDependOnPolynomialAndLanesOnly : Prop :=
  (∀ (s t : State) (a b : ActiveConfig), s.nw = t.nw → epoly s.nw a = epoly t.nw b → a.refIn = b.refIn →
    a.lanes = b.lanes → (s.configured a).tables = (t.configured b).tables) ∧
  (∀ (nw : Nat) (ep : Word) (refIn : Bool),
    buildLaneTables nw ep refIn 8 = (buildLaneTables nw ep refIn 16).take 8) ∧
  (∀ (nw : Nat) (ep : Word) (refIn : Bool) (l : Nat), 1 ≤ l →
    (buildLaneTables nw ep refIn l).head? = some (baseTable nw ep refIn))

/-- 10_state.md rules R39 and R40: the XPOW and TABLE windows, at their offsets. -/
def Obligations.WindowsReadTheInternalStorage : Prop :=
  (∀ i : Nat, i < 64 → regAt (0x400 + 8 * i) = .xpow i) ∧
  (∀ k n : Nat, k < 16 → n < 256 → regAt (0x8000 + 8 * (256 * k + n)) = .table k n) ∧
  (∀ (s : State) (i : Nat), i < 64 →
    readReg (.xpow i) s = if s.cfgValid = true then s.field.xpow.getD i 0 else 0) ∧
  (∀ (s : State) (k n : Nat), k < 16 → n < 256 →
    readReg (.table k n) s = if s.cfgValid = true ∧ k < s.active.lanes then tableEntry s.tables k n else 0) ∧
  (∀ (s : State) (v : Word) (i k n : Nat), writeReg (.xpow i) v s = .next s ∧ writeReg (.table k n) v s = .next s)

/-! ### Engine commands (42_crc_engine.md) -/

/-- 42_crc_engine.md rules R172, R174, R176: RESET, UPDB and UPDBITS complete in a ready block with a context that
exists (UPDBITS on one lane), write that context and nothing else. -/
def Obligations.ImmediateUpdatesWriteTheirContext : Prop :=
  (∀ (s : State) (c : Nat), s.ready → c < s.params.nctx →
    exec (.reset c) s = .next { s with
      acc := s.acc.set c (if s.active.refIn = true then bitrev s.nw (shl s.nw s.active.ainit (s.nw - s.active.w))
        else shl s.nw s.active.ainit (s.nw - s.active.w)) }) ∧
  (∀ (s : State) (c : Nat) (b : Byte), s.ready → c < s.params.nctx →
    exec (.updb c b) s = .next { s with
      acc := s.acc.set c (if s.active.refIn = true then
          tableEntry s.tables 0 (lowByte (s.readAcc c) ^^^ b).toNat ^^^ (s.readAcc c >>> 8)
        else tableEntry s.tables 0 (lowByte (s.readAcc c >>> (s.nw - 8)) ^^^ b).toNat ^^^ shl s.nw (s.readAcc c) 8) }) ∧
  (∀ (s : State) (c : Nat) (v : Byte) (k : Nat), s.ready → c < s.params.nctx → s.active.lanes = 1 →
    exec (.updbits c v k) s = .next { s with
      acc := s.acc.set c ((if s.active.refIn = true then (List.range k).map fun i => v.getLsbD i
        else (List.range k).reverse.map fun i => v.getLsbD i).foldl (bitStep s.nw s.active) (s.readAcc c)) })

/-- 42_crc_engine.md rules R177 and R178: UPDBUF and UPDALL complete in a ready block with a context that exists and a
range in bounds, consume the bytes of the range in ascending order, write their context and nothing else; UPDALL is
UPDBUF with offset 0 and length BUF_LEN. -/
def Obligations.RangeUpdatesConsumeTheirBytes : Prop :=
  (∀ (s : State) (c : Nat), s.ready → c < s.params.nctx →
    s.bufBase.toNat + s.bufLen.toNat ≤ s.params.dmemBytes → s.arg0.toNat ≤ s.bufLen.toNat →
    s.arg1.toNat ≤ s.bufLen.toNat - s.arg0.toNat →
    exec (.updbuf c) s = .next { s with
      acc := s.acc.set c (updateRange s.nw s.active s.tables (s.readAcc c)
        ((List.range s.arg1.toNat).map fun j => s.memRead (s.bufBase.toNat + s.arg0.toNat + j))) }) ∧
  (∀ (s : State) (c : Nat), s.ready → c < s.params.nctx →
    s.bufBase.toNat + s.bufLen.toNat ≤ s.params.dmemBytes →
    exec (.updall c) s = .next { s with
      acc := s.acc.set c (updateRange s.nw s.active s.tables (s.readAcc c)
        ((List.range s.bufLen.toNat).map fun j => s.memRead (s.bufBase.toNat + j))) } ∧
    exec (.updall c) s = mapNext (fun t => { t with arg0 := s.arg0, arg1 := s.arg1 })
      (exec (.updbuf c) { s with arg0 := 0, arg1 := s.bufLen }))

/-- 42_crc_engine.md rule R184: VALUE completes in a ready block with a context that exists, and writes the finalized
checksum to RESULT and nothing else. -/
def Obligations.ValueWritesTheFinalizedChecksum : Prop :=
  ∀ (s : State) (c : Nat), s.ready → c < s.params.nctx →
    exec (.value c) s = .next { s with
      result :=
        let r := (if s.active.refOut = s.active.refIn then s.readAcc c else bitrev s.nw (s.readAcc c)) ^^^
          (if s.active.refOut = true then s.active.axor else shl s.nw s.active.axor (s.nw - s.active.w))
        (if s.active.refOut = false then r >>> (s.nw - s.active.w) else r) &&& mask s.active.w }

/-- 42_crc_engine.md rule R185: VALUE changes only RESULT, its result is a function of the context and the active
configuration, and an update after it continues from the unfinalized register. -/
def Obligations.ValueIsStableAndPure : Prop :=
  ∀ (s t : State) (c : Nat), s.ready → c < s.params.nctx → exec (.value c) s = .next t →
    t = { s with result := t.result } ∧
    (∀ t' u : State, t'.ready → t'.params = s.params → t'.active = s.active → t'.readAcc c = s.readAcc c →
      exec (.value c) t' = .next u → u.result = t.result) ∧
    (∀ (i : Instr), isUpdateOf c i = true →
      exec i t = mapNext (fun u => { u with result := t.result }) (exec i s))

/-- 42_crc_engine.md rule R175: a byte step is eight bit steps over the byte's bits in message bit order. -/
def Obligations.ByteStepIsEightBitSteps : Prop :=
  ∀ (nw : Nat) (a : ActiveConfig) (tables : List (List Word)) (acc : Word) (b : Byte),
    nw = 32 ∨ nw = 64 → isBits nw acc = true →
    tables.getD 0 [] = baseTable nw (epoly nw a) a.refIn →
    byteStep nw a tables acc b =
      (if a.refIn = true then [0, 1, 2, 3, 4, 5, 6, 7] else [7, 6, 5, 4, 3, 2, 1, 0]).foldl
        (fun (r : Word) (i : Nat) =>
          if a.refIn = true then (r >>> 1) ^^^ (if r.getLsbD 0 ^^ b.getLsbD i then bitrev nw (epoly nw a) else 0)
          else shl nw r 1 ^^^ (if r.getLsbD (nw - 1) ^^ b.getLsbD i then epoly nw a else 0))
        acc

/-- 42_crc_engine.md rule R183: the engine is bit-exact across lane counts, and the rule's example. -/
def Obligations.LaneCountsAgree : Prop :=
  (∀ (nw : Nat) (a : ActiveConfig) (acc : Word) (bytes : List Byte),
    nw = 32 ∨ nw = 64 → a.Legal nw → isBits nw acc = true →
    (∀ lanes : BitVec 5, lanes = 1 ∨ lanes = 8 ∨ lanes = 16 →
      updateRange nw { a with alanes := lanes } (buildLaneTables nw (epoly nw a) a.refIn lanes.toNat) acc bytes =
        updateRange nw a (buildLaneTables nw (epoly nw a) a.refIn a.lanes) acc bytes) ∧
    updateRange nw a (buildLaneTables nw (epoly nw a) a.refIn a.lanes) acc bytes =
      bytes.foldl (byteStep nw a (buildLaneTables nw (epoly nw a) a.refIn a.lanes)) acc) ∧
  (let tables := buildLaneTables 32 (epoly 32 (crc32 8)) true 8
   let bytes : List Byte := [0x31, 0x32, 0x33, 0x34, 0x35, 0x36, 0x37, 0x38]
   blockStep 32 (crc32 8) tables 0xFFFFFFFF bytes = 0x651F2550 ∧
   bytes.foldl (byteStep 32 (crc32 8) tables) 0xFFFFFFFF = 0x651F2550)

/-- 42_crc_engine.md rule R187: updates of length 0 change nothing, and an out-of-bounds descriptor still faults. -/
def Obligations.ZeroLengthUpdatesChangeNothing : Prop :=
  (∀ (s : State) (c : Nat), s.ready → c < s.params.nctx →
    s.bufBase.toNat + s.bufLen.toNat ≤ s.params.dmemBytes → s.arg0.toNat ≤ s.bufLen.toNat → s.arg1 = 0 →
    exec (.updbuf c) s = .next s) ∧
  (∀ (s : State) (c : Nat), s.ready → c < s.params.nctx →
    s.bufBase.toNat ≤ s.params.dmemBytes → s.bufLen = 0 → exec (.updall c) s = .next s) ∧
  (∀ (s : State) (c : Nat) (v : Byte), s.ready → c < s.params.nctx → s.active.lanes = 1 →
    exec (.updbits c v 0) s = .next s) ∧
  (∀ (s : State) (c : Nat), s.ready → c < s.params.nctx → s.bufLen = 0 →
    s.params.dmemBytes < s.bufBase.toNat →
    exec (.updall c) s = .next { s with err := true, errCode := .bounds, faultCmd := encode (.updall c) }) ∧
  (∀ (s : State) (c : Nat), s.ready → c < s.params.nctx → s.arg1 = 0 →
    s.params.dmemBytes < s.bufBase.toNat + s.bufLen.toNat ∨ s.bufLen.toNat < s.arg0.toNat →
    exec (.updbuf c) s = .next { s with err := true, errCode := .bounds, faultCmd := encode (.updbuf c) })

/-- 42_crc_engine.md rule R188: in every ready block, whatever its contexts hold, RESET performs and gives its context the
value CONFIGURE gives it; RESET followed by updates and VALUE gives the register and RESULT that the same updates and
VALUE give right after a CONFIGURE of that configuration; and the same updates from equal registers give the same in
every state with the same configuration, buffer, operands and DMEM bytes. -/
def Obligations.ResetReplaysAFreshEngine : Prop :=
  (∀ (s u : State) (a : ActiveConfig) (c : Nat), u.ready → u.params = s.params → u.active = a →
    u.acc.length = u.params.nctx → c < u.params.nctx →
    ∃ t, exec (.reset c) u = .next t ∧ t.err = false ∧ t.readAcc c = (s.configured a).readAcc c) ∧
  (∀ (s fresh u t t' : State) (c : Nat) (is : List Instr),
    exec .configure s = .next fresh → fresh.err = false → (∀ i ∈ is, isUpdateOf c i = true) →
    u.ready → u.params = fresh.params → u.active = fresh.active → u.tables = fresh.tables →
    u.acc.length = u.params.nctx → u.bufBase = fresh.bufBase → u.bufLen = fresh.bufLen →
    u.arg0 = fresh.arg0 → u.arg1 = fresh.arg1 → (∀ a, u.memRead a = fresh.memRead a) →
    runCommands (is ++ [.value c]) fresh = .next t → runCommands (.reset c :: is ++ [.value c]) u = .next t' →
    t.err = false →
    t'.err = false ∧ t'.readAcc c = t.readAcc c ∧ t'.result = t.result) ∧
  (∀ (s s' t t' : State) (c : Nat) (is : List Instr),
    (∀ i ∈ is, isUpdateOf c i = true) →
    s'.params = s.params → s'.cfgValid = s.cfgValid → s'.err = s.err → s'.active = s.active →
    s'.tables = s.tables → s'.bufBase = s.bufBase → s'.bufLen = s.bufLen → s'.arg0 = s.arg0 → s'.arg1 = s.arg1 →
    (∀ a, s'.memRead a = s.memRead a) →
    s.acc.length = s.params.nctx → s'.acc.length = s.params.nctx → s'.readAcc c = s.readAcc c →
    runCommands (is ++ [.value c]) s = .next t → runCommands (is ++ [.value c]) s' = .next t' →
    t.err = false →
    t'.err = false ∧ t'.readAcc c = t.readAcc c ∧ t'.result = t.result)

/-- 42_crc_engine.md rule R189: a command on one context neither reads nor writes another, so interleaved commands on
two contexts give each the result it would have alone. -/
def Obligations.ContextsAreIndependent : Prop :=
  (∀ (i : Instr) (c d : Nat) (v : Word) (s : State), contextOf i = some c → d ≠ c →
    exec i (s.setAcc d v) = mapNext (fun t => t.setAcc d v) (exec i s)) ∧
  (∀ (i : Instr) (c d : Nat) (s t : State), contextOf i = some c → d ≠ c → exec i s = .next t →
    t.readAcc d = s.readAcc d) ∧
  (∀ (i j : Instr) (c d : Nat) (s t u u' : State), contextOf i = some c → contextOf j = some d → c ≠ d →
    exec i s = .next t → exec j t = .next u → exec j s = .next u' → t.err = false →
    u.readAcc c = t.readAcc c ∧ u.readAcc d = u'.readAcc d ∧
    (u.err = false → j = .value d → u.result = u'.result))

/-- 42_crc_engine.md rule R171, one step: while the block is configured every context holds, in its place, the
remainder of the message fed to it since its last RESET or CONFIGURE; where that place leaves zeros; and the rule's two
examples. -/
def Obligations.ContextsHoldTheirMessagesRemainder : Prop :=
  (∀ (s t : State) (m : Nat → List Bool), s.Inv → s.holds m → step s = .next t → t.holds (messagesStep m s)) ∧
  (∀ (nw : Nat) (a : ActiveConfig) (reg : Word), nw = 32 ∨ nw = 64 → a.Legal nw →
    (a.refIn = true → isBits a.w (engineRegister nw a reg) = true) ∧
    (a.refIn = false → ∀ i, i < nw - a.w → (engineRegister nw a reg).getLsbD i = false)) ∧
  (let ccittFalse : ActiveConfig :=
    { aw := 16, apoly := 0x1021, ainit := 0xFFFF, axor := 0, refIn := false, refOut := false, alanes := 1 }
   let bzip2 : ActiveConfig :=
    { aw := 32, apoly := 0x04C11DB7, ainit := 0xFFFFFFFF, axor := 0xFFFFFFFF, refIn := false, refOut := false,
      alanes := 1 }
   engineRegister 32 ccittFalse ccittFalse.ainit = 0xFFFF0000 ∧
   engineRegister 64 bzip2 bzip2.ainit = 0xFFFFFFFF00000000)

/-- 42_crc_engine.md rule R186: after any run of host accesses, VALUE on a context writes the bit-serial reference's CRC
of the message fed to that context since its last RESET or CONFIGURE; the rule's check value. -/
def Obligations.ValueIsTheReferenceCrcOfTheMessage : Prop :=
  (∀ (k : Nat) (s t : State) (m : Nat → List Bool) (c : Nat), s.Inv → s.holds m → runSteps k s = .next t →
    t.ready → c < t.params.nctx →
    exec (.value c) t = .next { t with result := refCrc t.active (messagesRun k s m c) }) ∧
  refCrc (crc32 1) (bytesToBits true [0x31, 0x32, 0x33, 0x34, 0x35, 0x36, 0x37, 0x38, 0x39]) = 0xCBF43926

/-- The pseudo-instruction CRCBUF (30_encoding.md rule R118) computes the reference's CRC of a buffer: five steps after
its accesses become pending.  (The list of pending accesses is the model's own, log entry 4.) -/
def Obligations.CrcbufComputesTheBuffersCrc : Prop :=
  ∀ (s : State) (c : Nat) (base len : Word) (rest : List HostEvent), s.Inv → s.ready → c < s.params.nctx →
    base.toNat + len.toNat ≤ s.params.dmemBytes →
    s.pending = (Line.crcbuf c base len).events s.params ++ rest →
    ∃ t, runSteps 5 s = .next t ∧ t.err = false ∧ t.pending = rest ∧
      t.result = refCrc s.active (bytesToBits s.active.refIn (s.memBytes base.toNat len.toNat))

/-- The pseudo-instruction MODEL (30_encoding.md rule R117) configures the model it names: six steps after its accesses
become pending, for every width the block accepts and every lane count it has.  (The list of pending accesses is the
model's own, log entry 4.) -/
def Obligations.ModelLineConfiguresTheModel : Prop :=
  ∀ (s : State) (w poly init xorOut lanes : Word) (refIn refOut : Bool) (rest : List HostEvent),
    s.err = false → 1 ≤ w.toNat → w.toNat ≤ s.nw → lanes = 1 ∨ lanes = 8 ∨ lanes = 16 →
    s.pending = (Line.model w poly init refIn refOut xorOut lanes).events s.params ++ rest →
    ∃ t, runSteps 6 s = .next t ∧ t.err = false ∧ t.cfgValid = true ∧ t.pending = rest ∧
      t.active.w = w.toNat ∧ t.active.apoly = poly &&& mask w.toNat ∧ t.active.ainit = init &&& mask w.toNat ∧
      t.active.axor = xorOut &&& mask w.toNat ∧ t.active.refIn = refIn ∧ t.active.refOut = refOut ∧
      t.active.lanes = lanes.toNat ∧
      (∀ c, c < s.params.nctx → t.readAcc c = resetValue s.nw t.active)

/-! ### Width adapter (43_width_adapter.md) -/

/-- 43_width_adapter.md rule R207, its first two points: for a width of at most 32, blocks of both native widths give
the same VALUE for the same messages and the same combiner results. -/
def Obligations.NativeWidthDoesNotChangeResults : Prop :=
  ∀ (s t u v : State) (m : Nat → List Bool) (i : Instr),
    s.params.nw = .nw32 → t.params.nw = .nw64 → s.Inv → t.Inv → s.ready → t.ready → t.active = s.active →
    s.params.nctx = t.params.nctx → s.holds m → t.holds m →
    t.arg0 = s.arg0 → t.arg1 = s.arg1 → t.arg2 = s.arg2 → t.arg3 = s.arg3 →
    (isCombiner i = true ∨ ∃ c, c < s.params.nctx ∧ i = .value c) →
    exec i s = .next u → exec i t = .next v → v.result = u.result ∧ u.err = false ∧ v.err = false

/-- 43_width_adapter.md rule R208: the block's CRC is that of the native model with the polynomial, the initial value and
the XOR mask shifted, its result shifted back when the output is not reflected. -/
def Obligations.AdapterIsAPreShiftedNativeModel : Prop :=
  ∀ (nw : Nat) (a : ActiveConfig) (bits : List Bool), nw = 32 ∨ nw = 64 → a.Legal nw →
    let native : ActiveConfig :=
      { a with aw := BitVec.ofNat 7 nw, apoly := epoly nw a, ainit := einit nw a, axor := exor nw a }
    refCrc a bits = if a.refOut = true then refCrc native bits else refCrc native bits >>> (nw - a.w)

/-! ### Combiner (44_gf2_combiner.md) -/

/-- 44_gf2_combiner.md rules R228 to R233: every combiner command completes in a ready block whatever its operands are
(rule R239), writes RESULT and nothing else. -/
def Obligations.CombinerCommandsWriteResult : Prop :=
  ∀ s : State, s.ready →
    exec .gfmul s = .next { s with
      result := s.gfMul (s.arg0 &&& mask s.active.w) (s.arg1 &&& mask s.active.w) } ∧
    exec .gfxpow s = .next { s with result := s.xPowN s.arg0 } ∧
    exec .combine s = .next { s with
      result := (s.arg1 &&& mask s.active.w) ^^^ s.gfMul (s.arg0 &&& mask s.active.w) (s.xPowN (8 * s.arg2)) } ∧
    exec .chseed s = .next { s with
      result := (s.arg0 &&& mask s.active.w) ^^^
        s.gfMul ((s.arg3 ^^^ s.arg2) &&& mask s.active.w) (s.xPowN (8 * s.arg1)) } ∧
    exec .zeroes s = .next { s with
      result := s.gfMul ((s.arg1 &&& mask s.active.w) ^^^ s.field.canon) (s.xPowN (8 * s.arg0)) ^^^ s.field.canon } ∧
    exec .residue s = .next { s with result := s.field.resk }

/-- 44_gf2_combiner.md rule R221: multiplication is commutative and associative with unit `ONE`, for every polynomial. -/
def Obligations.FieldMultiplicationIsCommutativeMonoid : Prop :=
  ∀ (nw : Nat) (a : ActiveConfig), nw = 32 ∨ nw = 64 → a.Legal nw →
    let mul := gfMul a 0 (polyEnc a)
    (∀ u v, mul u v = mul v u) ∧
    (∀ u v x, mul (mul u v) x = mul u (mul v x)) ∧
    (∀ v, mul (fieldOne a) v = v &&& mask a.w) ∧
    (∀ u v, isBits a.w (mul u v) = true)

/-- 44_gf2_combiner.md rule R224: entry `i` of XPOW is `x^(2^i)`, and the rule's CRC-32 entries. -/
def Obligations.XpowEntriesAreSquaredPowersOfX : Prop :=
  (∀ (nw : Nat) (a : ActiveConfig), nw = 32 ∨ nw = 64 → a.Legal nw →
    (buildFieldContext a).xpow.length = 64 ∧
    (buildFieldContext a).xpow.getD 0 0 = xModP a ∧
    (∀ i, i < 63 → (buildFieldContext a).xpow.getD (i + 1) 0 =
      gfMul a 0 (polyEnc a) ((buildFieldContext a).xpow.getD i 0) ((buildFieldContext a).xpow.getD i 0)) ∧
    (∀ i, i < 64 → (buildFieldContext a).xpow.getD i 0 = timesXPow a (2 ^ i) (fieldOne a))) ∧
  (buildFieldContext (crc32 1)).xpow.take 8 =
    [0x40000000, 0x20000000, 0x08000000, 0x00800000, 0x00008000, 0xEDB88320, 0xB1E6B092, 0xA06A2517] ∧
  (buildFieldContext (crc32 1)).xpow.getD 63 0 = 0xC4E22C3C

/-- 44_gf2_combiner.md rules R225 and R226: `XPowN(n)` is `x^n` for every 64-bit `n`, and the factor of `len` bytes is
`x^(8 * len)` for `len < 2^61` and `x^((8 * len) mod 2^64)` beyond. -/
def Obligations.XPowNIsThePowerOfX : Prop :=
  ∀ (nw : Nat) (a : ActiveConfig), nw = 32 ∨ nw = 64 → a.Legal nw →
    (∀ n : Word, xPowN a (buildFieldContext a) n = timesXPow a n.toNat (fieldOne a)) ∧
    xPowN a (buildFieldContext a) 0 = fieldOne a ∧
    (∀ len : Word, x8N a (buildFieldContext a) len = timesXPow a ((8 * len.toNat) % 2 ^ 64) (fieldOne a)) ∧
    (∀ len : Word, len.toNat < 2 ^ 61 →
      x8N a (buildFieldContext a) len = timesXPow a (8 * len.toNat) (fieldOne a))

/-- 44_gf2_combiner.md rule R216: a finished CRC, taken to combiner encoding, is the combiner-encoded CRC with the start
that the initial register stands for, and the conversion is its own inverse. -/
def Obligations.ValueInCombinerEncoding : Prop :=
  ∀ (nw : Nat) (a : ActiveConfig) (bits : List Bool), nw = 32 ∨ nw = 64 → a.Legal nw →
    valueToCombiner a (refCrc a bits) =
      combinerCrc a (combinerEncode a a.ainit ^^^ canonValue a) bits ∧
    valueToCombiner a (valueToCombiner a (refCrc a bits)) = refCrc a bits

/-- 44_gf2_combiner.md rule R235: combining the CRCs of two messages gives the CRC of their concatenation, for every
split, every start and every model. -/
def Obligations.CombineGivesTheConcatenationsCrc : Prop :=
  ∀ (s : State) (start : Word) (first second : List Byte), s.Inv → s.ready →
    isBits s.active.w start = true → second.length < 2 ^ 61 →
    s.arg0 = combinerCrc s.active start (bytesToBits s.active.refIn first) →
    s.arg1 = combinerCrc s.active 0 (bytesToBits s.active.refIn second) →
    s.arg2 = BitVec.ofNat 64 second.length →
    exec .combine s = .next { s with
      result := combinerCrc s.active start (bytesToBits s.active.refIn (first ++ second)) }

/-- 44_gf2_combiner.md rule R236, for lengths the bus can carry exactly (rule R226): CHSEED gives the CRC the message
would have with the other start, and undoes itself for every CRC and length. -/
def Obligations.ChseedChangesTheStart : Prop :=
  (∀ (s : State) (start start' : Word) (message : List Byte), s.Inv → s.ready →
    isBits s.active.w start = true → isBits s.active.w start' = true → message.length < 2 ^ 61 →
    s.arg0 = combinerCrc s.active start (bytesToBits s.active.refIn message) →
    s.arg1 = BitVec.ofNat 64 message.length → s.arg2 = start → s.arg3 = start' →
    exec .chseed s = .next { s with
      result := combinerCrc s.active start' (bytesToBits s.active.refIn message) }) ∧
  (∀ s t u : State, s.Inv → s.ready → exec .chseed s = .next t →
    exec .chseed { t with arg0 := t.result, arg2 := s.arg3, arg3 := s.arg2 } = .next u →
    u.result = s.arg0 &&& mask s.active.w)

/-- 44_gf2_combiner.md rule R237, for lengths the bus can carry exactly (rule R226): ZEROES gives the CRC of a run of
zero bytes, for every start. -/
def Obligations.ZeroesGivesTheZeroRunsCrc : Prop :=
  ∀ (s : State) (start : Word) (n : Nat), s.Inv → s.ready → isBits s.active.w start = true → n < 2 ^ 61 →
    s.arg0 = BitVec.ofNat 64 n → s.arg1 = start →
    exec .zeroes s = .next { s with
      result := combinerCrc s.active start (bytesToBits s.active.refIn (List.replicate n 0)) }

/-- 44_gf2_combiner.md rule R238: a message with its own CRC appended has the residue constant as its CRC, whatever the
message and the start; for a width that is a multiple of 8 the appended bits are the CRC's bytes, and the rule's bytes for
CRC-32. -/
def Obligations.AppendedCrcGivesTheResidue : Prop :=
  (∀ (s : State) (start : Word) (bits : List Bool), s.Inv → s.ready → isBits s.active.w start = true →
    exec .residue s = .next { s with
      result := combinerCrc s.active start (bits ++ crcBits s.active (combinerCrc s.active start bits)) }) ∧
  (∀ (a : ActiveConfig) (c : Word), a.w % 8 = 0 →
    crcBits a c = bytesToBits a.refIn
      ((if a.refIn = true then List.range (a.w / 8) else (List.range (a.w / 8)).reverse).map fun i =>
        c.extractLsb' (8 * i) 8)) ∧
  crcBits (crc32 1) 0xCBF43926 = bytesToBits true [0x26, 0x39, 0xF4, 0xCB]

/-! ### State, memory and bus (10_state.md, 20_memory.md) -/

/-- 10_state.md rule R34: RESULT is written by VALUE and the combiner commands only, with a w-bit result, and not by a
command that faults; it is read-only to the host and 0 after reset. -/
def Obligations.ResultIsWrittenByItsCommandsOnly : Prop :=
  (∀ (i : Instr) (s t : State), exec i s = .next t →
    ((isCombiner i = false ∧ ∀ c, i ≠ .value c) → t.result = s.result) ∧
    (s.err = false → t.err = true → t.result = s.result) ∧
    (s.Inv → s.ready → t.err = false → (isCombiner i = true ∨ ∃ c, i = .value c) →
      isBits s.active.w t.result = true)) ∧
  regAt 0x78 = .result ∧
  (∀ (s : State) (v : Word), readReg .result s = s.result ∧ writeReg .result v s = .next s) ∧
  (∀ (p : Params) (n : Nat), (State.resetWith p n).result = 0)

/-- 20_memory.md rule R71: no command writes DMEM, and only UPDBUF and UPDALL read it. -/
def Obligations.CommandsOnlyReadDmem : Prop :=
  ∀ (i : Instr) (s : State),
    (∀ t, exec i s = .next t → t.dmem = s.dmem ∧ ∀ a, t.memRead a = s.memRead a) ∧
    ((∀ c, i ≠ .updbuf c ∧ i ≠ .updall c) →
      ∀ d : Memory, exec i { s with dmem := d } = mapNext (fun t => { t with dmem := d }) (exec i s))

/-- 10_state.md rule R33, last sentence, and its like for the staging and buffer registers (30_encoding.md rule R113):
no command writes a register the host writes. -/
def Obligations.CommandsLeaveHostRegisters : Prop :=
  ∀ (i : Instr) (s t : State), exec i s = .next t →
    t.arg0 = s.arg0 ∧ t.arg1 = s.arg1 ∧ t.arg2 = s.arg2 ∧ t.arg3 = s.arg3 ∧
    t.bufBase = s.bufBase ∧ t.bufLen = s.bufLen ∧ t.staging = s.staging ∧ t.params = s.params

/-- 10_state.md rule R43: a staging write changes that register and nothing else (the rest of the state is equal, so no
active field, no table, no field-context entry and no accumulator changes), and no command but CONFIGURE changes the
active configuration, nor CONFIGURE when it faults. -/
def Obligations.StagingWritesChangeOnlyTheirRegister : Prop :=
  (∀ (s : State) (v : Word),
    writeReg .modelWidth v s = .next { s with staging := { s.staging with width := v } } ∧
    writeReg .modelPoly v s = .next { s with staging := { s.staging with poly := v } } ∧
    writeReg .modelInit v s = .next { s with staging := { s.staging with init := v } } ∧
    writeReg .modelXorout v s = .next { s with staging := { s.staging with xorOut := v } } ∧
    writeReg .modelCfg v s = .next { s with staging := { s.staging with cfg := v } }) ∧
  (∀ (i : Instr) (s t : State), exec i s = .next t → i ≠ .configure ∨ t.err = true →
    t.active = s.active ∧ t.cfgValid = s.cfgValid ∧ t.tables = s.tables ∧ t.field = s.field)

/-- 10_state.md rules R22, R23, R24 and R37: the words ID, PARAM, STATUS and ACT_CFG read, field by field, at their
offsets, with the numbers of the fault codes (60_exceptions.md rule R250); writes to them are ignored; and the flags of
STATUS are changed by CONFIGURE, CLEARERR and the fault entry only, as rule R24 says. -/
def Obligations.ReadOnlyWordsHaveTheirFields : Prop :=
  (regAt 0x000 = .id ∧ regAt 0x008 = .param ∧ regAt 0x010 = .status ∧ regAt 0x120 = .actCfg) ∧
  (∀ (s : State) (v : Word), writeReg .id v s = .next s ∧ writeReg .param v s = .next s ∧
    writeReg .status v s = .next s ∧ writeReg .actCfg v s = .next s) ∧
  (∀ (p : Params) (n : Nat), readReg .actCfg (State.resetWith p n) = 0 ∧ readReg .status (State.resetWith p n) = 0) ∧
  (∀ (i : Instr) (s t : State), exec i s = .next t →
    (s.cfgValid = true → t.cfgValid = true) ∧
    (i = .configure → t.err = false → t.cfgValid = true) ∧
    (s.err = true → t.err = false → i = .clearerr) ∧
    (i ≠ .configure → i ≠ .clearerr → (s.err = true ∨ t.err = false) → readReg .status t = readReg .status s)) ∧
  (∀ s : State, s.Inv → s.err = false → (readReg .status s).extractLsb' 8 8 = 0) ∧
  ∀ s : State,
    readReg .id s = 0x0000000143524345 ∧
    (readReg .param s).extractLsb' 0 2 = (match s.params.nw with | .nw32 => 1 | .nw64 => 2) ∧
    ((readReg .param s).extractLsb' 8 4).toNat + 1 = s.params.nctx ∧
    (readReg .param s).extractLsb' 2 6 = 0 ∧ (readReg .param s).extractLsb' 12 20 = 0 ∧
    (s.params.wf = true → ((readReg .param s).extractLsb' 32 32).toNat = s.params.dmemBytes) ∧
    (readReg .status s).getLsbD 0 = s.cfgValid ∧ (readReg .status s).getLsbD 1 = s.err ∧
    (readReg .status s).extractLsb' 8 8 = (match s.errCode with
      | .noFault => 0
      | .illegalCmd => 1
      | .notConfigured => 2
      | .badWidth => 3
      | .badCfg => 4
      | .badCtx => 5
      | .bounds => 6
      | .lanes => 7) ∧
    (readReg .status s).extractLsb' 2 6 = 0 ∧ (readReg .status s).extractLsb' 16 48 = 0 ∧
    (readReg .actCfg s).getLsbD 0 = s.active.refIn ∧ (readReg .actCfg s).getLsbD 1 = s.active.refOut ∧
    ((readReg .actCfg s).extractLsb' 8 8).toNat = s.active.lanes ∧
    (readReg .actCfg s).extractLsb' 2 6 = 0 ∧ (readReg .actCfg s).extractLsb' 16 48 = 0

/-- 10_state.md rules R21 and R42: a host access to an aligned offset of the register space is one to the register that
stands there; the read-write registers, at their offsets, read what was last written, and the buffer and operand
registers (rules R31 to R33) are the state's fields of those names, which the commands read; FAULT_CMD reads the recorded
command (rule R38); CMD reads 0; the read-only registers and the unmapped offsets ignore writes, and the unmapped
offsets read 0 (the bus's answer is the model's own field, log entry 5). -/
def Obligations.RegistersReadBackOrIgnoreWrites : Prop :=
  (regAt 0x018 = .cmd ∧ regAt 0x020 = .modelWidth ∧ regAt 0x028 = .modelPoly ∧ regAt 0x030 = .modelInit ∧
    regAt 0x038 = .modelXorout ∧ regAt 0x040 = .modelCfg ∧ regAt 0x048 = .bufBase ∧ regAt 0x050 = .bufLen ∧
    regAt 0x058 = .arg0 ∧ regAt 0x060 = .arg1 ∧ regAt 0x068 = .arg2 ∧ regAt 0x070 = .arg3 ∧
    regAt 0x128 = .faultCmd) ∧
  (∀ s : State, readReg .faultCmd s = s.faultCmd ∧
    readReg .bufBase s = s.bufBase ∧ readReg .bufLen s = s.bufLen ∧
    readReg .arg0 s = s.arg0 ∧ readReg .arg1 s = s.arg1 ∧ readReg .arg2 s = s.arg2 ∧ readReg .arg3 s = s.arg3) ∧
  (∀ (s : State) (v : Word),
    writeReg .bufBase v s = .next { s with bufBase := v } ∧ writeReg .bufLen v s = .next { s with bufLen := v } ∧
    writeReg .arg0 v s = .next { s with arg0 := v } ∧ writeReg .arg1 v s = .next { s with arg1 := v } ∧
    writeReg .arg2 v s = .next { s with arg2 := v } ∧ writeReg .arg3 v s = .next { s with arg3 := v }) ∧
  (∀ (s : State) (offset : Nat), offset < 0x10000 → offset % 8 = 0 →
    perform (.read (s.params.blockBase + offset) 8) s =
      .next { s with response := .data (readReg (regAt offset) s) } ∧
    ∀ v : Word, perform (.write (s.params.blockBase + offset) 8 v) s =
      writeReg (regAt offset) v { s with response := .written }) ∧
  (∀ (s t : State) (r : Reg) (v : Word),
    r ∈ [Reg.modelWidth, .modelPoly, .modelInit, .modelXorout, .modelCfg, .bufBase, .bufLen, .arg0, .arg1, .arg2,
      .arg3] →
    writeReg r v s = .next t →
    readReg r t = v ∧ ∀ q : Reg, q ≠ r → readReg q t = readReg q s) ∧
  (∀ (s : State) (r : Reg) (v : Word),
    r ∉ [Reg.cmd, .modelWidth, .modelPoly, .modelInit, .modelXorout, .modelCfg, .bufBase, .bufLen, .arg0, .arg1,
      .arg2, .arg3] →
    writeReg r v s = .next s) ∧
  (∀ s : State, readReg .cmd s = 0 ∧ readReg .unmapped s = 0) ∧
  (∀ offset : Nat, offset % 8 = 0 → (0x130 ≤ offset ∧ offset < 0x400) ∨ (0x600 ≤ offset ∧ offset < 0x8000) →
    regAt offset = .unmapped ∧ ∀ p : Params, targetOf p offset 8 = .register .unmapped)

/-- 20_memory.md rules R76, R78 and R79: which accesses raise a bus error, and that one changes nothing (the bus's answer
is the model's own field, log entry 5). -/
def Obligations.BusErrorsChangeNothing : Prop :=
  (∀ (p : Params) (offset width : Nat), targetOf p offset width = .busError ↔
    if offset < 0x10000 then ¬ (width = 8 ∧ offset % 8 = 0)
    else ¬ ((width = 1 ∨ width = 2 ∨ width = 4 ∨ width = 8) ∧ (offset - 0x10000) % width = 0 ∧
      offset - 0x10000 + width ≤ p.dmemBytes)) ∧
  (∀ (s : State) (offset width : Nat) (v : Word), targetOf s.params offset width = .busError →
    perform (.write (s.params.blockBase + offset) width v) s = .next { s with response := .busError } ∧
    perform (.read (s.params.blockBase + offset) width) s = .next { s with response := .busError })

/-- 20_memory.md rule R81: reads have no effect, and a write other than to CMD is idempotent (the bus's answer is the
model's own field, log entry 5). -/
def Obligations.ReadsHaveNoEffectAndWritesAreIdempotent : Prop :=
  (∀ (s t : State) (address width : Nat), perform (.read address width) s = .next t →
    t = { s with response := t.response }) ∧
  (∀ (s t : State) (r : Reg) (v : Word), r ≠ .cmd → writeReg r v s = .next t → writeReg r v t = .next t) ∧
  (∀ (s : State) (a : Nat) (bytes : List Byte), (s.storeBytes a bytes).storeBytes a bytes = s.storeBytes a bytes) ∧
  (∀ (s t : State) (r : Reg) (v : Word), r ≠ .cmd → writeReg r v s = .next t →
    t.acc = s.acc ∧ t.active = s.active ∧ t.tables = s.tables ∧ t.field = s.field ∧ t.result = s.result ∧
    t.dmem = s.dmem ∧ t.cfgValid = s.cfgValid ∧ t.err = s.err ∧ t.errCode = s.errCode ∧ t.faultCmd = s.faultCmd)

/-- 20_memory.md rule R73: a DMEM write moves bytes little-endian, byte by byte and at every width, and every byte outside
the written ones reads as before; a read of every width gives the bytes that stand there, whatever accesses stored them
(the bus's answer is the model's own field, log entry 5, and the value of a narrow write event is log entry 15). -/
def Obligations.DmemAccessesAreLittleEndian : Prop :=
  ∀ (s : State) (a width : Nat) (v : Word), width = 1 ∨ width = 2 ∨ width = 4 ∨ width = 8 → a % width = 0 →
    a + width ≤ s.params.dmemBytes →
    (∃ x : Word, perform (.read (s.params.blockBase + (0x10000 + a)) width) s = .next { s with response := .data x } ∧
      (∀ j, j < width → x.extractLsb' (8 * j) 8 = s.memRead (a + j)) ∧ isBits (8 * width) x = true) ∧
    ∃ t, perform (.write (s.params.blockBase + (0x10000 + a)) width v) s = .next t ∧
      (∀ j, j < width → t.memRead (a + j) = v.extractLsb' (8 * j) 8) ∧
      (∀ x, x < a ∨ a + width ≤ x → t.memRead x = s.memRead x) ∧
      t = { s with dmem := t.dmem, response := .written } ∧
      (∀ j, j < width → perform (.read (s.params.blockBase + (0x10000 + (a + j))) 1) t =
        .next { t with response := .data ((v.extractLsb' (8 * j) 8).setWidth 64) }) ∧
      perform (.read (s.params.blockBase + (0x10000 + a)) width) t =
        .next { t with response := .data (v &&& mask (8 * width)) }

/-- 10_state.md rule R35: the ACC window, and rule R36: the ACT registers, with their values after reset. -/
def Obligations.AccumulatorWindowReadsTheFile : Prop :=
  (∀ c : Nat, c < 16 → regAt (0x80 + 8 * c) = .acc c) ∧
  (∀ (s : State) (c : Nat), c < s.params.nctx → readReg (.acc c) s = s.readAcc c) ∧
  (∀ (s : State) (c : Nat), s.params.nctx ≤ c → readReg (.acc c) s = 0) ∧
  (∀ (s : State) (c : Nat) (v : Word), writeReg (.acc c) v s = .next s) ∧
  (regAt 0x100 = .actWidth ∧ regAt 0x108 = .actPoly ∧ regAt 0x110 = .actInit ∧ regAt 0x118 = .actXorout) ∧
  (∀ (s : State) (v : Word), writeReg .actWidth v s = .next s ∧ writeReg .actPoly v s = .next s ∧
    writeReg .actInit v s = .next s ∧ writeReg .actXorout v s = .next s) ∧
  (∀ p n, (State.resetWith p n).active = .unset ∧ (State.resetWith p n).acc = List.replicate p.nctx 0) ∧
  (∀ s : State, readReg .actWidth s = s.active.aw.setWidth 64 ∧ readReg .actPoly s = s.active.apoly ∧
    readReg .actInit s = s.active.ainit ∧ readReg .actXorout s = s.active.axor)

/-! ### Reset and the invariant (70_reset_and_hazards.md) -/

/-- 70_reset_and_hazards.md rule R281: what the reset input leaves.  Every register but the two constants reads 0, and
DMEM is unspecified: a byte is the free value of its address and of this reset, whatever it held before (how the model
names those free values is its own choice, log entry 3; that the accesses still to come stay is its choice too, log
entry 8). -/
def Obligations.ResetInputLeavesTheResetState : Prop :=
  ∀ (s : State) (rest : List HostEvent), s.pending = .resetInput :: rest →
    ∃ t, step s = .next t ∧
      t.cfgValid = false ∧ t.err = false ∧ t.errCode = .noFault ∧ t.faultCmd = 0 ∧
      t.staging = { width := 0, poly := 0, init := 0, xorOut := 0, cfg := 0 } ∧
      t.bufBase = 0 ∧ t.bufLen = 0 ∧ t.arg0 = 0 ∧ t.arg1 = 0 ∧ t.arg2 = 0 ∧ t.arg3 = 0 ∧ t.result = 0 ∧
      t.active = .unset ∧ t.acc = List.replicate s.params.nctx 0 ∧
      (∀ r : Reg, r ≠ .id → r ≠ .param → readReg r t = 0) ∧
      readReg .id t = 0x0000000143524345 ∧ readReg .param t = readReg .param s ∧
      (∀ a, t.memRead a = Config.freeByte (s.resets + 1) a) ∧
      t.params = s.params ∧ t.pending = rest

/-- The invariant holds right after power-on reset, of the model's parameters (the parameters are the model's choice,
log entry 2) and of every block with legal parameters.  Its clause on an unconfigured block, no tables and a zero field
context, is the model's choice (log entry 10), and so is the canonical memory list (log entry 3). -/
def Obligations.InvariantHoldsAfterReset : Prop :=
  State.reset.Inv ∧ ∀ (p : Params) (n : Nat), p.wf = true → (State.resetWith p n).Inv

/-- Every step keeps the invariant: the parameters stay legal, the tables and the field context stay those of a legal
active configuration, every register stays within its width, a fault is recorded exactly while ERR = 1, and memory keeps
its canonical form below DMEM_BYTES.  The clause on the tables and the field context before CONFIGURE (log entry 10) and
the canonical memory list (log entry 3) are the model's choices. -/
def Obligations.InvariantKeptByEveryStep : Prop :=
  ∀ s t : State, s.Inv → step s = .next t → t.Inv

/-! ### Fault codes (60_exceptions.md rule R250) -/

/-- 60_exceptions.md rule R250: the number of every fault code, and for a value issued to CMD that faults, that the code
recorded is one whose cause holds and whose command the value spells.  No code above 7 is ever read. -/
def Obligations.FaultCodesNameTheirCauses : Prop :=
  (FaultCode.noFault.code = 0 ∧ FaultCode.illegalCmd.code = 1 ∧ FaultCode.notConfigured.code = 2 ∧
    FaultCode.badWidth.code = 3 ∧ FaultCode.badCfg.code = 4 ∧ FaultCode.badCtx.code = 5 ∧
    FaultCode.bounds.code = 6 ∧ FaultCode.lanes.code = 7) ∧
  (∀ s : State, (readReg .status s).extractLsb' 8 8 = s.errCode.code ∧ s.errCode.code.toNat ≤ 7) ∧
  (∀ (v : Word) (s t : State), s.err = false → issue v s = .next t → t.err = true →
    match t.errCode with
    | .noFault => False
    | .illegalCmd => ∀ i, decode v ≠ .command i
    | .notConfigured => s.cfgValid = false ∧ ∃ i, decode v = .command i ∧ i ≠ .configure ∧ i ≠ .clearerr
    | .badWidth => decode v = .command .configure ∧
        (s.staging.width.toNat = 0 ∨ s.nw < s.staging.width.toNat)
    | .badCfg => decode v = .command .configure ∧
        (s.staging.cfg.extractLsb' 2 6 ≠ 0 ∨ s.staging.cfg.extractLsb' 16 48 ≠ 0 ∨
          (s.staging.cfg.extractLsb' 8 8 ≠ 1 ∧ s.staging.cfg.extractLsb' 8 8 ≠ 8 ∧
            s.staging.cfg.extractLsb' 8 8 ≠ 16))
    | .badCtx => ∃ i c, decode v = .command i ∧ contextOf i = some c ∧ s.params.nctx ≤ c
    | .bounds =>
        (∃ c, decode v = .command (.updbuf c) ∧
          (s.params.dmemBytes < s.bufBase.toNat + s.bufLen.toNat ∨ s.bufLen.toNat < s.arg0.toNat ∨
            s.bufLen.toNat - s.arg0.toNat < s.arg1.toNat)) ∨
        (∃ c, decode v = .command (.updall c) ∧ s.params.dmemBytes < s.bufBase.toNat + s.bufLen.toNat)
    | .lanes => ∃ c b k, decode v = .command (.updbits c b k) ∧ s.active.lanes ≠ 1)
end

