-- ==== Sys2Proof/Laws/Bits.lean ====
section
/-!
SUPPORT. Sys2Proof/Laws/Bits.lean: what the bit operations of Machine/Bits.lean do, bit by bit, and that they are
linear over exclusive or.
-/

namespace Sys2Proof.Machine

/-! ### Bit by bit -/

theorem getLsbD_mask (n i : Nat) : (mask n).getLsbD i = (decide (i < 64) && decide (i < n)) := by
  simp [mask, BitVec.getLsbD_ofNat, Nat.testBit_two_pow_sub_one]

theorem getLsbD_shl (n : Nat) (v : Word) (k i : Nat) :
    (shl n v k).getLsbD i = (decide (i < 64) && decide (i < n) && decide (k ≤ i) && v.getLsbD (i - k)) := by
  simp only [shl, BitVec.getLsbD_and, BitVec.getLsbD_shiftLeft, getLsbD_mask]
  by_cases h64 : i < 64
  · by_cases hn : i < n <;> by_cases hk : k ≤ i <;> simp [h64, hn, hk, not_lt.mpr, Nat.lt_of_not_le]
  · simp [h64]

theorem getLsbD_bitrev (n : Nat) (hn : n ≤ 64) (v : Word) (i : Nat) :
    (bitrev n v).getLsbD i = (decide (i < n) && v.getLsbD (n - 1 - i)) := by
  induction n generalizing v i with
  | zero => simp [bitrev]
  | succ n ih =>
    simp only [bitrev, BitVec.getLsbD_or, BitVec.getLsbD_shiftLeft, BitVec.getLsbD_and, ih (by omega),
      BitVec.getLsbD_ushiftRight]
    by_cases h : i < n
    · have h1 : 1 + (n - 1 - i) = n + 1 - 1 - i := by omega
      have h2 : i < n + 1 := by omega
      simp [h, h1, h2]
    · by_cases he : i = n
      · subst he
        have h64 : i < 64 := by omega
        simp [h64]
      · have h2 : ¬ i < n + 1 := by omega
        have h3 : ¬ i - n = 0 := by omega
        simp [h, h2, h3]

theorem isBits_iff (n : Nat) (v : Word) : isBits n v = true ↔ ∀ i, n ≤ i → v.getLsbD i = false := by
  simp only [isBits, decide_eq_true_eq]
  constructor
  · intro h i hi
    exact Nat.testBit_lt_two_pow (lt_of_lt_of_le h (Nat.pow_le_pow_right (by norm_num) hi))
  · intro h
    exact Nat.lt_pow_two_of_testBit _ fun i hi => h i hi

/-! ### Exclusive or -/

theorem shl_xor (n : Nat) (u v : Word) (k : Nat) : shl n (u ^^^ v) k = shl n u k ^^^ shl n v k := by
  apply BitVec.eq_of_getLsbD_eq
  intro i hi
  simp only [getLsbD_shl, BitVec.getLsbD_xor]
  by_cases h1 : i < n <;> by_cases h2 : k ≤ i <;> simp [h1, h2, hi]

theorem shl_zero (n k : Nat) : shl n 0 k = 0 := by
  simp [shl]

theorem bitrev_xor (n : Nat) (hn : n ≤ 64) (u v : Word) : bitrev n (u ^^^ v) = bitrev n u ^^^ bitrev n v := by
  apply BitVec.eq_of_getLsbD_eq
  intro i _
  simp only [getLsbD_bitrev n hn, BitVec.getLsbD_xor]
  by_cases h : i < n <;> simp [h]

theorem and_mask_xor (n : Nat) (u v : Word) : (u ^^^ v) &&& mask n = (u &&& mask n) ^^^ (v &&& mask n) := by
  apply BitVec.eq_of_getLsbD_eq
  intro i hi
  simp only [BitVec.getLsbD_and, BitVec.getLsbD_xor, getLsbD_mask]
  by_cases h : i < n <;> simp [h, hi]

theorem lowByte_xor (u v : Word) : lowByte (u ^^^ v) = lowByte u ^^^ lowByte v := by
  simp [lowByte, BitVec.setWidth_xor]

theorem ushiftRight_xor (u v : Word) (k : Nat) : (u ^^^ v) >>> k = (u >>> k) ^^^ (v >>> k) := by
  apply BitVec.eq_of_getLsbD_eq
  intro i _
  simp

/-! ### n-bit values -/

theorem and_mask_of_isBits (n : Nat) (v : Word) (h : isBits n v = true) : v &&& mask n = v := by
  rw [isBits_iff] at h
  apply BitVec.eq_of_getLsbD_eq
  intro i hi
  simp only [BitVec.getLsbD_and, getLsbD_mask]
  by_cases hn : i < n
  · simp [hn, hi]
  · simp [h i (by omega)]

theorem isBits_xor (n : Nat) (u v : Word) (hu : isBits n u = true) (hv : isBits n v = true) :
    isBits n (u ^^^ v) = true := by
  rw [isBits_iff] at *
  intro i hi
  simp [hu i hi, hv i hi]

theorem isBits_and_mask (n : Nat) (v : Word) : isBits n (v &&& mask n) = true := by
  rw [isBits_iff]
  intro i hi
  have : ¬ i < n := by omega
  simp [getLsbD_mask, this]

theorem isBits_shl (n : Nat) (v : Word) (k : Nat) : isBits n (shl n v k) = true := by
  rw [isBits_iff]
  intro i hi
  have : ¬ i < n := by omega
  simp [getLsbD_shl, this]

theorem isBits_bitrev (n : Nat) (hn : n ≤ 64) (v : Word) : isBits n (bitrev n v) = true := by
  rw [isBits_iff]
  intro i hi
  have : ¬ i < n := by omega
  simp [getLsbD_bitrev n hn, this]

theorem isBits_zero (n : Nat) : isBits n 0 = true := by
  simp [isBits]

theorem isBits_ushiftRight (n : Nat) (v : Word) (k : Nat) (h : isBits n v = true) : isBits n (v >>> k) = true := by
  rw [isBits_iff] at *
  intro i hi
  simp [h (k + i) (by omega)]

theorem isBits_mono (m n : Nat) (hmn : m ≤ n) (v : Word) (h : isBits m v = true) : isBits n v = true := by
  rw [isBits_iff] at *
  exact fun i hi => h i (by omega)

/-- Two n-bit values are equal when their low n bits are. -/
theorem eq_of_isBits (n : Nat) (u v : Word) (hu : isBits n u = true) (hv : isBits n v = true)
    (h : ∀ i, i < n → i < 64 → u.getLsbD i = v.getLsbD i) : u = v := by
  rw [isBits_iff] at hu hv
  apply BitVec.eq_of_getLsbD_eq
  intro i hi
  by_cases hn : i < n
  · exact h i hn hi
  · rw [hu i (by omega), hv i (by omega)]

theorem bitrev_bitrev (n : Nat) (hn : n ≤ 64) (v : Word) : bitrev n (bitrev n v) = v &&& mask n := by
  apply BitVec.eq_of_getLsbD_eq
  intro i hi
  simp only [getLsbD_bitrev n hn, BitVec.getLsbD_and, getLsbD_mask]
  by_cases h : i < n
  · have h1 : n - 1 - i < n := by omega
    have h2 : n - 1 - (n - 1 - i) = i := by omega
    simp [h, h1, h2, hi]
  · simp [h]

end Sys2Proof.Machine
end

