-- ==== Sys2Proof/Laws/State.lean ====
section
/-!
SUPPORT. Sys2Proof/Laws/State.lean: one lemma per field per named update of the state.
-/

namespace Sys2Proof.Machine

/-! ### setAcc -/

@[simp] theorem State.setAcc_params (s : State) (c : Nat) (v : Word) : (s.setAcc c v).params = s.params := rfl
@[simp] theorem State.setAcc_cfgValid (s : State) (c : Nat) (v : Word) : (s.setAcc c v).cfgValid = s.cfgValid := rfl
@[simp] theorem State.setAcc_err (s : State) (c : Nat) (v : Word) : (s.setAcc c v).err = s.err := rfl
@[simp] theorem State.setAcc_errCode (s : State) (c : Nat) (v : Word) : (s.setAcc c v).errCode = s.errCode := rfl
@[simp] theorem State.setAcc_faultCmd (s : State) (c : Nat) (v : Word) : (s.setAcc c v).faultCmd = s.faultCmd := rfl
@[simp] theorem State.setAcc_staging (s : State) (c : Nat) (v : Word) : (s.setAcc c v).staging = s.staging := rfl
@[simp] theorem State.setAcc_bufBase (s : State) (c : Nat) (v : Word) : (s.setAcc c v).bufBase = s.bufBase := rfl
@[simp] theorem State.setAcc_bufLen (s : State) (c : Nat) (v : Word) : (s.setAcc c v).bufLen = s.bufLen := rfl
@[simp] theorem State.setAcc_arg0 (s : State) (c : Nat) (v : Word) : (s.setAcc c v).arg0 = s.arg0 := rfl
@[simp] theorem State.setAcc_arg1 (s : State) (c : Nat) (v : Word) : (s.setAcc c v).arg1 = s.arg1 := rfl
@[simp] theorem State.setAcc_arg2 (s : State) (c : Nat) (v : Word) : (s.setAcc c v).arg2 = s.arg2 := rfl
@[simp] theorem State.setAcc_arg3 (s : State) (c : Nat) (v : Word) : (s.setAcc c v).arg3 = s.arg3 := rfl
@[simp] theorem State.setAcc_result (s : State) (c : Nat) (v : Word) : (s.setAcc c v).result = s.result := rfl
@[simp] theorem State.setAcc_active (s : State) (c : Nat) (v : Word) : (s.setAcc c v).active = s.active := rfl
@[simp] theorem State.setAcc_tables (s : State) (c : Nat) (v : Word) : (s.setAcc c v).tables = s.tables := rfl
@[simp] theorem State.setAcc_field (s : State) (c : Nat) (v : Word) : (s.setAcc c v).field = s.field := rfl
@[simp] theorem State.setAcc_acc (s : State) (c : Nat) (v : Word) : (s.setAcc c v).acc = s.acc.set c v := rfl
@[simp] theorem State.setAcc_dmem (s : State) (c : Nat) (v : Word) : (s.setAcc c v).dmem = s.dmem := rfl
@[simp] theorem State.setAcc_resets (s : State) (c : Nat) (v : Word) : (s.setAcc c v).resets = s.resets := rfl
@[simp] theorem State.setAcc_pending (s : State) (c : Nat) (v : Word) : (s.setAcc c v).pending = s.pending := rfl
@[simp] theorem State.setAcc_response (s : State) (c : Nat) (v : Word) : (s.setAcc c v).response = s.response := rfl

/-! ### setResult -/

@[simp] theorem State.setResult_params (s : State) (v : Word) : (s.setResult v).params = s.params := rfl
@[simp] theorem State.setResult_cfgValid (s : State) (v : Word) : (s.setResult v).cfgValid = s.cfgValid := rfl
@[simp] theorem State.setResult_err (s : State) (v : Word) : (s.setResult v).err = s.err := rfl
@[simp] theorem State.setResult_errCode (s : State) (v : Word) : (s.setResult v).errCode = s.errCode := rfl
@[simp] theorem State.setResult_faultCmd (s : State) (v : Word) : (s.setResult v).faultCmd = s.faultCmd := rfl
@[simp] theorem State.setResult_staging (s : State) (v : Word) : (s.setResult v).staging = s.staging := rfl
@[simp] theorem State.setResult_bufBase (s : State) (v : Word) : (s.setResult v).bufBase = s.bufBase := rfl
@[simp] theorem State.setResult_bufLen (s : State) (v : Word) : (s.setResult v).bufLen = s.bufLen := rfl
@[simp] theorem State.setResult_arg0 (s : State) (v : Word) : (s.setResult v).arg0 = s.arg0 := rfl
@[simp] theorem State.setResult_arg1 (s : State) (v : Word) : (s.setResult v).arg1 = s.arg1 := rfl
@[simp] theorem State.setResult_arg2 (s : State) (v : Word) : (s.setResult v).arg2 = s.arg2 := rfl
@[simp] theorem State.setResult_arg3 (s : State) (v : Word) : (s.setResult v).arg3 = s.arg3 := rfl
@[simp] theorem State.setResult_result (s : State) (v : Word) : (s.setResult v).result = v := rfl
@[simp] theorem State.setResult_active (s : State) (v : Word) : (s.setResult v).active = s.active := rfl
@[simp] theorem State.setResult_tables (s : State) (v : Word) : (s.setResult v).tables = s.tables := rfl
@[simp] theorem State.setResult_field (s : State) (v : Word) : (s.setResult v).field = s.field := rfl
@[simp] theorem State.setResult_acc (s : State) (v : Word) : (s.setResult v).acc = s.acc := rfl
@[simp] theorem State.setResult_dmem (s : State) (v : Word) : (s.setResult v).dmem = s.dmem := rfl
@[simp] theorem State.setResult_resets (s : State) (v : Word) : (s.setResult v).resets = s.resets := rfl
@[simp] theorem State.setResult_pending (s : State) (v : Word) : (s.setResult v).pending = s.pending := rfl
@[simp] theorem State.setResult_response (s : State) (v : Word) : (s.setResult v).response = s.response := rfl

/-! ### takeFault -/

@[simp] theorem State.takeFault_params (s : State) (k : FaultCode) (v : Word) : (s.takeFault k v).params = s.params := rfl
@[simp] theorem State.takeFault_cfgValid (s : State) (k : FaultCode) (v : Word) : (s.takeFault k v).cfgValid = s.cfgValid := rfl
@[simp] theorem State.takeFault_err (s : State) (k : FaultCode) (v : Word) : (s.takeFault k v).err = true := rfl
@[simp] theorem State.takeFault_errCode (s : State) (k : FaultCode) (v : Word) : (s.takeFault k v).errCode = k := rfl
@[simp] theorem State.takeFault_faultCmd (s : State) (k : FaultCode) (v : Word) : (s.takeFault k v).faultCmd = v := rfl
@[simp] theorem State.takeFault_staging (s : State) (k : FaultCode) (v : Word) : (s.takeFault k v).staging = s.staging := rfl
@[simp] theorem State.takeFault_bufBase (s : State) (k : FaultCode) (v : Word) : (s.takeFault k v).bufBase = s.bufBase := rfl
@[simp] theorem State.takeFault_bufLen (s : State) (k : FaultCode) (v : Word) : (s.takeFault k v).bufLen = s.bufLen := rfl
@[simp] theorem State.takeFault_arg0 (s : State) (k : FaultCode) (v : Word) : (s.takeFault k v).arg0 = s.arg0 := rfl
@[simp] theorem State.takeFault_arg1 (s : State) (k : FaultCode) (v : Word) : (s.takeFault k v).arg1 = s.arg1 := rfl
@[simp] theorem State.takeFault_arg2 (s : State) (k : FaultCode) (v : Word) : (s.takeFault k v).arg2 = s.arg2 := rfl
@[simp] theorem State.takeFault_arg3 (s : State) (k : FaultCode) (v : Word) : (s.takeFault k v).arg3 = s.arg3 := rfl
@[simp] theorem State.takeFault_result (s : State) (k : FaultCode) (v : Word) : (s.takeFault k v).result = s.result := rfl
@[simp] theorem State.takeFault_active (s : State) (k : FaultCode) (v : Word) : (s.takeFault k v).active = s.active := rfl
@[simp] theorem State.takeFault_tables (s : State) (k : FaultCode) (v : Word) : (s.takeFault k v).tables = s.tables := rfl
@[simp] theorem State.takeFault_field (s : State) (k : FaultCode) (v : Word) : (s.takeFault k v).field = s.field := rfl
@[simp] theorem State.takeFault_acc (s : State) (k : FaultCode) (v : Word) : (s.takeFault k v).acc = s.acc := rfl
@[simp] theorem State.takeFault_dmem (s : State) (k : FaultCode) (v : Word) : (s.takeFault k v).dmem = s.dmem := rfl
@[simp] theorem State.takeFault_resets (s : State) (k : FaultCode) (v : Word) : (s.takeFault k v).resets = s.resets := rfl
@[simp] theorem State.takeFault_pending (s : State) (k : FaultCode) (v : Word) : (s.takeFault k v).pending = s.pending := rfl
@[simp] theorem State.takeFault_response (s : State) (k : FaultCode) (v : Word) : (s.takeFault k v).response = s.response := rfl

/-! ### clearFault -/

@[simp] theorem State.clearFault_params (s : State) : s.clearFault.params = s.params := rfl
@[simp] theorem State.clearFault_cfgValid (s : State) : s.clearFault.cfgValid = s.cfgValid := rfl
@[simp] theorem State.clearFault_err (s : State) : s.clearFault.err = false := rfl
@[simp] theorem State.clearFault_errCode (s : State) : s.clearFault.errCode = .noFault := rfl
@[simp] theorem State.clearFault_faultCmd (s : State) : s.clearFault.faultCmd = 0 := rfl
@[simp] theorem State.clearFault_staging (s : State) : s.clearFault.staging = s.staging := rfl
@[simp] theorem State.clearFault_bufBase (s : State) : s.clearFault.bufBase = s.bufBase := rfl
@[simp] theorem State.clearFault_bufLen (s : State) : s.clearFault.bufLen = s.bufLen := rfl
@[simp] theorem State.clearFault_arg0 (s : State) : s.clearFault.arg0 = s.arg0 := rfl
@[simp] theorem State.clearFault_arg1 (s : State) : s.clearFault.arg1 = s.arg1 := rfl
@[simp] theorem State.clearFault_arg2 (s : State) : s.clearFault.arg2 = s.arg2 := rfl
@[simp] theorem State.clearFault_arg3 (s : State) : s.clearFault.arg3 = s.arg3 := rfl
@[simp] theorem State.clearFault_result (s : State) : s.clearFault.result = s.result := rfl
@[simp] theorem State.clearFault_active (s : State) : s.clearFault.active = s.active := rfl
@[simp] theorem State.clearFault_tables (s : State) : s.clearFault.tables = s.tables := rfl
@[simp] theorem State.clearFault_field (s : State) : s.clearFault.field = s.field := rfl
@[simp] theorem State.clearFault_acc (s : State) : s.clearFault.acc = s.acc := rfl
@[simp] theorem State.clearFault_dmem (s : State) : s.clearFault.dmem = s.dmem := rfl
@[simp] theorem State.clearFault_resets (s : State) : s.clearFault.resets = s.resets := rfl
@[simp] theorem State.clearFault_pending (s : State) : s.clearFault.pending = s.pending := rfl
@[simp] theorem State.clearFault_response (s : State) : s.clearFault.response = s.response := rfl

/-! ### storeBytes -/

@[simp] theorem State.storeBytes_params (s : State) (a : Nat) (bytes : List Byte) : (s.storeBytes a bytes).params = s.params := rfl
@[simp] theorem State.storeBytes_cfgValid (s : State) (a : Nat) (bytes : List Byte) : (s.storeBytes a bytes).cfgValid = s.cfgValid := rfl
@[simp] theorem State.storeBytes_err (s : State) (a : Nat) (bytes : List Byte) : (s.storeBytes a bytes).err = s.err := rfl
@[simp] theorem State.storeBytes_errCode (s : State) (a : Nat) (bytes : List Byte) : (s.storeBytes a bytes).errCode = s.errCode := rfl
@[simp] theorem State.storeBytes_faultCmd (s : State) (a : Nat) (bytes : List Byte) : (s.storeBytes a bytes).faultCmd = s.faultCmd := rfl
@[simp] theorem State.storeBytes_staging (s : State) (a : Nat) (bytes : List Byte) : (s.storeBytes a bytes).staging = s.staging := rfl
@[simp] theorem State.storeBytes_bufBase (s : State) (a : Nat) (bytes : List Byte) : (s.storeBytes a bytes).bufBase = s.bufBase := rfl
@[simp] theorem State.storeBytes_bufLen (s : State) (a : Nat) (bytes : List Byte) : (s.storeBytes a bytes).bufLen = s.bufLen := rfl
@[simp] theorem State.storeBytes_arg0 (s : State) (a : Nat) (bytes : List Byte) : (s.storeBytes a bytes).arg0 = s.arg0 := rfl
@[simp] theorem State.storeBytes_arg1 (s : State) (a : Nat) (bytes : List Byte) : (s.storeBytes a bytes).arg1 = s.arg1 := rfl
@[simp] theorem State.storeBytes_arg2 (s : State) (a : Nat) (bytes : List Byte) : (s.storeBytes a bytes).arg2 = s.arg2 := rfl
@[simp] theorem State.storeBytes_arg3 (s : State) (a : Nat) (bytes : List Byte) : (s.storeBytes a bytes).arg3 = s.arg3 := rfl
@[simp] theorem State.storeBytes_result (s : State) (a : Nat) (bytes : List Byte) : (s.storeBytes a bytes).result = s.result := rfl
@[simp] theorem State.storeBytes_active (s : State) (a : Nat) (bytes : List Byte) : (s.storeBytes a bytes).active = s.active := rfl
@[simp] theorem State.storeBytes_tables (s : State) (a : Nat) (bytes : List Byte) : (s.storeBytes a bytes).tables = s.tables := rfl
@[simp] theorem State.storeBytes_field (s : State) (a : Nat) (bytes : List Byte) : (s.storeBytes a bytes).field = s.field := rfl
@[simp] theorem State.storeBytes_acc (s : State) (a : Nat) (bytes : List Byte) : (s.storeBytes a bytes).acc = s.acc := rfl
@[simp] theorem State.storeBytes_dmem (s : State) (a : Nat) (bytes : List Byte) : (s.storeBytes a bytes).dmem = s.dmem.writeAll a bytes := rfl
@[simp] theorem State.storeBytes_resets (s : State) (a : Nat) (bytes : List Byte) : (s.storeBytes a bytes).resets = s.resets := rfl
@[simp] theorem State.storeBytes_pending (s : State) (a : Nat) (bytes : List Byte) : (s.storeBytes a bytes).pending = s.pending := rfl
@[simp] theorem State.storeBytes_response (s : State) (a : Nat) (bytes : List Byte) : (s.storeBytes a bytes).response = s.response := rfl

/-! ### respond -/

@[simp] theorem State.respond_params (s : State) (r : BusResponse) : (s.respond r).params = s.params := rfl
@[simp] theorem State.respond_cfgValid (s : State) (r : BusResponse) : (s.respond r).cfgValid = s.cfgValid := rfl
@[simp] theorem State.respond_err (s : State) (r : BusResponse) : (s.respond r).err = s.err := rfl
@[simp] theorem State.respond_errCode (s : State) (r : BusResponse) : (s.respond r).errCode = s.errCode := rfl
@[simp] theorem State.respond_faultCmd (s : State) (r : BusResponse) : (s.respond r).faultCmd = s.faultCmd := rfl
@[simp] theorem State.respond_staging (s : State) (r : BusResponse) : (s.respond r).staging = s.staging := rfl
@[simp] theorem State.respond_bufBase (s : State) (r : BusResponse) : (s.respond r).bufBase = s.bufBase := rfl
@[simp] theorem State.respond_bufLen (s : State) (r : BusResponse) : (s.respond r).bufLen = s.bufLen := rfl
@[simp] theorem State.respond_arg0 (s : State) (r : BusResponse) : (s.respond r).arg0 = s.arg0 := rfl
@[simp] theorem State.respond_arg1 (s : State) (r : BusResponse) : (s.respond r).arg1 = s.arg1 := rfl
@[simp] theorem State.respond_arg2 (s : State) (r : BusResponse) : (s.respond r).arg2 = s.arg2 := rfl
@[simp] theorem State.respond_arg3 (s : State) (r : BusResponse) : (s.respond r).arg3 = s.arg3 := rfl
@[simp] theorem State.respond_result (s : State) (r : BusResponse) : (s.respond r).result = s.result := rfl
@[simp] theorem State.respond_active (s : State) (r : BusResponse) : (s.respond r).active = s.active := rfl
@[simp] theorem State.respond_tables (s : State) (r : BusResponse) : (s.respond r).tables = s.tables := rfl
@[simp] theorem State.respond_field (s : State) (r : BusResponse) : (s.respond r).field = s.field := rfl
@[simp] theorem State.respond_acc (s : State) (r : BusResponse) : (s.respond r).acc = s.acc := rfl
@[simp] theorem State.respond_dmem (s : State) (r : BusResponse) : (s.respond r).dmem = s.dmem := rfl
@[simp] theorem State.respond_resets (s : State) (r : BusResponse) : (s.respond r).resets = s.resets := rfl
@[simp] theorem State.respond_pending (s : State) (r : BusResponse) : (s.respond r).pending = s.pending := rfl
@[simp] theorem State.respond_response (s : State) (r : BusResponse) : (s.respond r).response = r := rfl

/-! ### configured -/

@[simp] theorem State.configured_params (s : State) (a : ActiveConfig) : (s.configured a).params = s.params := rfl
@[simp] theorem State.configured_cfgValid (s : State) (a : ActiveConfig) : (s.configured a).cfgValid = true := rfl
@[simp] theorem State.configured_err (s : State) (a : ActiveConfig) : (s.configured a).err = s.err := rfl
@[simp] theorem State.configured_errCode (s : State) (a : ActiveConfig) : (s.configured a).errCode = s.errCode := rfl
@[simp] theorem State.configured_faultCmd (s : State) (a : ActiveConfig) : (s.configured a).faultCmd = s.faultCmd := rfl
@[simp] theorem State.configured_staging (s : State) (a : ActiveConfig) : (s.configured a).staging = s.staging := rfl
@[simp] theorem State.configured_bufBase (s : State) (a : ActiveConfig) : (s.configured a).bufBase = s.bufBase := rfl
@[simp] theorem State.configured_bufLen (s : State) (a : ActiveConfig) : (s.configured a).bufLen = s.bufLen := rfl
@[simp] theorem State.configured_arg0 (s : State) (a : ActiveConfig) : (s.configured a).arg0 = s.arg0 := rfl
@[simp] theorem State.configured_arg1 (s : State) (a : ActiveConfig) : (s.configured a).arg1 = s.arg1 := rfl
@[simp] theorem State.configured_arg2 (s : State) (a : ActiveConfig) : (s.configured a).arg2 = s.arg2 := rfl
@[simp] theorem State.configured_arg3 (s : State) (a : ActiveConfig) : (s.configured a).arg3 = s.arg3 := rfl
@[simp] theorem State.configured_result (s : State) (a : ActiveConfig) : (s.configured a).result = s.result := rfl
@[simp] theorem State.configured_active (s : State) (a : ActiveConfig) : (s.configured a).active = a := rfl
@[simp] theorem State.configured_tables (s : State) (a : ActiveConfig) : (s.configured a).tables = buildLaneTables s.nw (epoly s.nw a) a.refIn a.lanes := rfl
@[simp] theorem State.configured_field (s : State) (a : ActiveConfig) : (s.configured a).field = buildFieldContext a := rfl
@[simp] theorem State.configured_acc (s : State) (a : ActiveConfig) : (s.configured a).acc = List.replicate s.params.nctx (resetValue s.nw a) := rfl
@[simp] theorem State.configured_dmem (s : State) (a : ActiveConfig) : (s.configured a).dmem = s.dmem := rfl
@[simp] theorem State.configured_resets (s : State) (a : ActiveConfig) : (s.configured a).resets = s.resets := rfl
@[simp] theorem State.configured_pending (s : State) (a : ActiveConfig) : (s.configured a).pending = s.pending := rfl
@[simp] theorem State.configured_response (s : State) (a : ActiveConfig) : (s.configured a).response = s.response := rfl

/-! ### afterReset -/

@[simp] theorem State.afterReset_params (s : State) : s.afterReset.params = s.params := rfl
@[simp] theorem State.afterReset_cfgValid (s : State) : s.afterReset.cfgValid = false := rfl
@[simp] theorem State.afterReset_err (s : State) : s.afterReset.err = false := rfl
@[simp] theorem State.afterReset_errCode (s : State) : s.afterReset.errCode = .noFault := rfl
@[simp] theorem State.afterReset_faultCmd (s : State) : s.afterReset.faultCmd = 0 := rfl
@[simp] theorem State.afterReset_staging (s : State) : s.afterReset.staging = { width := 0, poly := 0, init := 0, xorOut := 0, cfg := 0 } := rfl
@[simp] theorem State.afterReset_bufBase (s : State) : s.afterReset.bufBase = 0 := rfl
@[simp] theorem State.afterReset_bufLen (s : State) : s.afterReset.bufLen = 0 := rfl
@[simp] theorem State.afterReset_arg0 (s : State) : s.afterReset.arg0 = 0 := rfl
@[simp] theorem State.afterReset_arg1 (s : State) : s.afterReset.arg1 = 0 := rfl
@[simp] theorem State.afterReset_arg2 (s : State) : s.afterReset.arg2 = 0 := rfl
@[simp] theorem State.afterReset_arg3 (s : State) : s.afterReset.arg3 = 0 := rfl
@[simp] theorem State.afterReset_result (s : State) : s.afterReset.result = 0 := rfl
@[simp] theorem State.afterReset_active (s : State) : s.afterReset.active = .unset := rfl
@[simp] theorem State.afterReset_tables (s : State) : s.afterReset.tables = [] := rfl
@[simp] theorem State.afterReset_field (s : State) : s.afterReset.field = .unbuilt := rfl
@[simp] theorem State.afterReset_acc (s : State) : s.afterReset.acc = List.replicate s.params.nctx 0 := rfl
@[simp] theorem State.afterReset_dmem (s : State) : s.afterReset.dmem = [] := rfl
@[simp] theorem State.afterReset_resets (s : State) : s.afterReset.resets = s.resets + 1 := rfl
@[simp] theorem State.afterReset_pending (s : State) : s.afterReset.pending = s.pending := rfl
@[simp] theorem State.afterReset_response (s : State) : s.afterReset.response = .idle := rfl

/-! ### What is computed from fields an update keeps -/

@[simp] theorem State.setAcc_nw (s : State) (c : Nat) (v : Word) : (s.setAcc c v).nw = s.nw := rfl
@[simp] theorem State.setResult_nw (s : State) (v : Word) : (s.setResult v).nw = s.nw := rfl
@[simp] theorem State.takeFault_nw (s : State) (k : FaultCode) (v : Word) : (s.takeFault k v).nw = s.nw := rfl
@[simp] theorem State.clearFault_nw (s : State) : s.clearFault.nw = s.nw := rfl
@[simp] theorem State.storeBytes_nw (s : State) (a : Nat) (bytes : List Byte) : (s.storeBytes a bytes).nw = s.nw := rfl
@[simp] theorem State.respond_nw (s : State) (r : BusResponse) : (s.respond r).nw = s.nw := rfl
@[simp] theorem State.configured_nw (s : State) (a : ActiveConfig) : (s.configured a).nw = s.nw := rfl
@[simp] theorem State.afterReset_nw (s : State) : s.afterReset.nw = s.nw := rfl
@[simp] theorem State.setAcc_memRead (s : State) (c : Nat) (v : Word) (x : Nat) : (s.setAcc c v).memRead x = s.memRead x := rfl
@[simp] theorem State.setAcc_memBytes (s : State) (c : Nat) (v : Word) (x n : Nat) : (s.setAcc c v).memBytes x n = s.memBytes x n := rfl
@[simp] theorem State.setResult_memRead (s : State) (v : Word) (x : Nat) : (s.setResult v).memRead x = s.memRead x := rfl
@[simp] theorem State.setResult_memBytes (s : State) (v : Word) (x n : Nat) : (s.setResult v).memBytes x n = s.memBytes x n := rfl
@[simp] theorem State.takeFault_memRead (s : State) (k : FaultCode) (v : Word) (x : Nat) : (s.takeFault k v).memRead x = s.memRead x := rfl
@[simp] theorem State.takeFault_memBytes (s : State) (k : FaultCode) (v : Word) (x n : Nat) : (s.takeFault k v).memBytes x n = s.memBytes x n := rfl
@[simp] theorem State.clearFault_memRead (s : State) (x : Nat) : s.clearFault.memRead x = s.memRead x := rfl
@[simp] theorem State.clearFault_memBytes (s : State) (x n : Nat) : s.clearFault.memBytes x n = s.memBytes x n := rfl
@[simp] theorem State.respond_memRead (s : State) (r : BusResponse) (x : Nat) : (s.respond r).memRead x = s.memRead x := rfl
@[simp] theorem State.respond_memBytes (s : State) (r : BusResponse) (x n : Nat) : (s.respond r).memBytes x n = s.memBytes x n := rfl
@[simp] theorem State.configured_memRead (s : State) (a : ActiveConfig) (x : Nat) : (s.configured a).memRead x = s.memRead x := rfl
@[simp] theorem State.configured_memBytes (s : State) (a : ActiveConfig) (x n : Nat) : (s.configured a).memBytes x n = s.memBytes x n := rfl
@[simp] theorem State.setResult_readAcc (s : State) (v : Word) (x : Nat) : (s.setResult v).readAcc x = s.readAcc x := rfl
@[simp] theorem State.takeFault_readAcc (s : State) (k : FaultCode) (v : Word) (x : Nat) : (s.takeFault k v).readAcc x = s.readAcc x := rfl
@[simp] theorem State.clearFault_readAcc (s : State) (x : Nat) : s.clearFault.readAcc x = s.readAcc x := rfl
@[simp] theorem State.storeBytes_readAcc (s : State) (a : Nat) (bytes : List Byte) (x : Nat) : (s.storeBytes a bytes).readAcc x = s.readAcc x := rfl
@[simp] theorem State.respond_readAcc (s : State) (r : BusResponse) (x : Nat) : (s.respond r).readAcc x = s.readAcc x := rfl

theorem State.setAcc_readAcc_same (s : State) (c : Nat) (v : Word) (hc : c < s.acc.length) :
    (s.setAcc c v).readAcc c = v := by
  simp [State.readAcc, List.getD_eq_getElem?_getD, hc]

theorem State.setAcc_readAcc_other (s : State) (c d : Nat) (v : Word) (h : d ≠ c) :
    (s.setAcc c v).readAcc d = s.readAcc d := by
  simp [State.readAcc, List.getD_eq_getElem?_getD, Ne.symm h]

theorem State.configured_readAcc (s : State) (a : ActiveConfig) (c : Nat) (hc : c < s.params.nctx) :
    (s.configured a).readAcc c = resetValue s.nw a := by
  simp [State.readAcc, List.getD_eq_getElem?_getD, hc]

end Sys2Proof.Machine
end

