-- ==== Sys2Proof/Laws/Ops.lean ====
section
/-!
SUPPORT. Sys2Proof/Laws/Ops.lean: what the shared operations do: reading and writing data memory, and running a
command behind its checks.
-/

namespace Sys2Proof.Machine

/-! ### Data memory -/

theorem Memory.read?_write_same (m : Memory) (a : Nat) (b : Byte) : (m.write a b).read? a = some b := by
  induction m with
  | nil => simp [Memory.write, Memory.read?]
  | cons cell rest ih =>
    obtain ⟨k, v⟩ := cell
    simp only [Memory.write]
    split
    · simp [Memory.read?]
    · split
      · next h => simp [Memory.read?, h]
      · next h => simp [Memory.read?, Ne.symm h, ih]

theorem Memory.read?_write_other (m : Memory) (a x : Nat) (b : Byte) (hx : x ≠ a) :
    (m.write a b).read? x = m.read? x := by
  induction m with
  | nil => simp [Memory.write, Memory.read?, Ne.symm hx]
  | cons cell rest ih =>
    obtain ⟨k, v⟩ := cell
    simp only [Memory.write]
    split
    · simp [Memory.read?, Ne.symm hx]
    · split
      · next h => simp [Memory.read?, ← h, Ne.symm hx]
      · simp [Memory.read?, ih]

/-- An address outside the written bytes reads as before. -/
theorem Memory.read?_writeAll_outside (m : Memory) (a x : Nat) (bytes : List Byte)
    (hx : x < a ∨ a + bytes.length ≤ x) : (m.writeAll a bytes).read? x = m.read? x := by
  induction bytes generalizing m a with
  | nil => rfl
  | cons b bs ih =>
    simp only [Memory.writeAll, List.length_cons] at *
    rw [ih _ _ (by omega), Memory.read?_write_other _ _ _ _ (by omega)]

/-- Byte `j` of the written bytes is read at the `j`-th address. -/
theorem Memory.read?_writeAll_inside (m : Memory) (a j : Nat) (bytes : List Byte) (hj : j < bytes.length) :
    (m.writeAll a bytes).read? (a + j) = some bytes[j] := by
  induction bytes generalizing m a j with
  | nil => simp at hj
  | cons b bs ih =>
    simp only [Memory.writeAll]
    cases j with
    | zero => rw [Memory.read?_writeAll_outside _ _ _ _ (by omega)]; simp [Memory.read?_write_same]
    | succ j =>
      rw [show a + (j + 1) = a + 1 + j by omega, ih _ _ _ (by simpa using hj)]
      simp

/-- A memory whose first address is above `bound` keeps that under a write above `bound`. -/
theorem Memory.above_write (bound : Nat) (m : Memory) (a : Nat) (b : Byte) (hm : m.above bound = true)
    (ha : bound < a) : (m.write a b).above bound = true := by
  cases m with
  | nil => simpa [Memory.write, Memory.above] using ha
  | cons cell rest =>
    obtain ⟨k, v⟩ := cell
    have hk : bound < k := by simpa [Memory.above] using hm
    simp only [Memory.write]
    split
    · simp [Memory.above, ha]
    · split <;> simp [Memory.above, hk]

/-- A write keeps the canonical form. -/
theorem Memory.wf_write (m : Memory) (a : Nat) (b : Byte) (hm : m.wf = true) : (m.write a b).wf = true := by
  induction m with
  | nil => simp [Memory.write, Memory.wf, Memory.above]
  | cons cell rest ih =>
    obtain ⟨k, v⟩ := cell
    simp only [Memory.wf, Bool.and_eq_true] at hm
    simp only [Memory.write]
    split
    · next h => simp [Memory.wf, hm.1, hm.2, show Memory.above a ((k, v) :: rest) = true by simp [Memory.above, h]]
    · split
      · simp [Memory.wf, hm.1, hm.2]
      · next h1 h2 =>
        simp only [Memory.wf, Bool.and_eq_true]
        exact ⟨Memory.above_write _ _ _ _ hm.1 (by omega), ih hm.2⟩

/-- A write of several bytes keeps the canonical form. -/
theorem Memory.wf_writeAll (m : Memory) (a : Nat) (bytes : List Byte) (hm : m.wf = true) :
    (m.writeAll a bytes).wf = true := by
  induction bytes generalizing m a with
  | nil => exact hm
  | cons b bs ih => exact ih _ _ (Memory.wf_write _ _ _ hm)

/-- A write below a bound keeps every recorded address below it. -/
theorem Memory.within_write (bound : Nat) (m : Memory) (a : Nat) (b : Byte) (hm : m.within bound = true)
    (ha : a < bound) : (m.write a b).within bound = true := by
  induction m with
  | nil => simpa [Memory.write, Memory.within] using ha
  | cons cell rest ih =>
    obtain ⟨k, v⟩ := cell
    simp only [Memory.within, List.all_cons, Bool.and_eq_true, decide_eq_true_eq] at hm ih
    simp only [Memory.write, Memory.within]
    split
    · simp [ha, hm.1]
      simpa using hm.2
    · split
      · simp [hm.1]
        simpa using hm.2
      · simp only [List.all_cons, Bool.and_eq_true, decide_eq_true_eq]
        exact ⟨hm.1, ih hm.2⟩

/-- A write of several bytes below a bound keeps every recorded address below it. -/
theorem Memory.within_writeAll (bound : Nat) (m : Memory) (a : Nat) (bytes : List Byte)
    (hm : m.within bound = true) (ha : a + bytes.length ≤ bound) : (m.writeAll a bytes).within bound = true := by
  induction bytes generalizing m a with
  | nil => exact hm
  | cons b bs ih =>
    simp only [List.length_cons] at ha
    exact ih _ _ (Memory.within_write _ _ _ _ hm (by omega)) (by omega)

/-- Writing the same byte twice is writing it once. -/
theorem Memory.write_write_same (m : Memory) (a : Nat) (b c : Byte) : (m.write a b).write a c = m.write a c := by
  induction m with
  | nil => simp [Memory.write]
  | cons cell rest ih =>
    obtain ⟨k, v⟩ := cell
    simp only [Memory.write]
    split
    · simp [Memory.write]
    · split
      · next h => subst h; simp [Memory.write]
      · next h1 h2 => simp [Memory.write, h1, h2, ih]

theorem Memory.wf_nil : Memory.wf [] = true := rfl

theorem bytesOf_length (v : Word) (n : Nat) : (bytesOf v n).length = n := by
  simp [bytesOf]

theorem State.memBytes_length (s : State) (a n : Nat) : (s.memBytes a n).length = n := by
  simp [State.memBytes]

/-- The bits of a byte sequence's value: bit `i` is bit `i mod 8` of byte `i / 8`, and 0 past the bytes. -/
theorem getLsbD_littleEndian (bytes : List Byte) (i : Nat) (hi : i < 64) :
    (littleEndian bytes).getLsbD i = (bytes.getD (i / 8) 0).getLsbD (i % 8) := by
  induction bytes generalizing i with
  | nil => simp [littleEndian]
  | cons b bs ih =>
    rw [littleEndian, BitVec.getLsbD_or, BitVec.getLsbD_setWidth, BitVec.getLsbD_shiftLeft]
    by_cases h : i < 8
    · simp [h, hi, Nat.div_eq_of_lt h, Nat.mod_eq_of_lt h]
    · have hb : b.getLsbD i = false := BitVec.getLsbD_of_ge _ _ (by omega)
      rw [show i / 8 = (i - 8) / 8 + 1 by omega, List.getD_cons_succ, ← show (i - 8) % 8 = i % 8 by omega,
        ← ih _ (by omega)]
      simp [h, hi, hb]

/-- Byte `j` of a byte sequence's value is its `j`-th byte (20_memory.md rule R73). -/
theorem littleEndian_byte (bytes : List Byte) (j : Nat) (hj : j < 8) :
    (littleEndian bytes).extractLsb' (8 * j) 8 = bytes.getD j 0 := by
  apply BitVec.eq_of_getLsbD_eq
  intro i hi
  rw [BitVec.getLsbD_extractLsb', getLsbD_littleEndian _ _ (by omega), show (8 * j + i) / 8 = j by omega,
    show (8 * j + i) % 8 = i by omega]
  simp [hi]

/-! ### Running a command -/

theorem firstFault_nil : firstFault [] = none := rfl

theorem firstFault_cons (applies : Bool) (k : FaultCode) (rest : List (Bool × FaultCode)) :
    firstFault ((applies, k) :: rest) = if applies then some k else firstFault rest := rfl

/-- A fault that is reported is that of a check that applies. -/
theorem firstFault_mem (checks : List (Bool × FaultCode)) (k : FaultCode) (h : firstFault checks = some k) :
    (true, k) ∈ checks := by
  induction checks with
  | nil => simp [firstFault] at h
  | cons check rest ih =>
    obtain ⟨applies, c⟩ := check
    cases applies with
    | true => simp_all [firstFault]
    | false => exact List.mem_cons_of_mem _ (ih (by simpa [firstFault] using h))

/-- While ERR = 1 a command is dropped. -/
theorem runCommand_dropped (i : Instr) (s : State) (checks : List (Bool × FaultCode)) (effect : State → State)
    (h : s.err = true) : runCommand i s checks effect = .next s := by
  simp [runCommand, h]

/-- A check that applies is taken as a fault. -/
theorem runCommand_faults (i : Instr) (s : State) (checks : List (Bool × FaultCode)) (effect : State → State)
    (h : s.err = false) (k : FaultCode) (hk : firstFault checks = some k) :
    runCommand i s checks effect = .next (s.takeFault k (encode i)) := by
  simp [runCommand, h, hk]

/-- With no check that applies, a command has its effect. -/
theorem runCommand_performs (i : Instr) (s : State) (checks : List (Bool × FaultCode)) (effect : State → State)
    (h : s.err = false) (hk : firstFault checks = none) : runCommand i s checks effect = .next (effect s) := by
  simp [runCommand, h, hk]

/-- Everything a command behind its checks can do. -/
theorem runCommand_cases (i : Instr) (s t : State) (checks : List (Bool × FaultCode)) (effect : State → State)
    (h : runCommand i s checks effect = .next t) :
    (s.err = true ∧ t = s) ∨
    (∃ k, s.err = false ∧ firstFault checks = some k ∧ t = s.takeFault k (encode i)) ∨
    (s.err = false ∧ firstFault checks = none ∧ t = effect s) := by
  cases he : s.err with
  | true =>
    rw [runCommand_dropped _ _ _ _ he] at h
    exact .inl ⟨rfl, by simpa using h.symm⟩
  | false =>
    cases hk : firstFault checks with
    | some k =>
      rw [runCommand_faults _ _ _ _ he k hk] at h
      exact .inr (.inl ⟨k, rfl, rfl, by simpa using h.symm⟩)
    | none =>
      rw [runCommand_performs _ _ _ _ he hk] at h
      exact .inr (.inr ⟨rfl, rfl, by simpa using h.symm⟩)

/-- A command behind its checks always answers a next state. -/
theorem runCommand_next (i : Instr) (s : State) (checks : List (Bool × FaultCode)) (effect : State → State) :
    ∃ t, runCommand i s checks effect = .next t := by
  unfold runCommand
  split
  · exact ⟨_, rfl⟩
  · split <;> exact ⟨_, rfl⟩

end Sys2Proof.Machine
end

