-- ==== Sys2Proof/Laws/Commands.lean ====
section
/-!
SUPPORT. Sys2Proof/Laws/Commands.lean: every command as its checks and its effect, so that a property of all commands
is proved by cases on the command with no meaning unfolded twice.
-/

namespace Sys2Proof.Machine

/-- The checks of a command after the drop and the decoding, in order (60_exceptions.md rule R260). -/
def checksOf (s : State) : Instr → List (Bool × FaultCode)
  | .configure => [checkWidth s, checkCfg s]
  | .clearerr => []
  | .reset c => [checkConfigured s, checkCtx s c]
  | .updb c _ => [checkConfigured s, checkCtx s c]
  | .updbits c _ _ => [checkConfigured s, checkCtx s c, checkLanes s]
  | .updbuf c => [checkConfigured s, checkCtx s c, checkSubRange s]
  | .updall c => [checkConfigured s, checkCtx s c, checkBuffer s]
  | .value c => [checkConfigured s, checkCtx s c]
  | .gfmul => [checkConfigured s]
  | .gfxpow => [checkConfigured s]
  | .combine => [checkConfigured s]
  | .chseed => [checkConfigured s]
  | .zeroes => [checkConfigured s]
  | .residue => [checkConfigured s]

/-- What a command that performs does to the state. -/
def effectOf (s : State) : Instr → State
  | .configure => s.configured (latched s.staging)
  | .clearerr => s
  | .reset c => s.setAcc c (resetValue s.nw s.active)
  | .updb c b => s.setAcc c (byteStep s.nw s.active s.tables (s.readAcc c) b)
  | .updbits c v k => s.setAcc c (updateBits s.nw s.active (s.readAcc c) v k)
  | .updbuf c => s.setAcc c (s.rangeValue c s.subRangeBytes)
  | .updall c => s.setAcc c (s.rangeValue c s.bufferBytes)
  | .value c => s.setResult (finalize s.nw s.active (s.readAcc c))
  | .gfmul => s.setResult (s.gfMul (s.operand s.arg0) (s.operand s.arg1))
  | .gfxpow => s.setResult (s.xPowN s.arg0)
  | .combine => s.setResult (s.operand s.arg1 ^^^ s.gfMul (s.operand s.arg0) (s.x8N s.arg2))
  | .chseed => s.setResult (s.operand s.arg0 ^^^ s.gfMul (s.operand (s.arg3 ^^^ s.arg2)) (s.x8N s.arg1))
  | .zeroes => s.setResult (s.gfMul (s.operand s.arg1 ^^^ s.field.canon) (s.x8N s.arg0) ^^^ s.field.canon)
  | .residue => s.setResult s.field.resk

theorem exec_clearerr (s : State) : exec .clearerr s = .next (if s.err then s.clearFault else s) := rfl

/-- Every command but CLEARERR runs its effect behind its checks. -/
theorem exec_eq_runCommand (i : Instr) (s : State) (hi : i ≠ .clearerr) :
    exec i s = runCommand i s (checksOf s i) (fun s => effectOf s i) := by
  cases i with
  | clearerr => exact absurd rfl hi
  | configure | reset | updb | updbits | updbuf | updall | value | gfmul | gfxpow | combine | chseed | zeroes
  | residue => rfl

/-- Everything a command can do. -/
theorem exec_cases (i : Instr) (s t : State) (h : exec i s = .next t) :
    (t = s ∧ (s.err = true ∨ i = .clearerr)) ∨ (i = .clearerr ∧ s.err = true ∧ t = s.clearFault) ∨
    (∃ k, i ≠ .clearerr ∧ s.err = false ∧ firstFault (checksOf s i) = some k ∧ t = s.takeFault k (encode i)) ∨
    (i ≠ .clearerr ∧ s.err = false ∧ firstFault (checksOf s i) = none ∧ t = effectOf s i) := by
  by_cases hi : i = .clearerr
  · subst hi
    rw [exec_clearerr] at h
    cases he : s.err with
    | true => exact .inr (.inl ⟨rfl, rfl, by simpa [he] using h.symm⟩)
    | false => exact .inl ⟨by simpa [he] using h.symm, .inr rfl⟩
  · rw [exec_eq_runCommand i s hi] at h
    rcases runCommand_cases _ _ _ _ _ h with ⟨he, rfl⟩ | ⟨k, he, hk, rfl⟩ | ⟨he, hk, rfl⟩
    · exact .inl ⟨rfl, .inl he⟩
    · exact .inr (.inr (.inl ⟨k, hi, he, hk, rfl⟩))
    · exact .inr (.inr (.inr ⟨hi, he, hk, rfl⟩))

/-- The accumulator files an effect can leave. -/
theorem effectOf_acc (s : State) (i : Instr) :
    (effectOf s i).acc = s.acc ∨ (∃ c v, (effectOf s i).acc = s.acc.set c v) ∨
    (i = .configure ∧ (effectOf s i).acc = List.replicate s.params.nctx (resetValue s.nw (latched s.staging))) := by
  cases i with
  | configure => exact .inr (.inr ⟨rfl, rfl⟩)
  | reset c | updb c | updbits c | updbuf c | updall c => exact .inr (.inl ⟨_, _, rfl⟩)
  | clearerr | value | gfmul | gfxpow | combine | chseed | zeroes | residue => exact .inl rfl

end Sys2Proof.Machine
end

