-- ==== Sys2Proof/Laws/Bus.lean ====
section
/-!
SUPPORT. Sys2Proof/Laws/Bus.lean: what one host access can do, and that every access is answered.
-/

namespace Sys2Proof.Machine

/-- Every command answers a next state. -/
theorem exec_next (i : Instr) (s : State) : ∃ t, exec i s = .next t := by
  by_cases hi : i = .clearerr
  · subst hi
    exact ⟨_, exec_clearerr s⟩
  · rw [exec_eq_runCommand i s hi]
    exact runCommand_next _ _ _ _

/-- Issuing a legal value runs its command. -/
theorem issue_command (v : Word) (i : Instr) (h : decode v = .command i) (s : State) : issue v s = exec i s := by
  simp [issue, h]

/-- Issuing an illegal value faults, unless the block is already in error. -/
theorem issue_illegal (v : Word) (why : Illegal) (h : decode v = .illegal why) (s : State) :
    issue v s = .next (if s.err then s else s.takeFault .illegalCmd v) := by
  simp [issue, h]

theorem issue_next (v : Word) (s : State) : ∃ t, issue v s = .next t := by
  unfold issue
  split
  · exact exec_next _ _
  · exact ⟨_, rfl⟩

/-- What a register write other than to CMD can do: nothing but write staging, the buffer descriptor and the operand
registers. -/
theorem writeReg_frame (r : Reg) (v : Word) (s t : State) (hr : r ≠ .cmd) (h : writeReg r v s = .next t) :
    t = { s with
      staging := t.staging, bufBase := t.bufBase, bufLen := t.bufLen, arg0 := t.arg0, arg1 := t.arg1,
      arg2 := t.arg2, arg3 := t.arg3 } := by
  cases r <;> simp only [writeReg, Host.Outcome.next.injEq] at h <;> first | exact absurd rfl hr | (subst h; rfl)

theorem writeReg_cmd (v : Word) (s : State) : writeReg .cmd v s = issue v s := rfl

theorem writeReg_next (r : Reg) (v : Word) (s : State) : ∃ t, writeReg r v s = .next t := by
  cases r
  case cmd => exact issue_next v s
  all_goals exact ⟨_, rfl⟩

theorem hostWrite_next (offset width : Nat) (v : Word) (s : State) : ∃ t, hostWrite offset width v s = .next t := by
  unfold hostWrite
  split
  · exact writeReg_next _ _ _
  · exact ⟨_, rfl⟩
  · exact ⟨_, rfl⟩

theorem perform_next (e : HostEvent) (s : State) : ∃ t, perform e s = .next t := by
  cases e with
  | write address width v =>
    simp only [perform]
    split
    · exact hostWrite_next _ _ _ _
    · exact ⟨_, rfl⟩
  | read address width =>
    simp only [perform]
    split <;> exact ⟨_, rfl⟩
  | resetInput => exact ⟨_, rfl⟩

theorem performNext_nil (s : State) (h : s.pending = []) : performNext s = .next s := by
  simp [performNext, h]

theorem performNext_cons (s : State) (e : HostEvent) (rest : List HostEvent) (h : s.pending = e :: rest) :
    performNext s = perform e { s with pending := rest } := by
  simp [performNext, h]

/-- The offset of an address at or above the block's base. -/
theorem offsetOf_add (p : Params) (offset : Nat) : offsetOf p (p.blockBase + offset) = some offset := by
  simp [offsetOf]

/-- The three kinds of target of an access (20_memory.md rules R76, R78, R79). -/
theorem targetOf_register (p : Params) (offset : Nat) (h : offset < 0x10000) (ha : offset % 8 = 0) :
    targetOf p offset 8 = .register (regAt offset) := by
  simp [targetOf, h, ha]

theorem targetOf_dmem (p : Params) (a width : Nat) (hw : dmemWidth width = true) (ha : a % width = 0)
    (hb : a + width ≤ p.dmemBytes) : targetOf p (0x10000 + a) width = .dmem a := by
  have h1 : ¬ 0x10000 + a < 0x10000 := by omega
  have h2 : 0x10000 + a - 0x10000 = a := by omega
  simp [targetOf, hw, ha, hb]

/-- A DMEM target lies inside DMEM. -/
theorem targetOf_dmem_bound (p : Params) (offset width a : Nat) (h : targetOf p offset width = .dmem a) :
    a + width ≤ p.dmemBytes := by
  unfold targetOf at h
  split at h
  · split at h <;> simp at h
  · split at h
    · next hc =>
      simp only [Target.dmem.injEq] at h
      omega
    · simp at h

/-- A host access to an 8-byte aligned register offset reads that register. -/
theorem hostRead_register (s : State) (offset : Nat) (h : offset < 0x10000) (ha : offset % 8 = 0) :
    hostRead offset 8 s = .data (readReg (regAt offset) s) := by
  simp [hostRead, targetOf_register _ _ h ha]

/-- A host access to an 8-byte aligned register offset writes that register. -/
theorem hostWrite_register (s : State) (offset : Nat) (v : Word) (h : offset < 0x10000) (ha : offset % 8 = 0) :
    hostWrite offset 8 v s = writeReg (regAt offset) v (s.respond .written) := by
  simp [hostWrite, targetOf_register _ _ h ha]

/-- The host's write of a value to CMD issues it on the state in which the write is accepted. -/
theorem perform_cmdWrite (s : State) (v : Word) (p : Params) (hp : s.params = p) :
    perform (cmdWrite p v) s = issue v (s.respond .written) := by
  subst hp
  simp only [cmdWrite, perform, offsetOf_add, hostWrite]
  rw [targetOf_register _ _ (by omega) (by omega)]
  rfl

end Sys2Proof.Machine
end

