-- ==== Sys2Proof/Laws/Decode.lean ====
section
/-!
SUPPORT. Sys2Proof/Laws/Decode.lean: the fields of a packed command word, and what masking one does.
-/

namespace Sys2Proof

/-- The bits of a packed word, field by field (30_encoding.md rule R101). -/
theorem getLsbD_packWord (opc : BitVec 8) (ctx : BitVec 4) (imm8 : BitVec 8) (nbits : BitVec 3) (i : Nat) :
    (packWord opc ctx imm8 nbits).getLsbD i =
      if i < 8 then opc.getLsbD i
      else if i < 12 then ctx.getLsbD (i - 8)
      else if i < 16 then false
      else if i < 24 then imm8.getLsbD (i - 16)
      else nbits.getLsbD (i - 24) := by
  simp only [packWord, BitVec.getLsbD_append]
  by_cases h8 : i < 8
  · simp [-BitVec.getLsbD_eq_getElem, h8]
  · by_cases h12 : i < 12
    · have : i - 8 < 4 := by omega
      simp [-BitVec.getLsbD_eq_getElem, h8, h12, this]
    · by_cases h16 : i < 16
      · have h1 : ¬ i - 8 < 4 := by omega
        have h2 : i - 8 - 4 < 4 := by omega
        simp [-BitVec.getLsbD_eq_getElem, h8, h12, h16, h1, h2]
      · by_cases h24 : i < 24
        · have h1 : ¬ i - 8 < 4 := by omega
          have h2 : ¬ i - 8 - 4 < 4 := by omega
          have h3 : i - 8 - 4 - 4 < 8 := by omega
          have h4 : i - 8 - 4 - 4 = i - 16 := by omega
          have h5 : i - 16 < 8 := by omega
          simp [-BitVec.getLsbD_eq_getElem, h8, h12, h16, h24, h1, h2, h4, h5]
        · have h1 : ¬ i - 8 < 4 := by omega
          have h2 : ¬ i - 8 - 4 < 4 := by omega
          have h3 : ¬ i - 8 - 4 - 4 < 8 := by omega
          have h4 : i - 8 - 4 - 4 - 8 = i - 24 := by omega
          have h6 : i - 8 - 4 - 4 = i - 16 := by omega
          have h7 : ¬ i - 16 < 8 := by omega
          have h8' : i - 16 - 8 = i - 24 := by omega
          by_cases h27 : i - 24 < 3
          · simp [-BitVec.getLsbD_eq_getElem, h8, h12, h16, h24, h1, h2, h6, h7, h8', h27]
          · have : nbits.getLsbD (i - 24) = false := BitVec.getLsbD_of_ge _ _ (by omega)
            simp [-BitVec.getLsbD_eq_getElem, h8, h12, h16, h24, h1, h2, h6, h7, h8', h27, this]

@[simp] theorem fieldOpc_packWord (opc : BitVec 8) (ctx : BitVec 4) (imm8 : BitVec 8) (nbits : BitVec 3) :
    fieldOpc (packWord opc ctx imm8 nbits) = opc := by
  apply BitVec.eq_of_getLsbD_eq
  intro i hi
  simp [-BitVec.getLsbD_eq_getElem, fieldOpc, BitVec.getLsbD_extractLsb', getLsbD_packWord, hi]

@[simp] theorem fieldCtx_packWord (opc : BitVec 8) (ctx : BitVec 4) (imm8 : BitVec 8) (nbits : BitVec 3) :
    fieldCtx (packWord opc ctx imm8 nbits) = ctx := by
  apply BitVec.eq_of_getLsbD_eq
  intro i hi
  have h1 : 8 + i < 12 := by omega
  simp [-BitVec.getLsbD_eq_getElem, fieldCtx, BitVec.getLsbD_extractLsb', getLsbD_packWord, hi, h1]

@[simp] theorem fieldImm8_packWord (opc : BitVec 8) (ctx : BitVec 4) (imm8 : BitVec 8) (nbits : BitVec 3) :
    fieldImm8 (packWord opc ctx imm8 nbits) = imm8 := by
  apply BitVec.eq_of_getLsbD_eq
  intro i hi
  have h0 : ¬ 16 + i < 8 := by omega
  have h1 : ¬ 16 + i < 12 := by omega
  have h2 : 16 + i < 24 := by omega
  simp [-BitVec.getLsbD_eq_getElem, fieldImm8, BitVec.getLsbD_extractLsb', getLsbD_packWord, hi, h0, h1, h2]

@[simp] theorem fieldNbits_packWord (opc : BitVec 8) (ctx : BitVec 4) (imm8 : BitVec 8) (nbits : BitVec 3) :
    fieldNbits (packWord opc ctx imm8 nbits) = nbits := by
  apply BitVec.eq_of_getLsbD_eq
  intro i hi
  have h0 : ¬ 24 + i < 8 := by omega
  have h1 : ¬ 24 + i < 12 := by omega
  have h2 : ¬ 24 + i < 16 := by omega
  simp [-BitVec.getLsbD_eq_getElem, fieldNbits, BitVec.getLsbD_extractLsb', getLsbD_packWord, hi, h0, h1, h2]

/-- Masking a packed word masks its fields. -/
theorem packWord_and (opc : BitVec 8) (ctx : BitVec 4) (imm8 : BitVec 8) (nbits : BitVec 3) (m : BitVec 32) :
    packWord opc ctx imm8 nbits &&& m =
      packWord (opc &&& fieldOpc m) (ctx &&& fieldCtx m) (imm8 &&& fieldImm8 m) (nbits &&& fieldNbits m) := by
  apply BitVec.eq_of_getLsbD_eq
  intro i hi
  simp only [BitVec.getLsbD_and, getLsbD_packWord, fieldOpc, fieldCtx, fieldImm8, fieldNbits,
    BitVec.getLsbD_extractLsb']
  by_cases h8 : i < 8
  · simp [-BitVec.getLsbD_eq_getElem, h8]
  · by_cases h12 : i < 12
    · have h1 : i - 8 < 4 := by omega
      have h2 : 8 + (i - 8) = i := by omega
      simp [-BitVec.getLsbD_eq_getElem, h8, h12, h1, h2]
    · by_cases h16 : i < 16
      · simp [h8, h12, h16]
      · by_cases h24 : i < 24
        · have h1 : i - 16 < 8 := by omega
          have h2 : 16 + (i - 16) = i := by omega
          simp [-BitVec.getLsbD_eq_getElem, h8, h12, h16, h24, h1, h2]
        · by_cases h27 : i - 24 < 3
          · have h2 : 24 + (i - 24) = i := by omega
            simp [-BitVec.getLsbD_eq_getElem, h8, h12, h16, h24, h27, h2]
          · have : nbits.getLsbD (i - 24) = false := BitVec.getLsbD_of_ge _ _ (by omega)
            simp [-BitVec.getLsbD_eq_getElem, h8, h12, h16, h24, this]

/-- A packed word determines its fields. -/
theorem packWord_inj {opc opc' : BitVec 8} {ctx ctx' : BitVec 4} {imm8 imm8' : BitVec 8} {nbits nbits' : BitVec 3} :
    packWord opc ctx imm8 nbits = packWord opc' ctx' imm8' nbits' ↔
      opc = opc' ∧ ctx = ctx' ∧ imm8 = imm8' ∧ nbits = nbits' := by
  constructor
  · intro h
    have h1 := congrArg fieldOpc h
    have h2 := congrArg fieldCtx h
    have h3 := congrArg fieldImm8 h
    have h4 := congrArg fieldNbits h
    simp only [fieldOpc_packWord, fieldCtx_packWord, fieldImm8_packWord, fieldNbits_packWord] at h1 h2 h3 h4
    exact ⟨h1, h2, h3, h4⟩
  · rintro ⟨rfl, rfl, rfl, rfl⟩
    rfl

/-- A word with its reserved bits clear is packed from its fields (30_encoding.md rule R106). -/
theorem packWord_fields (w : BitVec 32) (h : w &&& 0xF800F000 = 0) :
    packWord (fieldOpc w) (fieldCtx w) (fieldImm8 w) (fieldNbits w) = w := by
  have hr : ∀ i, (12 ≤ i ∧ i < 16) ∨ (27 ≤ i ∧ i < 32) → w.getLsbD i = false := by
    intro i hi
    have hb := congrArg (fun x => BitVec.getLsbD x i) h
    simp only [BitVec.getLsbD_and] at hb
    have hm : (0xF800F000 : BitVec 32).getLsbD i = true := by
      rcases hi with ⟨h1, h2⟩ | ⟨h1, h2⟩ <;> interval_cases i <;> decide
    rw [hm] at hb
    simpa [-BitVec.getLsbD_eq_getElem] using hb
  apply BitVec.eq_of_getLsbD_eq
  intro i hi
  simp only [getLsbD_packWord, fieldOpc, fieldCtx, fieldImm8, fieldNbits, BitVec.getLsbD_extractLsb']
  by_cases h8 : i < 8
  · simp [-BitVec.getLsbD_eq_getElem, h8]
  · by_cases h12 : i < 12
    · have h1 : i - 8 < 4 := by omega
      have h2 : 8 + (i - 8) = i := by omega
      simp [-BitVec.getLsbD_eq_getElem, h8, h12, h1, h2]
    · by_cases h16 : i < 16
      · simp [-BitVec.getLsbD_eq_getElem, h8, h12, h16, hr i (by omega)]
      · by_cases h24 : i < 24
        · have h1 : i - 16 < 8 := by omega
          have h2 : 16 + (i - 16) = i := by omega
          simp [-BitVec.getLsbD_eq_getElem, h8, h12, h16, h24, h1, h2]
        · by_cases h27 : i - 24 < 3
          · have h2 : 24 + (i - 24) = i := by omega
            simp [-BitVec.getLsbD_eq_getElem, h8, h12, h16, h24, h27, h2]
          · simp [-BitVec.getLsbD_eq_getElem, h8, h12, h16, h24, h27, hr i (by omega)]

/-- A packed word spells a row exactly when its masked fields are the row's (30_encoding.md rule R107). -/
theorem spells_packWord (r : OpcodeRow) (opc : BitVec 8) (ctx : BitVec 4) (imm8 : BitVec 8) (nbits : BitVec 3)
    (hr : packWord (fieldOpc r.pattern) (fieldCtx r.pattern) (fieldImm8 r.pattern) (fieldNbits r.pattern) = r.pattern) :
    r.spells (packWord opc ctx imm8 nbits) = true ↔
      opc &&& fieldOpc r.mask = fieldOpc r.pattern ∧ ctx &&& fieldCtx r.mask = fieldCtx r.pattern ∧
      imm8 &&& fieldImm8 r.mask = fieldImm8 r.pattern ∧ nbits &&& fieldNbits r.mask = fieldNbits r.pattern := by
  rw [OpcodeRow.spells, beq_iff_eq, packWord_and, ← packWord_inj, hr]

/-- The bits of the encoder's value. -/
theorem getLsbD_encode (i : Instr) (j : Nat) :
    (encode i).getLsbD j = (decide (j < 32) && (encodeWord i).getLsbD j) := by
  have h : (encode i).getLsbD j = if j < 32 then (encodeWord i).getLsbD j else (0 : BitVec 32).getLsbD (j - 32) :=
    BitVec.getLsbD_append (x := (0 : BitVec 32)) (y := encodeWord i)
  rw [h]
  by_cases hj : j < 32 <;> simp [-BitVec.getLsbD_eq_getElem, hj]

/-- The encoder's value has its high half zero. -/
theorem encode_high (i : Instr) : (encode i).extractLsb' 32 32 = 0 := by
  apply BitVec.eq_of_getLsbD_eq
  intro j hj
  simp [-BitVec.getLsbD_eq_getElem, BitVec.getLsbD_extractLsb', getLsbD_encode]

/-- The encoder's value has the command word as its low half. -/
theorem encode_low (i : Instr) : (encode i).extractLsb' 0 32 = encodeWord i := by
  apply BitVec.eq_of_getLsbD_eq
  intro j hj
  simp [-BitVec.getLsbD_eq_getElem, BitVec.getLsbD_extractLsb', getLsbD_encode, hj]

/-- The encoder's value decodes as its command word does. -/
theorem decode_encode_word (i : Instr) : decode (encode i) = decodeWord (encodeWord i) := by
  simp only [decode, encode_high, encode_low]
  rfl

end Sys2Proof
end

