-- ==== Sys2Proof/Laws/Engine.lean ====
section
/-!
SUPPORT. Sys2Proof/Laws/Engine.lean: the division step of the table builder is linear, one byte through the base table
is eight division steps, and what a lane table's entry is in those terms.
-/

namespace Sys2Proof.Machine

/-- One division step with nothing fed in: the step of both builders (41_table_builder.md rules R150, R151). -/
def divide (nw : Nat) (a : ActiveConfig) (r : Word) : Word :=
  if a.refIn then divideReflected (reflectedPoly nw a) r else divideNatural nw (epoly nw a) r

/-- The register place a `k`-bit number is fed in at: low end when reflected, high end otherwise. -/
def inject (nw : Nat) (a : ActiveConfig) (k : Nat) (v : Word) : Word :=
  if a.refIn then v else shl nw v (nw - k)

/-- A zero byte through the register. -/
def zeroByte (nw : Nat) (a : ActiveConfig) (r : Word) : Word := (divide nw a)^[8] r

theorem divideReflected_xor (pr u v : Word) :
    divideReflected pr (u ^^^ v) = divideReflected pr u ^^^ divideReflected pr v := by
  apply BitVec.eq_of_getLsbD_eq
  intro i _
  simp only [divideReflected, BitVec.getLsbD_xor]
  by_cases hu : u.getLsbD 0 <;> by_cases hv : v.getLsbD 0 <;> simp [-BitVec.getLsbD_eq_getElem, hu, hv] <;>
    cases u.getLsbD (1 + i) <;> cases v.getLsbD (1 + i) <;> cases pr.getLsbD i <;> rfl

theorem divideNatural_xor (nw : Nat) (ep u v : Word) :
    divideNatural nw ep (u ^^^ v) = divideNatural nw ep u ^^^ divideNatural nw ep v := by
  apply BitVec.eq_of_getLsbD_eq
  intro i _
  simp only [divideNatural, BitVec.getLsbD_xor]
  by_cases hu : u.getLsbD (nw - 1) <;> by_cases hv : v.getLsbD (nw - 1) <;> simp [-BitVec.getLsbD_eq_getElem, hu, hv, shl_xor] <;>
    cases (shl nw u 1).getLsbD i <;> cases (shl nw v 1).getLsbD i <;> cases ep.getLsbD i <;> rfl

theorem divide_xor (nw : Nat) (a : ActiveConfig) (u v : Word) :
    divide nw a (u ^^^ v) = divide nw a u ^^^ divide nw a v := by
  unfold divide
  split
  · exact divideReflected_xor _ u v
  · exact divideNatural_xor _ _ u v

theorem divide_iterate_xor (nw : Nat) (a : ActiveConfig) (k : Nat) (u v : Word) :
    (divide nw a)^[k] (u ^^^ v) = (divide nw a)^[k] u ^^^ (divide nw a)^[k] v := by
  induction k generalizing u v with
  | zero => rfl
  | succ k ih => simp only [Function.iterate_succ_apply, divide_xor, ih]

/-- A reflected division step on a value with bit 0 clear is a shift. -/
theorem divideReflected_even (pr v : Word) (h : v.getLsbD 0 = false) : divideReflected pr v = v >>> 1 := by
  simp [-BitVec.getLsbD_eq_getElem, divideReflected, h]

/-- A natural division step on a value with the top bit clear is a shift. -/
theorem divideNatural_low (nw : Nat) (ep v : Word) (h : v.getLsbD (nw - 1) = false) :
    divideNatural nw ep v = shl nw v 1 := by
  simp [-BitVec.getLsbD_eq_getElem, divideNatural, h]

theorem isBits_divide (nw : Nat) (hnw : nw ≤ 64) (a : ActiveConfig) (v : Word) (h : isBits nw v = true) :
    isBits nw (divide nw a v) = true := by
  unfold divide divideReflected divideNatural
  split
  · split
    · exact isBits_xor _ _ _ (isBits_ushiftRight _ _ _ h) (isBits_bitrev _ hnw _)
    · exact isBits_ushiftRight _ _ _ h
  · split
    · exact isBits_xor _ _ _ (isBits_shl _ _ _) (isBits_shl _ _ _)
    · exact isBits_shl _ _ _

theorem isBits_divide_iterate (nw : Nat) (hnw : nw ≤ 64) (a : ActiveConfig) (k : Nat) (v : Word)
    (h : isBits nw v = true) : isBits nw ((divide nw a)^[k] v) = true := by
  induction k generalizing v with
  | zero => exact h
  | succ k ih => exact ih _ (isBits_divide nw hnw a v h)

/-- The base table's entries are eight division steps of the injected index. -/
theorem baseTable_getD (nw : Nat) (a : ActiveConfig) (n : Nat) (hn : n < 256) :
    (baseTable nw (epoly nw a) a.refIn).getD n 0 = zeroByte nw a (inject nw a 8 (BitVec.ofNat 64 n)) := by
  unfold baseTable buildReflected buildUnreflected zeroByte inject divide reflectedPoly
  by_cases hr : a.refIn <;> simp [-BitVec.getLsbD_eq_getElem, hr, List.getD_eq_getElem?_getD, hn]

/-- `k` reflected division steps on a value whose low `k` bits are clear shift it by `k`. -/
theorem divideReflected_iterate_shift (pr : Word) (k : Nat) (v : Word) (h : ∀ i, i < k → v.getLsbD i = false) :
    (divideReflected pr)^[k] v = v >>> k := by
  induction k generalizing v with
  | zero => simp
  | succ k ih =>
    rw [Function.iterate_succ_apply, divideReflected_even _ _ (h 0 (by omega)), ih]
    · apply BitVec.eq_of_getLsbD_eq
      intro i _
      simp only [BitVec.getLsbD_ushiftRight]
      congr 1
      omega
    · intro i hi
      simp only [BitVec.getLsbD_ushiftRight]
      exact h _ (by omega)

/-- `k` natural division steps on an nw-bit value whose high `k` bits are clear shift it by `k`. -/
theorem divideNatural_iterate_shift (nw : Nat) (ep : Word) (k : Nat) (hk : k ≤ nw) (v : Word)
    (hv : isBits nw v = true) (h : ∀ i, nw - k ≤ i → i < nw → v.getLsbD i = false) :
    (divideNatural nw ep)^[k] v = shl nw v k := by
  induction k generalizing v with
  | zero =>
    apply eq_of_isBits nw _ _ hv (isBits_shl _ _ _)
    intro i hi h64
    simp [-BitVec.getLsbD_eq_getElem, getLsbD_shl, hi, h64]
  | succ k ih =>
    rw [Function.iterate_succ_apply, divideNatural_low _ _ _ (h (nw - 1) (by omega) (by omega)),
      ih (by omega) _ (isBits_shl _ _ _)]
    · apply eq_of_isBits nw _ _ (isBits_shl _ _ _) (isBits_shl _ _ _)
      intro i hi h64
      simp only [getLsbD_shl]
      by_cases hki : k ≤ i
      · by_cases h1 : 1 ≤ i - k
        · have e : i - k - 1 = i - (k + 1) := by omega
          have e2 : k + 1 ≤ i := by omega
          have e3 : i - k < 64 := by omega
          have e4 : i - k < nw := by omega
          simp [-BitVec.getLsbD_eq_getElem, hi, h64, hki, h1, e, e2, e3, e4]
        · have e2 : ¬ k + 1 ≤ i := by omega
          simp [-BitVec.getLsbD_eq_getElem, h1, e2]
      · have e2 : ¬ k + 1 ≤ i := by omega
        simp [-BitVec.getLsbD_eq_getElem, hki, e2]
    · intro i h1 h2
      simp only [getLsbD_shl]
      by_cases h3 : 1 ≤ i
      · rw [h (i - 1) (by omega) (by omega)]
        simp
      · simp [-BitVec.getLsbD_eq_getElem, h3]

/-- A byte through the base table is eight division steps of the register with the byte injected
(42_crc_engine.md rule R173). -/
theorem byteStep_eq_zeroByte (nw : Nat) (hnw : nw = 32 ∨ nw = 64) (a : ActiveConfig) (tables : List (List Word))
    (ht : tables.getD 0 [] = baseTable nw (epoly nw a) a.refIn) (acc : Word) (hacc : isBits nw acc = true) (b : Byte) :
    byteStep nw a tables acc b = zeroByte nw a (acc ^^^ inject nw a 8 (b.setWidth 64)) := by
  have h64 : nw ≤ 64 := by omega
  unfold byteStep tableEntry
  rw [ht]
  by_cases hr : a.refIn = true
  · rw [if_pos hr, baseTable_getD _ _ _ (BitVec.isLt _)]
    have hshift : acc >>> 8 = zeroByte nw a (acc &&& ~~~0xFF) := by
      unfold zeroByte divide
      simp only [hr, if_true]
      rw [divideReflected_iterate_shift]
      · apply BitVec.eq_of_getLsbD_eq
        intro i hi
        simp only [BitVec.getLsbD_ushiftRight, BitVec.getLsbD_and, BitVec.getLsbD_not]
        by_cases h : 8 + i < 64
        · have : (255#64).getLsbD (8 + i) = false := by
            rw [show (255#64) = BitVec.ofNat 64 (2 ^ 8 - 1) from rfl, BitVec.getLsbD_ofNat,
              Nat.testBit_two_pow_sub_one]
            simp
          simp [-BitVec.getLsbD_eq_getElem, h, this]
        · simp [-BitVec.getLsbD_eq_getElem, BitVec.getLsbD_of_ge acc (8 + i) (by omega)]
      · intro i hi
        interval_cases i <;> simp [-BitVec.getLsbD_eq_getElem]
    rw [hshift]
    unfold zeroByte
    rw [← divide_iterate_xor]
    congr 1
    unfold inject
    simp only [hr, if_true]
    apply BitVec.eq_of_getLsbD_eq
    intro i hi
    simp only [BitVec.ofNat_toNat, BitVec.getLsbD_xor, BitVec.getLsbD_setWidth, lowByte, BitVec.getLsbD_and,
      BitVec.getLsbD_not]
    by_cases h8 : i < 8
    · have : (255#64).getLsbD i = true := by interval_cases i <;> rfl
      simp [-BitVec.getLsbD_eq_getElem, h8, hi, this]
    · have : (255#64).getLsbD i = false := by
        rw [show (255#64) = BitVec.ofNat 64 (2 ^ 8 - 1) from rfl, BitVec.getLsbD_ofNat,
          Nat.testBit_two_pow_sub_one]
        simp [-BitVec.getLsbD_eq_getElem, h8]
      simp [-BitVec.getLsbD_eq_getElem, h8, hi, this, BitVec.getLsbD_of_ge b i (by omega)]
  · rw [if_neg hr, baseTable_getD _ _ _ (BitVec.isLt _)]
    have hshift : shl nw acc 8 = zeroByte nw a (acc &&& mask (nw - 8)) := by
      unfold zeroByte divide
      simp only [hr, Bool.false_eq_true, if_false]
      rw [divideNatural_iterate_shift]
      · apply eq_of_isBits nw _ _ (isBits_shl _ _ _) (isBits_shl _ _ _)
        intro i hi h
        simp only [getLsbD_shl, BitVec.getLsbD_and, getLsbD_mask]
        by_cases h8 : 8 ≤ i
        · have e1 : i - 8 < 64 := by omega
          have e2 : i - 8 < nw - 8 := by omega
          simp [-BitVec.getLsbD_eq_getElem, e1, e2]
        · simp [-BitVec.getLsbD_eq_getElem, h8]
      · omega
      · rw [isBits_iff] at *
        intro i hi
        simp [-BitVec.getLsbD_eq_getElem, hacc i hi]
      · intro i h1 h2
        have : ¬ i < nw - 8 := by omega
        simp [-BitVec.getLsbD_eq_getElem, getLsbD_mask, this]
    rw [hshift]
    unfold zeroByte
    rw [← divide_iterate_xor]
    congr 1
    unfold inject
    simp only [hr, Bool.false_eq_true, if_false]
    have hI : ∀ (c : Word), isBits nw (acc ^^^ shl nw c (nw - 8)) = true :=
      fun c => isBits_xor _ _ _ hacc (isBits_shl _ _ _)
    apply eq_of_isBits nw
    · refine isBits_xor _ _ _ (isBits_shl _ _ _) ?_
      rw [isBits_iff] at *
      intro i hi
      simp [-BitVec.getLsbD_eq_getElem, hacc i hi]
    · exact hI _
    intro i hi h
    simp only [BitVec.ofNat_toNat, BitVec.getLsbD_xor, BitVec.getLsbD_setWidth, lowByte, BitVec.getLsbD_and,
      getLsbD_shl, getLsbD_mask, BitVec.getLsbD_ushiftRight]
    by_cases h8 : nw - 8 ≤ i
    · have e1 : i - (nw - 8) < 8 := by omega
      have e2 : i - (nw - 8) < 64 := by omega
      have e3 : nw - 8 + (i - (nw - 8)) = i := by omega
      have e4 : ¬ i < nw - 8 := by omega
      simp [-BitVec.getLsbD_eq_getElem, h8, hi, h, e1, e2, e3, e4]
    · have e4 : i < nw - 8 := by omega
      simp [-BitVec.getLsbD_eq_getElem, h8, h, e4]

end Sys2Proof.Machine
end

