-- ==== Sys2Proof/Laws/Field.lean ====
section
/-!
SUPPORT. Sys2Proof/Laws/Field.lean: multiplication by x is linear, `GfMul` is a sum of multiples by powers of x, and the
reference in combiner encoding.
-/

namespace Sys2Proof.Machine

/-- Multiplication by `x` in combiner encoding (44_gf2_combiner.md rule R220). -/
abbrev timesX (a : ActiveConfig) : Word → Word := mulX a 0 (polyEnc a)

/-- What the field arithmetic needs of a configuration. -/
structure FieldOk (a : ActiveConfig) : Prop where
  w1 : 1 ≤ a.w
  w2 : a.w ≤ 64
  wp : isBits a.w a.apoly = true

theorem polyEnc_isBits (a) (h : FieldOk a) : isBits a.w (polyEnc a) = true := by
  unfold polyEnc; split
  · exact isBits_bitrev _ h.w2 _
  · exact h.wp

theorem timesX_xor (a) (u v : Word) : timesX a (u ^^^ v) = timesX a u ^^^ timesX a v := by
  unfold timesX mulX
  apply BitVec.eq_of_getLsbD_eq
  intro i _
  by_cases hr : a.refIn = true
  · simp only [hr, if_true, BitVec.getLsbD_xor]
    cases u.getLsbD 0 <;> cases v.getLsbD 0 <;> simp [-BitVec.getLsbD_eq_getElem]
    all_goals (cases (u.getLsbD (1+i)) <;> cases (v.getLsbD (1+i)) <;> cases (polyEnc a).getLsbD i <;> rfl)
  · simp only [hr, Bool.false_eq_true, if_false, BitVec.getLsbD_xor, shl_xor]
    cases u.getLsbD (a.w-1) <;> cases v.getLsbD (a.w-1) <;> simp [-BitVec.getLsbD_eq_getElem]
    all_goals (cases (shl a.w u 1).getLsbD i <;> cases (shl a.w v 1).getLsbD i <;> cases (polyEnc a).getLsbD i <;> rfl)

theorem timesX_zero (a) : timesX a 0 = 0 := by
  have := timesX_xor a 0 0
  simpa using this

theorem timesX_bits (a) (h : FieldOk a) (v) (hv : isBits a.w v = true) : isBits a.w (timesX a v) = true := by
  unfold timesX mulX
  split
  · apply isBits_xor _ _ _ (isBits_ushiftRight _ _ _ hv); split
    · exact polyEnc_isBits a h
    · exact isBits_zero _
  · apply isBits_xor _ _ _ (isBits_shl _ _ _); split
    · exact polyEnc_isBits a h
    · exact isBits_zero _

theorem timesX_iterate_xor (a) (n) (u v : Word) : (timesX a)^[n] (u ^^^ v) = (timesX a)^[n] u ^^^ (timesX a)^[n] v := by
  induction n generalizing u v with
  | zero => rfl
  | succ k ih => simp only [Function.iterate_succ_apply, timesX_xor, ih]

theorem timesX_iterate_zero (a n) : (timesX a)^[n] 0 = 0 := by
  have := timesX_iterate_xor a n 0 0
  simpa using this

theorem timesX_iterate_bits (a) (h : FieldOk a) (n) (v) (hv : isBits a.w v = true) : isBits a.w ((timesX a)^[n] v) = true := by
  induction n generalizing v with
  | zero => exact hv
  | succ k ih => exact ih _ (timesX_bits a h v hv)

/-- `GfMul` with the reduction vector of the configuration (44_gf2_combiner.md rules R218, R220). -/
abbrev fieldMul (a : ActiveConfig) (u v : Word) := gfMul a 0 (polyEnc a) u v

/-- The sum of the multiples of `v` by the powers of `x` that `c` selects. -/
def sumOfPowers (a : ActiveConfig) (c : Nat → Bool) (v : Word) : Nat → Word
 | 0 => 0
 | n+1 => sumOfPowers a c v n ^^^ (if c n then (timesX a)^[n] v else 0)

/-- `GfMul` as a sum of multiples of its second operand. -/
theorem fieldMul_eq_sum (a) (u v : Word) : fieldMul a u v = sumOfPowers a (coefficient a (u &&& mask a.w)) (v &&& mask a.w) a.w := by
  unfold fieldMul gfMul
  generalize a.w = n
  have : ∀ (c : Nat → Bool) (v : Word) n, (List.range n).foldl (fun (st : Word × Word) i =>
      (mulX a 0 (polyEnc a) st.1, if c i then st.2 ^^^ st.1 else st.2)) (v, 0) = ((timesX a)^[n] v, sumOfPowers a c v n) := by
    intro c v n
    induction n with
    | zero => rfl
    | succ k ih =>
      rw [List.range_succ, List.foldl_append, ih]
      simp only [List.foldl_cons, List.foldl_nil, sumOfPowers, Function.iterate_succ_apply']
      cases c k <;> simp <;> rfl
  rw [this]

theorem sumOfPowers_xor_right (a c) (u v : Word) (n) : sumOfPowers a c (u ^^^ v) n = sumOfPowers a c u n ^^^ sumOfPowers a c v n := by
  induction n with
  | zero => simp [sumOfPowers]
  | succ n ih =>
    simp only [sumOfPowers, ih, timesX_iterate_xor]
    cases c n
    · simp
    · simp only [if_true]; ac_rfl

theorem sumOfPowers_xor_left (a) (c d : Nat → Bool) (v : Word) (n) : sumOfPowers a (fun i => c i ^^ d i) v n = sumOfPowers a c v n ^^^ sumOfPowers a d v n := by
  induction n with
  | zero => simp [sumOfPowers]
  | succ n ih =>
    simp only [sumOfPowers, ih]
    generalize (timesX a)^[n] v = y
    have key : ∀ (p q : Bool) (s t : Word), (s ^^^ t ^^^ if (p ^^ q) = true then y else 0) =
      (s ^^^ if p = true then y else 0) ^^^ (t ^^^ if q = true then y else 0) := by
      intro p q s t
      cases p <;> cases q <;> simp <;> try ac_rfl
      rw [show s ^^^ y ^^^ (t ^^^ y) = s ^^^ t ^^^ (y ^^^ y) by ac_rfl]; simp
    exact key _ _ _ _

theorem sumOfPowers_iterate (a c) (v : Word) (n) (m) : sumOfPowers a c ((timesX a)^[m] v) n = (timesX a)^[m] (sumOfPowers a c v n) := by
  induction n with
  | zero => simp [sumOfPowers]; exact (timesX_iterate_zero a m).symm
  | succ n ih =>
    simp only [sumOfPowers, ih, timesX_iterate_xor]
    congr 1
    cases c n
    · simp; exact (timesX_iterate_zero a m).symm
    · simp only [if_true]; rw [← Function.iterate_add_apply, ← Function.iterate_add_apply, Nat.add_comm]

theorem sumOfPowers_bits (a) (h : FieldOk a) (c) (v : Word) (hv : isBits a.w v = true) (n) : isBits a.w (sumOfPowers a c v n) = true := by
  induction n with
  | zero => exact isBits_zero _
  | succ n ih =>
    apply isBits_xor _ _ _ ih; split
    · exact timesX_iterate_bits a h _ _ hv
    · exact isBits_zero _

/-- `ONE` is a w-bit value. -/
theorem fieldOne_isBits (a) (h : FieldOk a) : isBits a.w (fieldOne a) = true := by
  have := h.w1; have := h.w2
  rw [isBits_iff]; intro i hi
  unfold fieldOne; split
  · simp [-BitVec.getLsbD_eq_getElem, BitVec.getLsbD_twoPow]; omega
  · simp [-BitVec.getLsbD_eq_getElem]; omega

/-- The encoding of `x^i` for `i < w`. -/
theorem timesX_iterate_one (a) (h : FieldOk a) (i) (hi : i < a.w) : (timesX a)^[i] (fieldOne a) = BitVec.twoPow 64 (if a.refIn then a.w - 1 - i else i) := by
  have := h.w1; have := h.w2
  induction i with
  | zero => unfold fieldOne; cases a.refIn <;> simp <;> rfl
  | succ i ih =>
    rw [Function.iterate_succ_apply', ih (by omega)]
    unfold timesX mulX
    by_cases hr : a.refIn = true
    · simp only [hr, if_true]
      have : (BitVec.twoPow 64 (a.w-1-i)).getLsbD 0 = false := by simp [-BitVec.getLsbD_eq_getElem, BitVec.getLsbD_twoPow]; omega
      rw [this]
      apply BitVec.eq_of_getLsbD_eq; intro j hj
      simp [-BitVec.getLsbD_eq_getElem, BitVec.getLsbD_twoPow]
      by_cases h5 : a.w - 1 - i = 1 + j
      · have q1: a.w - 1 - (i+1) = j := by omega
        have q2 : 1 + j < 64 := by omega
        simp [h5, q1, hj, q2]
      · have q1: ¬ a.w - 1 - (i+1) = j := by omega
        simp [h5, q1]
    · simp only [hr, Bool.false_eq_true, if_false]
      have : (BitVec.twoPow 64 i).getLsbD (a.w-1) = false := by simp [-BitVec.getLsbD_eq_getElem, BitVec.getLsbD_twoPow]; omega
      rw [this]
      apply BitVec.eq_of_getLsbD_eq; intro j hj
      simp [-BitVec.getLsbD_eq_getElem, BitVec.getLsbD_twoPow, getLsbD_shl]
      by_cases h5 : i + 1 = j
      · subst h5
        have q2 : i < 64 := by omega
        simp [hj, hi, q2]
      · simp [h5]; omega

/-- Multiplying by `ONE` keeps the low `w` bits. -/
theorem fieldMul_one (a) (h : FieldOk a) (u : Word) : fieldMul a u (fieldOne a) = u &&& mask a.w := by
  rw [fieldMul_eq_sum, and_mask_of_isBits _ _ (fieldOne_isBits a h)]
  generalize hx : u &&& mask a.w = x
  have hxb : isBits a.w x = true := hx ▸ isBits_and_mask _ _
  have h1 := h.w1
  have h2 := h.w2
  have key : ∀ n, n ≤ a.w → ∀ j, (sumOfPowers a (coefficient a x) (fieldOne a) n).getLsbD j = (x.getLsbD j && decide (if a.refIn then a.w - 1 - j < n ∧ j < a.w else j < n)) := by
    intro n hn
    induction n with
    | zero => intro j; simp [sumOfPowers]
    | succ n ih =>
      intro j
      simp only [sumOfPowers, BitVec.getLsbD_xor, ih (by omega), timesX_iterate_one a h n (by omega)]
      unfold coefficient
      by_cases hr : a.refIn = true
      · simp only [hr, if_true]
        by_cases hj : a.w - 1 - n = j
        · subst hj
          have q1 : ¬ (a.w - 1 - (a.w - 1 - n) < n) := by omega
          have q2 : (a.w - 1 - (a.w - 1 - n) < n+1) := by omega
          have q3 : a.w - 1 - n < 64 := by omega
          have q4 : a.w - 1 - n < a.w := by omega
          cases hc : x.getLsbD (a.w - 1 - n) <;> simp [-BitVec.getLsbD_eq_getElem, q1, q2, q3, q4, BitVec.getLsbD_twoPow]
        · have : (if x.getLsbD (a.w - 1 - n) then BitVec.twoPow 64 (a.w-1-n) else 0).getLsbD j = false := by
            split <;> simp [-BitVec.getLsbD_eq_getElem, BitVec.getLsbD_twoPow, hj]
          rw [this]
          by_cases hjw : j < a.w
          · have : (a.w - 1 - j < n) ↔ (a.w - 1 - j < n + 1) := by omega
            simp [this, hjw]
          · simp [hjw]
      · simp only [hr, Bool.false_eq_true, if_false]
        by_cases hj : n = j
        · subst hj
          have q3 : n < 64 := by omega
          cases hc : x.getLsbD n <;> simp [-BitVec.getLsbD_eq_getElem, q3, BitVec.getLsbD_twoPow]
        · have : (if x.getLsbD n then BitVec.twoPow 64 n else 0).getLsbD j = false := by
            split <;> simp [-BitVec.getLsbD_eq_getElem, BitVec.getLsbD_twoPow, hj]
          rw [this]
          have : (j < n) ↔ (j < n + 1) := by omega
          simp only [Bool.xor_false, this]
  apply eq_of_isBits a.w _ _ (sumOfPowers_bits a h _ _ (fieldOne_isBits a h) _) hxb
  intro j hj _
  rw [key _ (le_refl _) j]
  have : a.w - 1 - j < a.w := by omega
  simp [hj, this]

/-- Multiplying by `x^n` is `n` multiplications by `x`. -/
theorem fieldMul_timesX_iterate (a) (h : FieldOk a) (u : Word) (n : Nat) : fieldMul a u ((timesX a)^[n] (fieldOne a)) = (timesX a)^[n] (u &&& mask a.w) := by
  have := fieldMul_one a h u
  rw [fieldMul_eq_sum] at this ⊢
  rw [and_mask_of_isBits _ _ (fieldOne_isBits a h)] at this
  rw [and_mask_of_isBits _ _ (timesX_iterate_bits a h n _ (fieldOne_isBits a h)), sumOfPowers_iterate, this]

/-- `XMODP` is `x` times `ONE`, for every width (44_gf2_combiner.md rule R222). -/
theorem xModP_eq (a) (h : FieldOk a) : xModP a = timesX a (fieldOne a) := by
  have h1 := h.w1; have h2 := h.w2; have hp := h.wp
  unfold xModP
  split
  · rename_i hw
    rw [isBits_iff, hw] at hp
    unfold timesX mulX fieldOne polyEnc
    apply BitVec.eq_of_getLsbD_eq
    intro i hi
    by_cases hr : a.refIn = true
    · simp only [hr, hw, if_true, BitVec.getLsbD_xor, BitVec.getLsbD_and]
      have : (BitVec.twoPow 64 (1-1)).getLsbD 0 = true := by simp
      rw [this]
      simp only [if_true]
      rw [getLsbD_bitrev _ (by omega)]
      by_cases hi0 : i = 0
      · subst hi0; simp
      · have : ¬ i < 1 := by omega
        simp [-BitVec.getLsbD_eq_getElem, hi0]
        omega
    · simp only [hr, hw, Bool.false_eq_true, if_false, BitVec.getLsbD_xor, BitVec.getLsbD_and]
      have : (1 : Word).getLsbD (1-1) = true := by simp
      rw [this]
      simp only [if_true, getLsbD_shl]
      by_cases hi0 : i = 0
      · subst hi0; simp
      · have hi1 : ¬ i < 1 := by omega
        rw [hp i (by omega)]; simp [hi1]
  · have := timesX_iterate_one a h 1 (by omega)
    simp only [Function.iterate_one] at this
    rw [this]
    by_cases hr : a.refIn = true
    · simp only [hr, if_true]; congr 1
    · simp only [hr, Bool.false_eq_true, if_false]; rfl

/-- Entry `i` of XPOW is the first entry squared `i` times. -/
theorem xpowEntries_get (a) (red0 red1) (count x i) (hi : i < count) : (xpowEntries a red0 red1 count x).getD i 0 = (fun y => gfMul a red0 red1 y y)^[i] x := by
  induction count generalizing x i with
  | zero => omega
  | succ n ih =>
    cases i with
    | zero => rfl
    | succ i => simp only [xpowEntries, List.getD_cons_succ, Function.iterate_succ_apply]; exact ih _ _ (by omega)

/-- Squaring `x` `i` times gives `x^(2^i)`. -/
theorem square_iterate (a) (h : FieldOk a) (i : Nat) : (fun y => fieldMul a y y)^[i] (xModP a) = (timesX a)^[2^i] (fieldOne a) := by
  induction i with
  | zero => exact xModP_eq a h
  | succ i ih =>
    rw [Function.iterate_succ_apply', ih]
    show fieldMul a _ _ = _
    rw [fieldMul_timesX_iterate a h, and_mask_of_isBits _ _ (timesX_iterate_bits a h _ _ (fieldOne_isBits a h)), ← Function.iterate_add_apply]
    congr 1; ring

/-- The square-and-multiply loop over the low `k` bits of the exponent (44_gf2_combiner.md rule R225). -/
theorem xPowN_prefix (a) (h : FieldOk a) (n : Word) (k : Nat) (hk : k ≤ 64) :
    (List.range k).foldl
      (fun r i => if n.getLsbD i then gfMul a 0 (polyEnc a) r ((xpowEntries a 0 (polyEnc a) 64 (xModP a)).getD i 0)
        else r) (fieldOne a) = (timesX a)^[n.toNat % 2^k] (fieldOne a) := by
  induction k with
  | zero => simp [Nat.mod_one]
  | succ k ih =>
    rw [List.range_succ, List.foldl_append, ih (by omega)]
    simp only [List.foldl_cons, List.foldl_nil]
    rw [xpowEntries_get _ _ _ _ _ _ (by omega)]
    have := square_iterate a h k
    unfold fieldMul at this
    rw [this]
    have e : n.toNat % 2^(k+1) = n.toNat % 2^k + (if n.getLsbD k then 2^k else 0) := by
      rw [Nat.pow_succ, Nat.mod_mul, show n.getLsbD k = n.toNat.testBit k from rfl, Nat.testBit_eq_decide_div_mod_eq]
      rcases Nat.mod_two_eq_zero_or_one (n.toNat / 2 ^ k) with h | h <;> simp [h]
    rw [e]
    split
    · have := fieldMul_timesX_iterate a h ((timesX a)^[n.toNat % 2^k] (fieldOne a)) (2^k)
      unfold fieldMul at this
      rw [this, and_mask_of_isBits _ _ (timesX_iterate_bits a h _ _ (fieldOne_isBits a h)), ← Function.iterate_add_apply, Nat.add_comm]
    · rfl

/-- One message bit into the remainder in combiner encoding. -/
def feed (a : ActiveConfig) (e : Word) (bit : Bool) : Word := timesX a (e ^^^ (if bit then BitVec.twoPow 64 (if a.refIn then 0 else a.w - 1) else 0))

/-- The reference's bit step in combiner encoding. -/
theorem refBit_enc (a) (h : FieldOk a) (reg : Word) (hreg : isBits a.w reg = true) (b : Bool) : combinerEncode a (refBit a reg b) = feed a (combinerEncode a reg) b := by
  have h1 := h.w1; have h2 := h.w2; 
  rw [isBits_iff] at hreg
  unfold combinerEncode refBit feed timesX mulX polyEnc
  by_cases hr : a.refIn = true
  · simp only [hr, if_true]
    apply BitVec.eq_of_getLsbD_eq
    intro i hi
    have e0 : (bitrev a.w reg ^^^ (if b then BitVec.twoPow 64 0 else 0)).getLsbD 0 = (reg.getLsbD (a.w-1) ^^ b) := by
      rw [BitVec.getLsbD_xor, getLsbD_bitrev _ h2]
      have : 0 < a.w := h1
      cases b <;> simp [-BitVec.getLsbD_eq_getElem, this]
    rw [e0, getLsbD_bitrev _ h2, BitVec.getLsbD_xor, BitVec.getLsbD_xor, BitVec.getLsbD_ushiftRight, BitVec.getLsbD_xor, getLsbD_bitrev _ h2, getLsbD_shl]
    have z : (if b then BitVec.twoPow 64 0 else 0 : Word).getLsbD (1+i) = false := by
      cases b <;> simp [-BitVec.getLsbD_eq_getElem, BitVec.getLsbD_twoPow]
      omega
    rw [z]
    have c1 : (if (reg.getLsbD (a.w-1) ^^ b) then a.apoly else 0).getLsbD (a.w-1-i) = ((reg.getLsbD (a.w-1) ^^ b) && a.apoly.getLsbD (a.w-1-i)) := by
      cases (reg.getLsbD (a.w-1) ^^ b) <;> simp [-BitVec.getLsbD_eq_getElem]
    have c2 : (if (reg.getLsbD (a.w-1) ^^ b) then bitrev a.w a.apoly else 0).getLsbD i = ((reg.getLsbD (a.w-1) ^^ b) && (decide (i < a.w) && a.apoly.getLsbD (a.w-1-i))) := by
      cases (reg.getLsbD (a.w-1) ^^ b) <;> simp [-BitVec.getLsbD_eq_getElem, getLsbD_bitrev _ h2]
    rw [c1, c2]
    by_cases h5 : i < a.w
    · by_cases h6 : 1 + i < a.w
      · have q1 : a.w-1-i < 64 := by omega
        have q2 : a.w-1-i < a.w := by omega
        have q3 : 1 ≤ a.w-1-i := by omega
        have q4 : a.w - 1 - i - 1 = a.w - 1 - (1+i) := by omega
        simp [-BitVec.getLsbD_eq_getElem, h5, h6, q1, q2, q3, q4]
      · have q3 : ¬ (1 ≤ a.w-1-i) := by omega
        simp [-BitVec.getLsbD_eq_getElem, h5, h6, q3]
    · have h6 : ¬ (1 + i < a.w) := by omega
      simp [h5, h6]
  · simp only [hr, Bool.false_eq_true, if_false]
    have ht : (BitVec.twoPow 64 (a.w-1)).getLsbD (a.w-1) = true := by
        simp [-BitVec.getLsbD_eq_getElem, BitVec.getLsbD_twoPow]; omega
    have hs : shl a.w (BitVec.twoPow 64 (a.w-1)) 1 = 0 := by
        apply BitVec.eq_of_getLsbD_eq
        intro i hi
        simp [-BitVec.getLsbD_eq_getElem, getLsbD_shl, BitVec.getLsbD_twoPow]
        omega
    have hz : shl a.w 0 1 = 0 := shl_zero _ _
    cases b <;> simp only [if_true, Bool.false_eq_true, if_false, shl_xor, hs, hz, BitVec.getLsbD_xor, ht] <;> simp

theorem combinerEncode_bits (a) (h : FieldOk a) (v) (hv : isBits a.w v = true): isBits a.w (combinerEncode a v) = true := by
  unfold combinerEncode; split
  · exact isBits_bitrev _ h.w2 _
  · exact hv

theorem combinerEncode_combinerEncode (a) (h : FieldOk a) (v) (hv : isBits a.w v = true): combinerEncode a (combinerEncode a v) = v := by
  unfold combinerEncode; split
  · rw [bitrev_bitrev _ h.w2, and_mask_of_isBits _ _ hv]
  · rfl

theorem refBit_isBits (a : ActiveConfig) (h : FieldOk a) (reg) (b) : isBits a.w (refBit a reg b) = true := by
  unfold refBit
  apply isBits_xor
  · exact isBits_shl _ _ _
  · split
    · exact h.wp
    · exact isBits_zero _

/-- The reference in combiner encoding. -/
theorem refRegister_enc (a) (h : FieldOk a) (reg : Word) (hreg : isBits a.w reg = true) (bs : List Bool) : combinerEncode a (refRegister a reg bs) = bs.foldl (feed a) (combinerEncode a reg) := by
  induction bs generalizing reg with
  | nil => rfl
  | cons b bs ih => 
    show combinerEncode a (refRegister a (refBit a reg b) bs) = _
    rw [ih _ (refBit_isBits a h _ _), refBit_enc a h reg hreg b]; rfl

theorem feed_xor (a) (u v : Word) (b) : feed a (u ^^^ v) b = feed a u b ^^^ timesX a v := by
  unfold feed; rw [← timesX_xor]; congr 1; ac_rfl

/-- The remainder is affine in the register it starts from. -/
theorem foldl_feed_xor (a) (bs : List Bool) (u v : Word) : bs.foldl (feed a) (u ^^^ v) = bs.foldl (feed a) u ^^^ (timesX a)^[bs.length] v := by
  induction bs generalizing u v with
  | nil => rfl
  | cons b bs ih => simp only [List.foldl_cons, List.length_cons, Function.iterate_succ_apply, feed_xor, ih]

/-- The combiner-encoded CRC in terms of the remainder in combiner encoding. -/
theorem combinerCrc_eq (a) (h : FieldOk a) (hx : isBits a.w a.axor = true) (s : Word) (hs : isBits a.w s = true) (bs : List Bool) :
   combinerCrc a s bs = bs.foldl (feed a) (s ^^^ canonValue a) ^^^ canonValue a := by
  unfold combinerCrc
  have hc : isBits a.w (canonValue a) = true := by
    unfold canonValue; split
    · exact hx
    · exact isBits_bitrev _ h.w2 _
  have hsc := isBits_xor _ _ _ hs hc
  rw [refRegister_enc a h _ (combinerEncode_bits a h _ hsc), combinerEncode_combinerEncode a h _ hsc]

/-- Feeding a value's own bits to a register. -/
theorem feed_own_bits (a) (h : FieldOk a) (e c : Word) (he : isBits a.w e = true) (hc : isBits a.w c = true) :
   (crcBits a c).foldl (feed a) e = (timesX a)^[a.w] (e ^^^ c) := by
  have h1 := h.w1; have h2 := h.w2
  -- suffices for e ^ c via linear; show (crcBits c).foldl feed 0 = timesX^w c
  have lin : (crcBits a c).length = a.w := by unfold crcBits; split <;> simp
  have : (crcBits a c).foldl (feed a) e = (crcBits a c).foldl (feed a) c ^^^ (timesX a)^[a.w] (c ^^^ e) := by
    have := foldl_feed_xor a (crcBits a c) c (c ^^^ e)
    rw [lin] at this
    rw [← this]; congr 1
    rw [← BitVec.xor_assoc]; simp
  rw [this]
  have z : (crcBits a c).foldl (feed a) c = 0 := by
    unfold crcBits feed timesX mulX
    by_cases hr : a.refIn = true
    · simp only [hr, if_true]
      have key : ∀ (n : Nat) (c : Word), isBits n c = true → n ≤ 64 → ((List.range n).map fun i => c.getLsbD i).foldl (fun (e : Word) (bit : Bool) => (e ^^^ (if bit then BitVec.twoPow 64 0 else 0)) >>> 1 ^^^ (if (e ^^^ (if bit then BitVec.twoPow 64 0 else 0)).getLsbD 0 then polyEnc a else 0)) c = 0 := by
        intro n
        induction n with
        | zero => intro c hc _; simp [isBits] at hc; exact BitVec.eq_of_toNat_eq (by simpa using hc)
        | succ n ih =>
          intro c hc hn
          rw [List.range_succ_eq_map, List.map_cons, List.map_map, List.foldl_cons]
          have e1 : (c ^^^ (if c.getLsbD 0 then BitVec.twoPow 64 0 else 0)) >>> 1 ^^^ (if (c ^^^ (if c.getLsbD 0 then BitVec.twoPow 64 0 else 0)).getLsbD 0 then polyEnc a else 0) = c >>> 1 := by
            have : (c ^^^ (if c.getLsbD 0 then BitVec.twoPow 64 0 else 0)).getLsbD 0 = false := by
              rw [BitVec.getLsbD_xor]
              cases h : c.getLsbD 0 <;> simp [-BitVec.getLsbD_eq_getElem]
            rw [this]
            rw [ushiftRight_xor]
            cases c.getLsbD 0 <;> simp <;> rfl
          rw [e1]
          have hb : isBits n (c >>> 1) = true := by
            rw [isBits_iff] at hc ⊢
            intro i hi
            rw [BitVec.getLsbD_ushiftRight]; exact hc _ (by omega)
          have := ih (c >>> 1) hb (by omega)
          have hm : List.map (fun i => (c >>> 1).getLsbD i) (List.range n) = List.map ((fun i => c.getLsbD i) ∘ Nat.succ) (List.range n) := by
            apply List.map_congr_left; intro i _; simp [-BitVec.getLsbD_eq_getElem, Nat.add_comm]
          rw [hm] at this; exact this
      exact key a.w c hc h2
    · simp only [hr, Bool.false_eq_true, if_false]
      have key : ∀ (n : Nat) (c : Word), (∀ i, i + n < a.w → c.getLsbD i = false) → isBits a.w c = true → n ≤ a.w → ((List.range n).reverse.map fun i => c.getLsbD (i + (a.w - n))).foldl (fun (e : Word) (bit : Bool) => shl a.w (e ^^^ (if bit then BitVec.twoPow 64 (a.w-1) else 0)) 1 ^^^ (if (e ^^^ (if bit then BitVec.twoPow 64 (a.w-1) else 0)).getLsbD (a.w-1) then polyEnc a else 0)) c = 0 := by
        intro n
        induction n with
        | zero =>
          intro c hc hb _
          apply eq_of_isBits a.w _ _ hb (isBits_zero _)
          intro i hi _; rw [hc i (by omega)]; simp
        | succ n ih =>
          intro c hc hb hn
          rw [List.range_succ, List.reverse_append, List.reverse_singleton, List.singleton_append, List.map_cons, List.foldl_cons]
          have q : n + (a.w - (n+1)) = a.w - 1 := by omega
          rw [q]
          have hs : shl a.w (BitVec.twoPow 64 (a.w-1)) 1 = 0 := by
            apply BitVec.eq_of_getLsbD_eq
            intro i hi
            simp [-BitVec.getLsbD_eq_getElem, getLsbD_shl, BitVec.getLsbD_twoPow]
            omega
          have ht : (BitVec.twoPow 64 (a.w-1)).getLsbD (a.w-1) = true := by
            simp [-BitVec.getLsbD_eq_getElem, BitVec.getLsbD_twoPow]; omega
          have hz : shl a.w 0 1 = 0 := shl_zero _ _
          have e1 : shl a.w (c ^^^ (if c.getLsbD (a.w-1) then BitVec.twoPow 64 (a.w-1) else 0)) 1 ^^^ (if (c ^^^ (if c.getLsbD (a.w-1) then BitVec.twoPow 64 (a.w-1) else 0)).getLsbD (a.w-1) then polyEnc a else 0) = shl a.w c 1 := by
            have : (c ^^^ (if c.getLsbD (a.w-1) then BitVec.twoPow 64 (a.w-1) else 0)).getLsbD (a.w-1) = false := by
              rw [BitVec.getLsbD_xor]
              cases h : c.getLsbD (a.w-1)
              · simp [-BitVec.getLsbD_eq_getElem]
              · simp only [if_true, ht]; rfl
            rw [this]
            rw [shl_xor]
            cases c.getLsbD (a.w-1) <;> simp only [if_true, Bool.false_eq_true, if_false, hs, hz] <;> simp
          rw [e1]
          have := ih (shl a.w c 1) (by
            intro i hi
            rw [getLsbD_shl]
            by_cases h1 : 1 ≤ i
            · rw [hc (i-1) (by omega)]; simp
            · simp [h1]) (isBits_shl _ _ _) (by omega)
          have hm : List.map (fun i => (shl a.w c 1).getLsbD (i + (a.w - n))) (List.range n).reverse = List.map (fun i => c.getLsbD (i + (a.w - (n+1)))) (List.range n).reverse := by
            apply List.map_congr_left; intro i hi
            have hi' : i < n := by simpa using hi
            rw [getLsbD_shl]
            have q1 : i + (a.w - n) < 64 := by omega
            have q2 : i + (a.w - n) < a.w := by omega
            have q3 : 1 ≤ i + (a.w - n) := by omega
            have q4 : i + (a.w - n) - 1 = i + (a.w - (n+1)) := by omega
            simp [-BitVec.getLsbD_eq_getElem, q1, q2, q3, q4]
          rw [hm] at this; exact this
      have := key a.w c (by intro i hi; omega) hc (le_refl _)
      simpa using this
  rw [z]; simp [BitVec.xor_comm]

end Sys2Proof.Machine
end

