-- ==== Sys2Proof/Laws/Lanes.lean ====
section
/-!
SUPPORT. Sys2Proof/Laws/Lanes.lean: what a lane table's entry is, and a block step as the byte steps of its bytes.
-/

namespace Sys2Proof.Machine

/-- `Fold` is the byte step of a zero byte (41_table_builder.md rule R154). -/
theorem foldZero_eq_byteStep (nw : Nat) (a : ActiveConfig) (tables) (ht : tables.getD 0 [] = baseTable nw (epoly nw a) a.refIn)
   (hnw : nw = 32 ∨ nw = 64) (v : Word) (hv : isBits nw v = true) :
   foldZero nw a.refIn (baseTable nw (epoly nw a) a.refIn) v = byteStep nw a tables v 0 := by
  unfold foldZero byteStep tableEntry
  rw [ht]
  have e1 : (v &&& 0xFF).toNat = (lowByte v ^^^ (0:Byte)).toNat := by
    simp [lowByte]
    rw [show (255:Nat) = 2^8-1 from rfl, Nat.and_two_pow_sub_one_eq_mod]
  have e2 : (v >>> (nw-8)).toNat = (lowByte (v >>> (nw-8)) ^^^ (0:Byte)).toNat := by
    simp [lowByte]
    rw [Nat.mod_eq_of_lt]
    simp [isBits] at hv
    rw [Nat.shiftRight_eq_div_pow]
    apply Nat.div_lt_of_lt_mul
    rcases hnw with rfl | rfl <;> simpa using hv
  rw [e1, e2]

theorem zeroByte_xor (nw) (a) (u v : Word) : zeroByte nw a (u ^^^ v) = zeroByte nw a u ^^^ zeroByte nw a v :=
  divide_iterate_xor nw a 8 u v

theorem zeroByte_iterate_xor (nw : Nat) (a : ActiveConfig) (k : Nat) (u v : Word) :
    (zeroByte nw a)^[k] (u ^^^ v) = (zeroByte nw a)^[k] u ^^^ (zeroByte nw a)^[k] v := by
  induction k generalizing u v with
  | zero => rfl
  | succ k ih => simp only [Function.iterate_succ_apply, zeroByte_xor, ih]

/-- `Fold` is eight division steps. -/
theorem foldZero_eq_zeroByte (nw : Nat) (a : ActiveConfig) (hnw : nw = 32 ∨ nw = 64) (v : Word) (hv : isBits nw v = true) :
   foldZero nw a.refIn (baseTable nw (epoly nw a) a.refIn) v = zeroByte nw a v := by
  rw [foldZero_eq_byteStep nw a [baseTable nw (epoly nw a) a.refIn] rfl hnw v hv,
    byteStep_eq_zeroByte nw hnw a _ rfl v hv]
  congr 1
  have : inject nw a 8 ((0:Byte).setWidth 64) = 0 := by
    unfold inject; split
    · rfl
    · exact shl_zero nw (nw-8)
  rw [this]; simp

/-- Table `k` is table 0 folded `k` times (41_table_builder.md rule R154). -/
theorem laneTables_getD (nw) (refIn) (t0 : List Word) (count : Nat) (t : List Word) (k : Nat) (hk : k < count) :
    (laneTables nw refIn t0 count t).getD k [] = (List.map (foldZero nw refIn t0))^[k] t := by
  induction count generalizing t k with
  | zero => omega
  | succ n ih =>
    cases k with
    | zero => simp [laneTables]
    | succ k =>
      simp only [laneTables, List.getD_cons_succ, Function.iterate_succ_apply]
      exact ih _ _ (by omega)

theorem isBits_zeroByte (nw) (h : nw ≤ 64) (a) (v : Word) (hv : isBits nw v = true) : isBits nw (zeroByte nw a v) = true :=
  isBits_divide_iterate nw h a 8 v hv

theorem isBits_zeroByte_iterate (nw) (h : nw ≤ 64) (a) (k) (v : Word) (hv : isBits nw v = true) : isBits nw ((zeroByte nw a)^[k] v) = true := by
  induction k generalizing v with
  | zero => exact hv
  | succ k ih => exact ih _ (isBits_zeroByte nw h a v hv)

theorem isBits_inject (nw : Nat) (hnw : nw = 32 ∨ nw = 64) (a : ActiveConfig) (b : Byte) : isBits nw (inject nw a 8 (b.setWidth 64)) = true := by
  unfold inject
  split
  · rw [isBits_iff]; intro i hi
    have : 8 ≤ i := by omega
    simp [-BitVec.getLsbD_eq_getElem, BitVec.getLsbD_of_ge b i this]
  · exact isBits_shl _ _ _

theorem map_iterate (f : Word → Word) (k : Nat) (t : List Word) : (List.map f)^[k] t = t.map f^[k] := by
  induction k generalizing t with
  | zero => simp
  | succ k ih => simp [Function.iterate_succ_apply, ih, Function.iterate_succ]

/-- An entry of lane table `k` is the byte followed by `k` zero bytes, as division steps. -/
theorem tableEntry_buildLaneTables (nw : Nat) (hnw : nw = 32 ∨ nw = 64) (a : ActiveConfig) (L k : Nat) (hk : k < L) (b : Byte) :
    tableEntry (buildLaneTables nw (epoly nw a) a.refIn L) k b.toNat
      = (zeroByte nw a)^[k+1] (inject nw a 8 (b.setWidth 64)) := by
  unfold tableEntry buildLaneTables
  rw [laneTables_getD _ _ _ _ _ _ hk, map_iterate]
  have hb := b.isLt
  have hlen : (baseTable nw (epoly nw a) a.refIn).length = 256 := by
    unfold baseTable buildReflected buildUnreflected; split <;> simp
  have e0 := baseTable_getD nw a b.toNat hb
  rw [List.getD_eq_getElem?_getD, List.getElem?_map] 
  rw [List.getD_eq_getElem?_getD] at e0
  rw [List.getElem?_eq_getElem (by omega)] at e0 ⊢
  simp only [Option.map_some, Option.getD_some] at e0 ⊢
  rw [e0, BitVec.ofNat_toNat, Function.iterate_succ_apply]
  have hI := isBits_zeroByte nw (by omega) a _ (isBits_inject nw hnw a b)
  generalize zeroByte nw a (inject nw a 8 (b.setWidth 64)) = x at hI
  clear e0 hk
  induction k generalizing x with
  | zero => rfl
  | succ k ih =>
    rw [Function.iterate_succ_apply, Function.iterate_succ_apply, foldZero_eq_zeroByte nw a hnw x hI]
    exact ih _ (isBits_zeroByte nw (by omega) a _ hI)

/-- The register shifted by one byte, without the lookup. -/
def shiftByte (nw : Nat) (a : ActiveConfig) (acc : Word) : Word := if a.refIn then acc >>> 8 else shl nw acc 8

/-- The register byte the next byte is added to. -/
def regPart (nw : Nat) (a : ActiveConfig) (acc : Word) : Byte := lowByte (if a.refIn then acc else acc >>> (nw-8))

/-- A zero byte through the register: the lookup of the register byte, and the shift. -/
theorem zeroByte_split (nw : Nat) (hnw : nw = 32 ∨ nw = 64) (a : ActiveConfig) (acc : Word) (h : isBits nw acc = true) :
    zeroByte nw a acc = zeroByte nw a (inject nw a 8 ((regPart nw a acc).setWidth 64)) ^^^ shiftByte nw a acc := by
  have h0 := byteStep_eq_zeroByte nw hnw a [baseTable nw (epoly nw a) a.refIn] rfl acc h 0
  have e : acc ^^^ inject nw a 8 ((0:Byte).setWidth 64) = acc := by
    have : inject nw a 8 ((0:Byte).setWidth 64) = 0 := by
      unfold inject; split
      · rfl
      · exact shl_zero nw (nw-8)
    rw [this]; simp
  rw [e] at h0
  rw [← h0]
  have hT := tableEntry_buildLaneTables nw hnw a 1 0 (by omega) (regPart nw a acc)
  unfold byteStep shiftByte
  have hT2 : tableEntry [baseTable nw (epoly nw a) a.refIn] 0 (regPart nw a acc).toNat = zeroByte nw a (inject nw a 8 ((regPart nw a acc).setWidth 64)) := by
    exact hT
  rw [← hT2]
  unfold regPart
  by_cases hr : a.refIn = true <;> simp [hr]

theorem regByte_zero (nw : Nat) (hnw : nw = 32 ∨ nw = 64) (a) (acc) : regByte nw a.refIn acc 0 = regPart nw a acc := by
  unfold regByte regPart
  rcases hnw with rfl | rfl <;> by_cases hr : a.refIn = true <;> simp [hr]

theorem isBits_shiftByte (nw a v) (h : isBits nw v = true) : isBits nw (shiftByte nw a v) = true := by
  unfold shiftByte; split
  · exact isBits_ushiftRight _ _ _ h
  · exact isBits_shl _ _ _

/-- Register byte `i` of the shifted register is register byte `i + 1`. -/
theorem regByte_shift (nw : Nat) (hnw : nw = 32 ∨ nw = 64) (a) (acc) (hacc : isBits nw acc = true) (i : Nat) :
   regByte nw a.refIn (shiftByte nw a acc) i = regByte nw a.refIn acc (i+1) := by
  rw [isBits_iff] at hacc
  unfold regByte shiftByte
  apply BitVec.eq_of_getLsbD_eq
  intro j hj
  by_cases hr : a.refIn = true
  · simp only [hr, if_true]
    by_cases h1 : nw/8 ≤ i
    · have h2 : nw/8 ≤ i+1 := by omega
      simp [h1, h2]
    · by_cases h2 : nw/8 ≤ i+1
      · simp only [h1, h2, if_false, if_true, lowByte]
        simp [-BitVec.getLsbD_eq_getElem, hj]
        apply hacc; omega
      · simp only [h1, h2, if_false, lowByte]
        simp [-BitVec.getLsbD_eq_getElem, hj]
        congr 1; omega
  · simp only [hr, Bool.false_eq_true, if_false]
    by_cases h1 : nw/8 ≤ i
    · have h2 : nw/8 ≤ i+1 := by omega
      simp [h1, h2]
    · by_cases h2 : nw/8 ≤ i+1
      · have e1 : ¬ (8 ≤ nw - 8*(i+1) + j) := by omega
        simp only [h1, h2, if_false, if_true, lowByte]
        simp [-BitVec.getLsbD_eq_getElem, hj, getLsbD_shl]
        intros; omega
      · have e1 : (8 ≤ nw - 8*(i+1) + j) := by omega
        have e2 : nw - 8*(i+1) + j < 64 := by omega
        have e3 : nw - 8*(i+1) + j < nw := by omega
        simp only [h1, h2, if_false, lowByte]
        simp [-BitVec.getLsbD_eq_getElem, hj, getLsbD_shl, e1, e2, e3]
        congr 1; omega

/-- `m` zero bytes through the register, register byte by register byte. -/
theorem zeroByte_iterate_split (nw : Nat) (hnw : nw = 32 ∨ nw = 64) (a : ActiveConfig) (m : Nat) (acc : Word) (h : isBits nw acc = true) :
    (zeroByte nw a)^[m] acc = (List.range m).foldl (fun x i => x ^^^ (zeroByte nw a)^[m - i] (inject nw a 8 ((regByte nw a.refIn acc i).setWidth 64))) ((shiftByte nw a)^[m] acc) := by
  induction m generalizing acc with
  | zero => rfl
  | succ m ih =>
    rw [Function.iterate_succ_apply, zeroByte_split nw hnw a acc h, zeroByte_iterate_xor, ih _ (isBits_shiftByte nw a acc h)]
    rw [List.range_succ_eq_map, List.foldl_cons, List.foldl_map, Function.iterate_succ_apply]
    have hx : ∀ (l : List Nat) (f : Nat → Word) (x y : Word), x ^^^ l.foldl (fun z i => z ^^^ f i) y = l.foldl (fun z i => z ^^^ f i) (y ^^^ x) := by
      intro l f
      induction l with
      | nil => intro x y; simp [BitVec.xor_comm]
      | cons b l ih2 =>
        intro x y
        simp only [List.foldl_cons]
        rw [ih2]; congr 1; rw [BitVec.xor_assoc, BitVec.xor_comm (f b), BitVec.xor_assoc]
    rw [hx]
    simp only [regByte_zero nw hnw, Nat.sub_zero, Function.iterate_succ_apply, Nat.succ_eq_add_one, Nat.reduceSubDiff]
    congr 1
    funext x i
    rw [regByte_shift nw hnw a acc h]

/-- Byte steps over a sequence, byte by byte: each byte contributes its lane-table entry. -/
theorem foldl_byteStep (nw : Nat) (hnw : nw = 32 ∨ nw = 64) (a : ActiveConfig) (tables) (ht : tables.getD 0 [] = baseTable nw (epoly nw a) a.refIn)
   (ds : List Byte) (acc : Word) (h : isBits nw acc = true) :
   ds.foldl (byteStep nw a tables) acc = (List.range ds.length).foldl (fun x i => x ^^^ (zeroByte nw a)^[ds.length - i] (inject nw a 8 ((ds.getD i 0).setWidth 64))) ((zeroByte nw a)^[ds.length] acc) := by
  induction ds generalizing acc with
  | nil => rfl
  | cons d ds ih =>
    rw [List.foldl_cons, byteStep_eq_zeroByte nw hnw a tables ht acc h]
    rw [ih _ (isBits_zeroByte nw (by omega) a _ (isBits_xor _ _ _ h (isBits_inject nw hnw a d)))]
    simp only [List.length_cons]
    rw [List.range_succ_eq_map, List.foldl_cons, List.foldl_map]
    simp only [Nat.sub_zero, Nat.succ_eq_add_one, Nat.reduceSubDiff, List.getD_cons_zero, List.getD_cons_succ]
    congr 1
    rw [← zeroByte_iterate_xor, Function.iterate_succ_apply]

/-- `m` byte shifts at once. -/
theorem shiftByte_iterate (nw : Nat) (hnw : nw ≤ 64) (a : ActiveConfig) (m : Nat) (acc : Word) (h : isBits nw acc = true) :
   (shiftByte nw a)^[m] acc = if a.refIn then acc >>> (8*m) else shl nw acc (8*m) := by
  induction m generalizing acc with
  | zero => 
    simp
    intro _
    apply eq_of_isBits nw _ _ h (isBits_shl _ _ _)
    intro i hi h64
    simp [-BitVec.getLsbD_eq_getElem, getLsbD_shl, hi, h64]
  | succ m ih =>
    rw [Function.iterate_succ_apply, ih _ (isBits_shiftByte nw a acc h)]
    unfold shiftByte
    by_cases hr : a.refIn = true
    · simp only [hr, if_true]
      rw [← BitVec.shiftRight_add]; congr 1; omega
    · simp only [hr, Bool.false_eq_true, if_false]
      apply BitVec.eq_of_getLsbD_eq
      intro i hi
      simp only [getLsbD_shl]
      by_cases h1 : 8*m ≤ i
      · by_cases h2 : 8 ≤ i - 8*m
        · have e1 : 8*(m+1) ≤ i := by omega
          have e2 : i - 8*m - 8 = i - 8*(m+1) := by omega
          by_cases h3 : i < nw
          · have : i - 8*m < nw := by omega
            have h5 : i - 8*m < 64 := by omega
            simp [-BitVec.getLsbD_eq_getElem, h1, h2, e1, e2, h3, this, hi, h5]
          · simp [h3]
        · have e1 : ¬ 8*(m+1) ≤ i := by omega
          simp [h1, h2, e1]
      · have e1 : ¬ 8*(m+1) ≤ i := by omega
        simp [h1, e1]

/-- Two sums of one index range are one sum. -/
theorem xor_foldl_two (l : List Nat) (f g : Nat → Word) (x : Word) :
   l.foldl (fun z i => z ^^^ f i) (l.foldl (fun z i => z ^^^ g i) x) = l.foldl (fun z i => z ^^^ (f i ^^^ g i)) x := by
  have hx : ∀ (l : List Nat) (f : Nat → Word) (x y : Word), l.foldl (fun z i => z ^^^ f i) (y ^^^ x) = l.foldl (fun z i => z ^^^ f i) y ^^^ x := by
      intro l f
      induction l with
      | nil => intro x y; rfl
      | cons b l ih2 =>
        intro x y
        simp only [List.foldl_cons]
        rw [← ih2]; congr 1; rw [BitVec.xor_assoc, BitVec.xor_comm x, BitVec.xor_assoc]
  induction l generalizing x with
  | nil => rfl
  | cons b l ih =>
    simp only [List.foldl_cons]
    rw [← ih]
    rw [show x ^^^ (f b ^^^ g b) = (x ^^^ g b) ^^^ f b by rw [BitVec.xor_assoc, BitVec.xor_comm (f b)]]
    simp only [hx]

theorem inject_xor (nw a) (k) (u v : Word) : inject nw a k (u ^^^ v) = inject nw a k u ^^^ inject nw a k v := by
  unfold inject; split
  · rfl
  · exact shl_xor _ _ _ _

/-- A block step is the byte steps of its bytes (42_crc_engine.md rule R180). -/
theorem blockStep_eq (nw : Nat) (hnw : nw = 32 ∨ nw = 64) (a : ActiveConfig) (acc : Word) (h : isBits nw acc = true) (ds : List Byte) (hl : ds.length = a.lanes) (T) (hT : T.getD 0 [] = baseTable nw (epoly nw a) a.refIn):
   blockStep nw a (buildLaneTables nw (epoly nw a) a.refIn a.lanes) acc ds = ds.foldl (byteStep nw a T) acc := by
  rw [foldl_byteStep nw hnw a T hT ds acc h]
  rw [zeroByte_iterate_split nw hnw a _ acc h, xor_foldl_two, shiftByte_iterate nw (by omega) a _ acc h, hl]
  unfold blockStep
  apply List.foldl_ext
  intro x i hi
  have hi' : i < a.lanes := List.mem_range.mp hi
  rw [tableEntry_buildLaneTables nw hnw a a.lanes _ (by omega)]
  rw [BitVec.setWidth_xor, inject_xor, zeroByte_iterate_xor]
  rw [show a.lanes - 1 - i + 1 = a.lanes - i by omega]

end Sys2Proof.Machine
end

