-- ==== Sys2Proof/Laws/Remainder.lean ====
section
/-!
SUPPORT. Sys2Proof/Laws/Remainder.lean: bit steps as division steps, and the engine register as the reference's
remainder in its place.
-/

namespace Sys2Proof.Machine

/-- The register place one message bit is fed in at. -/
def injBit (nw : Nat) (a : ActiveConfig) (b : Bool) : Word := if b then (if a.refIn then 1 else BitVec.twoPow 64 (nw-1)) else 0

/-- A bit step is a division step of the register with the bit fed in (42_crc_engine.md rule R175). -/
theorem bitStep_eq (nw : Nat) (h1 : 1 ≤ nw) (h2 : nw ≤ 64) (a : ActiveConfig) (acc : Word) (b : Bool) :
    bitStep nw a acc b = divide nw a (acc ^^^ injBit nw a b) := by
  unfold bitStep divide divideReflected divideNatural injBit
  apply BitVec.eq_of_getLsbD_eq
  intro i hi
  by_cases hr : a.refIn = true
  · simp only [hr, if_true]
    cases b
    · simp [-BitVec.getLsbD_eq_getElem]
      split <;> simp [-BitVec.getLsbD_eq_getElem]
    · have : (1#64).getLsbD (1+i) = false := by simp
      simp [-BitVec.getLsbD_eq_getElem]
      split <;> simp_all [-BitVec.getLsbD_eq_getElem]
  · simp only [hr, Bool.false_eq_true, if_false]
    cases b
    · simp [-BitVec.getLsbD_eq_getElem]
      split <;> simp [-BitVec.getLsbD_eq_getElem]
    · have ht : (BitVec.twoPow 64 (nw-1)).getLsbD (nw-1) = true := by
        simp [-BitVec.getLsbD_eq_getElem, BitVec.getLsbD_twoPow]; omega
      have hs : shl nw (BitVec.twoPow 64 (nw-1)) 1 = 0 := by
        apply BitVec.eq_of_getLsbD_eq
        intro i hi
        simp [-BitVec.getLsbD_eq_getElem, getLsbD_shl, BitVec.getLsbD_twoPow]
        omega
      simp only [if_true, BitVec.getLsbD_xor, ht, shl_xor, hs, BitVec.xor_zero]
      cases acc.getLsbD (nw-1) <;> simp [-BitVec.getLsbD_eq_getElem]

/-- The bit steps of a `k`-bit number are `k` division steps of the register with the number injected. -/
theorem messageBits_foldl (nw : Nat) (h2 : nw = 32 ∨ nw = 64) (a : ActiveConfig) (k : Nat) (hk : k ≤ 8) (v : Byte) (hv : v.toNat < 2^k) (acc : Word) (hacc : isBits nw acc = true):
    (messageBits a.refIn k v).foldl (bitStep nw a) acc = (divide nw a)^[k] (acc ^^^ inject nw a k (v.setWidth 64)) := by
  have h3 : nw ≤ 64 := by omega
  unfold messageBits inject
  by_cases hr : a.refIn = true
  · simp only [hr, if_true]
    induction k generalizing v acc with
    | zero =>
      obtain rfl : v = 0 := BitVec.eq_of_toNat_eq (by simpa using hv)
      simp
    | succ k ih =>
      rw [List.range_succ_eq_map, List.map_cons, List.map_map, List.foldl_cons, bitStep_eq nw (by omega) h3, Function.iterate_succ_apply]
      have e := ih (by omega) (v >>> 1) (by simp [Nat.shiftRight_eq_div_pow]; omega) (divide nw a (acc ^^^ injBit nw a (v.getLsbD 0)))
        (isBits_divide nw h3 a _ (isBits_xor _ _ _ hacc (by unfold injBit; simp [hr, isBits_iff]; intro i hi; split <;> simp [-BitVec.getLsbD_eq_getElem, BitVec.getLsbD_one]; omega)))
      have hm : List.map (fun i => BitVec.getLsbD (v >>> 1) i) (List.range k) = List.map ((fun i => BitVec.getLsbD v i) ∘ Nat.succ) (List.range k) := by
        apply List.map_congr_left; intro i _; simp [-BitVec.getLsbD_eq_getElem, Nat.add_comm]
      rw [hm] at e
      rw [e]
      congr 1
      have hs : (v.setWidth 64 : Word) = injBit nw a (v.getLsbD 0) ^^^ ((v >>> 1).setWidth 64 <<< 1) := by
        apply BitVec.eq_of_getLsbD_eq
        intro i hi
        unfold injBit
        simp only [hr, if_true]
        by_cases h0 : i = 0
        · subst h0; cases h : v.getLsbD 0 <;> simp [-BitVec.getLsbD_eq_getElem, h]
        · have : 1 + (i - 1) = i := by omega
          split <;> simp [-BitVec.getLsbD_eq_getElem, BitVec.getLsbD_one, h0, hi, this] <;> omega
      rw [hs, ← BitVec.xor_assoc, divide_xor nw a (acc ^^^ injBit nw a _)]
      congr 1
      unfold divide; simp only [hr, if_true]
      rw [divideReflected_even _ _ (by simp)]
      apply BitVec.eq_of_getLsbD_eq
      intro i hi
      simp [-BitVec.getLsbD_eq_getElem]
      try (intro h; omega)
  · simp only [hr, Bool.false_eq_true, if_false]
    induction k generalizing v acc with
    | zero =>
      obtain rfl : v = 0 := BitVec.eq_of_toNat_eq (by simpa using hv)
      have h0 := shl_zero nw nw
      simp at h0
      simp [h0]
    | succ k ih =>
      rw [List.range_succ, List.reverse_append, List.reverse_singleton, List.singleton_append, List.map_cons, List.foldl_cons, bitStep_eq nw (by omega) h3, Function.iterate_succ_apply]
      have hv' : (v &&& BitVec.ofNat 8 (2^k-1)).toNat = v.toNat % 2^k := by
        have : 2^k - 1 < 256 := by
          have : 2^k ≤ 2^8 := Nat.pow_le_pow_right (by omega) (by omega)
          omega
        simp [Nat.mod_eq_of_lt this, Nat.and_two_pow_sub_one_eq_mod]
      have e := ih (by omega) (v &&& BitVec.ofNat 8 (2^k-1)) (by rw [hv']; exact Nat.mod_lt _ (by positivity)) (divide nw a (acc ^^^ injBit nw a (v.getLsbD k)))
        (isBits_divide nw h3 a _ (isBits_xor _ _ _ hacc (by unfold injBit; simp [hr, isBits_iff]; intro i hi; split <;> simp [-BitVec.getLsbD_eq_getElem, BitVec.getLsbD_twoPow]; omega)))
      have hg : ∀ i, (v &&& BitVec.ofNat 8 (2^k-1)).getLsbD i = (decide (i<k) && v.getLsbD i) := by
        intro i
        by_cases h8 : i < 8
        · simp [-BitVec.getLsbD_eq_getElem, BitVec.getLsbD_ofNat, h8]
          have := @Nat.testBit_two_pow_sub_one k i
          cases h5 : v.getLsbD i <;> simp [this]
        · simp [-BitVec.getLsbD_eq_getElem, BitVec.getLsbD_of_ge _ i (by omega : 8 ≤ i)]
      have hm : List.map (fun i => BitVec.getLsbD (v &&& BitVec.ofNat 8 (2^k-1)) i) (List.range k).reverse = List.map (fun i => BitVec.getLsbD v i) (List.range k).reverse := by
        apply List.map_congr_left; intro i hi; 
        have : i < k := by simpa using hi
        rw [hg]; simp [this]
      rw [hm] at e
      rw [e]
      congr 1
      clear hm e hv'
      generalize v &&& BitVec.ofNat 8 (2^k-1) = v' at *
      have hs : shl nw (v.setWidth 64) (nw - (k+1)) = injBit nw a (v.getLsbD k) ^^^ shl nw (v'.setWidth 64) (nw - (k+1)) := by
        apply BitVec.eq_of_getLsbD_eq
        intro i hi
        unfold injBit
        simp only [hr, Bool.false_eq_true, if_false]
        by_cases h0 : i = nw - 1
        · have e1 : i - (nw - (k+1)) = k := by omega
          have e2 : i < nw := by omega
          have e3 : nw - (k+1) ≤ i := by omega
          have e4 : nw - 1 - (nw - (k+1)) = k := by omega
          subst h0
          cases h : v.getLsbD k <;> simp [-BitVec.getLsbD_eq_getElem, getLsbD_shl, hg, e1, e2, e3, e4, h, hi, BitVec.getLsbD_twoPow] <;> omega
        · have e0 : ¬ (nw - 1 = i) := by omega
          by_cases h6 : i < nw
          · by_cases h7 : nw - (k+1) ≤ i
            · have : i - (nw - (k+1)) < k := by omega
              have e9 : i - (nw-(k+1)) < 64 := by omega
              split <;> simp [-BitVec.getLsbD_eq_getElem, getLsbD_shl, hg, BitVec.getLsbD_twoPow, e0, h6, h7, this, e9]
            · split <;> simp [-BitVec.getLsbD_eq_getElem, getLsbD_shl, BitVec.getLsbD_twoPow, e0, h7]
          · split <;> simp [-BitVec.getLsbD_eq_getElem, getLsbD_shl, BitVec.getLsbD_twoPow, e0, h6]
      rw [hs, ← BitVec.xor_assoc, divide_xor nw a (acc ^^^ injBit nw a _)]
      congr 1
      unfold divide; simp only [hr, Bool.false_eq_true, if_false]
      rw [divideNatural_low]
      · apply BitVec.eq_of_getLsbD_eq
        intro i hi
        simp only [getLsbD_shl]
        by_cases h6 : i < nw
        · by_cases h7 : nw - k ≤ i
          · have a1 : 1 ≤ i := by omega
            have a2 : i - 1 < 64 := by omega
            have a3 : i - 1 < nw := by omega
            have a4 : nw - (k+1) ≤ i - 1 := by omega
            have a5 : i - 1 - (nw - (k+1)) = i - (nw - k) := by omega
            simp [-BitVec.getLsbD_eq_getElem, a1,a2,a3,a4,a5,h6,h7,hi]
          · by_cases h9 : 1 ≤ i
            · have a4 : ¬ (nw - (k+1) ≤ i - 1) := by omega
              simp [h7, a4]
            · simp [h7, h9]
        · simp [h6]
      · rw [getLsbD_shl, BitVec.getLsbD_setWidth, hg]
        have : ¬ (nw - 1 - (nw - (k+1)) < k) := by omega
        simp [this]

/-- One bit step of the engine register is one bit of the reference (42_crc_engine.md rule R171). -/
theorem engineRegister_bit (nw : Nat) (h2 : nw = 32 ∨ nw = 64) (a : ActiveConfig) (ha : a.Legal nw) (reg : Word) (hreg : isBits a.w reg = true) (b : Bool) :
   bitStep nw a (engineRegister nw a reg) b = engineRegister nw a (refBit a reg b) := by
  obtain ⟨w1, w2, wp, wi, wx, -⟩ := ha
  have h3 : nw ≤ 64 := by omega
  have h4 : a.w ≤ 64 := by omega
  unfold bitStep engineRegister refBit
  generalize hw : a.w = w at *
  rw [isBits_iff] at hreg wp
  have hPR : a.refIn = true → ∀ i, (reflectedPoly nw a).getLsbD i = (decide (i < w) && a.apoly.getLsbD (w-1-i)) := by
    intro _ i
    unfold reflectedPoly epoly alignShift
    rw [getLsbD_bitrev nw h3, getLsbD_shl, hw]
    by_cases h5 : i < w
    · have q1 : i < nw := by omega
      have q2 : nw - 1 - i < 64 := by omega
      have q3 : nw - 1 - i < nw := by omega
      have q4 : nw - w ≤ nw - 1 - i := by omega
      have q5 : nw - 1 - i - (nw - w) = w - 1 - i := by omega
      simp [-BitVec.getLsbD_eq_getElem, h5, q1,q2,q3,q4,q5]
    · by_cases h6 : i < nw
      · have q4 : ¬ (nw - w ≤ nw - 1 - i) := by omega
        simp [h5, q4]
      · simp [h5, h6]
  apply BitVec.eq_of_getLsbD_eq
  intro i hi
  by_cases hr : a.refIn = true
  · simp only [hr, if_true]
    rw [BitVec.getLsbD_xor, BitVec.getLsbD_ushiftRight, getLsbD_bitrev _ h4, getLsbD_bitrev _ h4, getLsbD_bitrev _ h4, BitVec.getLsbD_xor, getLsbD_shl]
    have q0 : (0 < w) := by omega
    simp only [q0, decide_true, Bool.true_and, Nat.sub_zero]
    have hif : ∀ c : Bool, (if c then reflectedPoly nw a else 0).getLsbD i = (c && (decide (i < w) && a.apoly.getLsbD (w-1-i))) := by
      intro c; cases c <;> simp [-BitVec.getLsbD_eq_getElem, hPR hr]
    have hif2 : ∀ c : Bool, (if c then a.apoly else 0).getLsbD (w-1-i) = (c && a.apoly.getLsbD (w-1-i)) := by
      intro c; cases c <;> simp [-BitVec.getLsbD_eq_getElem]
    rw [hif, hif2]
    by_cases h5 : i < w
    · by_cases h6 : 1 + i < w
      · have q1 : w-1-i < 64 := by omega
        have q2 : w-1-i < w := by omega
        have q3 : 1 ≤ w-1-i := by omega
        have q4 : w - 1 - i - 1 = w - 1 - (1+i) := by omega
        simp [-BitVec.getLsbD_eq_getElem, h5, h6, q1, q2, q3, q4]
      · have q3 : ¬ (1 ≤ w-1-i) := by omega
        simp [-BitVec.getLsbD_eq_getElem, h5, h6, q3]
    · have h6 : ¬ (1 + i < w) := by omega
      simp [h5, h6]
  · simp only [hr, Bool.false_eq_true, if_false, shl_xor]
    have ht : (shl nw reg (alignShift nw a)).getLsbD (nw-1) = reg.getLsbD (w-1) := by
      unfold alignShift
      rw [getLsbD_shl, hw]
      have q1 : nw - 1 < 64 := by omega
      have q2 : nw - 1 < nw := by omega
      have q3 : nw - w ≤ nw - 1 := by omega
      have q4 : nw - 1 - (nw - w) = w - 1 := by omega
      simp [-BitVec.getLsbD_eq_getElem, q1,q2,q3,q4]
    have hs : shl nw (shl nw reg (alignShift nw a)) 1 = shl nw (shl w reg 1) (alignShift nw a) := by
      unfold alignShift
      apply BitVec.eq_of_getLsbD_eq
      intro i hi
      rw [hw, getLsbD_shl, getLsbD_shl, getLsbD_shl, getLsbD_shl]
      by_cases h5 : i < nw
      · by_cases h6 : nw - w ≤ i
        · by_cases h7 : 1 ≤ i - (nw - w)
          · have q1 : 1 ≤ i := by omega
            have q2 : i - 1 < 64 := by omega
            have q3 : i - 1 < nw := by omega
            have q4 : nw - w ≤ i - 1 := by omega
            have q5 : i - 1 - (nw-w) = i - (nw - w) - 1 := by omega
            have q6 : i - (nw - w) < 64 := by omega
            have q7 : i - (nw-w) < w := by omega
            simp [-BitVec.getLsbD_eq_getElem, *]
          · by_cases h8 : 1 ≤ i
            · have q4 : ¬ (nw - w ≤ i - 1) := by omega
              simp [h7, q4]
            · simp [h7, h8]
        · by_cases h8 : 1 ≤ i
          · have q4 : ¬ (nw - w ≤ i - 1) := by omega
            simp [h6, q4]
          · simp [h6, h8]
      · simp [h5]
    rw [ht, hs]
    have hz := shl_zero nw (alignShift nw a)
    have hz' : shl nw 0#64 (alignShift nw a) = 0#64 := hz
    cases reg.getLsbD (w-1) <;> cases b <;> simp [epoly, hz']

/-- The reference's register stays a w-bit value. -/
theorem refBit_bits (a : ActiveConfig) (h : isBits a.w a.apoly = true) (reg) (b) : isBits a.w (refBit a reg b) = true := by
  unfold refBit
  apply isBits_xor
  · exact isBits_shl _ _ _
  · split
    · exact h
    · exact isBits_zero _

/-- Reversing an aligned value over the native width is reversing it over its own width. -/
theorem bitrev_shl (nw w : Nat) (hw : w ≤ nw) (hn : nw ≤ 64) (v : Word) : bitrev nw (shl nw v (nw - w)) = bitrev w v := by
  apply BitVec.eq_of_getLsbD_eq
  intro i hi
  rw [getLsbD_bitrev _ hn, getLsbD_bitrev _ (by omega), getLsbD_shl]
  by_cases h5 : i < w
  · have q1 : i < nw := by omega
    have q2 : nw - 1 - i < 64 := by omega
    have q3 : nw - 1 - i < nw := by omega
    have q4 : nw - w ≤ nw - 1 - i := by omega
    have q5 : nw - 1 - i - (nw - w) = w - 1 - i := by omega
    simp [-BitVec.getLsbD_eq_getElem, h5, q1,q2,q3,q4,q5]
  · by_cases h6 : i < nw
    · have q4 : ¬ (nw - w ≤ nw - 1 - i) := by omega
      simp [h5, q4]
    · simp [h5, h6]

/-- The reset value is the initial remainder in its place (42_crc_engine.md rule R172). -/
theorem resetValue_eq (nw : Nat) (h2 : nw = 32 ∨ nw = 64) (a : ActiveConfig) (ha : a.Legal nw) : resetValue nw a = engineRegister nw a a.ainit := by
  unfold resetValue engineRegister einit alignShift
  split
  · exact bitrev_shl _ _ ha.width_le (by omega) _
  · rfl

/-- Reversing a low-aligned reversed value over the native width aligns it at the top. -/
theorem bitrev_low (nw w : Nat) (hw : w ≤ nw) (hn : nw ≤ 64) (v : Word) (hv : isBits w v = true): bitrev nw (bitrev w v) = shl nw v (nw - w) := by
  rw [isBits_iff] at hv
  apply BitVec.eq_of_getLsbD_eq
  intro i hi
  rw [getLsbD_bitrev _ hn, getLsbD_bitrev _ (by omega), getLsbD_shl]
  by_cases h6 : i < nw
  · by_cases h5 : nw - w ≤ i
    · have q1 : nw - 1 - i < w := by omega
      have q5 : w - 1 - (nw - 1 - i) = i - (nw - w) := by omega
      simp [-BitVec.getLsbD_eq_getElem, h5, h6, q1,q5, hi]
    · have q1 : ¬ nw - 1 - i < w := by omega
      simp [h5, q1]
  · simp [h6]

/-- Shifting up and down again. -/
theorem shl_back (nw w : Nat) (hw : w ≤ nw) (hn : nw ≤ 64) (v : Word) (hv : isBits w v = true) : (shl nw v (nw - w)) >>> (nw - w) = v := by
  rw [isBits_iff] at hv
  apply BitVec.eq_of_getLsbD_eq
  intro i hi
  rw [BitVec.getLsbD_ushiftRight, getLsbD_shl]
  by_cases h : i < w
  · have q1 : nw - w + i < 64 := by omega
    have q2 : nw - w + i < nw := by omega
    simp [-BitVec.getLsbD_eq_getElem, q1, q2]
  · rw [hv i (by omega)]; simp [-BitVec.getLsbD_eq_getElem]; intros; apply hv; omega

/-- `Finalize` of a remainder in its place is the reference's output step (43_width_adapter.md rule R206). -/
theorem finalize_eq (nw : Nat) (h2 : nw = 32 ∨ nw = 64) (a : ActiveConfig) (ha : a.Legal nw) (reg : Word) (hreg : isBits a.w reg = true) :
   finalize nw a (engineRegister nw a reg) = refOutput a reg := by
  obtain ⟨w1, w2, wp, wi, wx, -⟩ := ha
  have h3 : nw ≤ 64 := by omega
  have h4 : a.w ≤ 64 := by omega
  have hxx := and_mask_of_isBits a.w
  have hb := isBits_bitrev a.w h4 reg
  unfold finalize engineRegister refOutput exor alignShift
  cases hr : a.refIn <;> cases ho : a.refOut
  · simp only [Bool.false_eq_true, if_false, if_true]
    rw [← shl_xor, shl_back _ _ w2 h3 _ (isBits_xor _ _ _ hreg wx), hxx _ (isBits_xor _ _ _ hreg wx)]
  · simp only [Bool.false_eq_true, if_false, if_true, Bool.true_eq_false]
    rw [bitrev_shl _ _ w2 h3, hxx _ (isBits_xor _ _ _ hb wx)]
  · simp only [Bool.false_eq_true, if_false, if_true]
    rw [bitrev_low _ _ w2 h3 _ hreg, ← shl_xor, shl_back _ _ w2 h3 _ (isBits_xor _ _ _ hreg wx), hxx _ (isBits_xor _ _ _ hreg wx)]
  · simp only [if_true]
    rw [hxx _ (isBits_xor _ _ _ hb wx)]

end Sys2Proof.Machine
end

