-- ==== Sys2Proof/Laws/Invariant.lean ====
section
/-!
SUPPORT. Sys2Proof/Laws/Invariant.lean: what each kind of update does to the invariant, and the widths of the values the
engine computes.
-/

namespace Sys2Proof.Machine

/-- The invariant speaks of these fields only. -/
theorem inv_of_same_fields (s t : State) (h : s.Inv) (h1 : t.params = s.params) (h2 : t.cfgValid = s.cfgValid) (h3 : t.active = s.active) (h4 : t.tables = s.tables) (h5 : t.field = s.field)
  (h6 : t.err = s.err) (h7 : t.errCode = s.errCode) (h8 : t.faultCmd = s.faultCmd) (h9 : t.acc = s.acc) (h10 : t.dmem = s.dmem) : t.Inv := by
  obtain ⟨a,⟨b1,b2,b3,b4⟩,⟨c1,c2⟩,d,e,f,g⟩ := h
  refine ⟨?_,⟨?_,?_,?_,?_⟩,⟨?_,?_⟩,?_,?_,?_,?_⟩ <;> simp only [State.nw, State.readAcc, h1,h2,h3,h4,h5,h6,h7,h8,h9,h10] <;> assumption


/-- Taking a fault keeps the invariant. -/
theorem inv_takeFault (s : State) (h : s.Inv) (k v) (hk : k ≠ .noFault) : (s.takeFault k v).Inv := by
  obtain ⟨a,⟨b1,b2,b3,b4⟩,⟨c1,c2⟩,d,e,f,g⟩ := h
  exact ⟨a,⟨b1,b2,b3,b4⟩,⟨by simp, by simpa using hk⟩,d,e,f,g⟩

/-- Leaving the error state keeps the invariant. -/
theorem inv_clearFault (s : State) (h : s.Inv) : s.clearFault.Inv := by
  obtain ⟨a,⟨b1,b2,b3,b4⟩,⟨c1,c2⟩,d,e,f,g⟩ := h
  exact ⟨a,⟨b1,b2,b3,b4⟩,⟨by simp, by simp⟩,d,e,f,g⟩

/-- Writing an nw-bit value to a context keeps the invariant. -/
theorem inv_setAcc (s : State) (h : s.Inv) (c v) (hv : isBits s.nw v = true) : (s.setAcc c v).Inv := by
  obtain ⟨a,⟨b1,b2,b3,b4⟩,⟨c1,c2⟩,d,e,f,g⟩ := h
  refine ⟨a,⟨b1,b2,b3,b4⟩,⟨c1,c2⟩,by simpa using d,?_,f,g⟩
  intro x
  by_cases hx : x = c
  · subst hx
    by_cases hl : x < s.acc.length
    · rw [State.setAcc_readAcc_same _ _ _ hl]; exact hv
    · have : (s.setAcc x v).readAcc x = 0 := by
        simp [State.readAcc, List.getD_eq_getElem?_getD, hl]
      rw [this]; exact isBits_zero _
  · rw [State.setAcc_readAcc_other _ _ _ _ hx]; exact e x

/-- The two native widths. -/
theorem nw_cases (s : State) : s.nw = 32 ∨ s.nw = 64 := by
  unfold State.nw; cases s.params.nw <;> simp [NativeWidth.bits]

/-- A configured block holds the base table of its configuration. -/
theorem tables_head (s : State) (h : s.Inv) (hv : s.cfgValid = true) : s.tables.getD 0 [] = baseTable s.nw (epoly s.nw s.active) s.active.refIn := by
  rw [h.config.tables hv]
  have := (h.config.legal hv).lanes
  unfold buildLaneTables
  rw [laneTables_getD _ _ _ _ _ _ (by omega)]; rfl

/-- A byte step gives an nw-bit value. -/
theorem byteStep_isBits (nw) (hnw : nw = 32 ∨ nw = 64) (a T) (hT : T.getD 0 [] = baseTable nw (epoly nw a) a.refIn) (acc : Word) (h : isBits nw acc = true) (b : Byte) : isBits nw (byteStep nw a T acc b) = true := by
  rw [byteStep_eq_zeroByte nw hnw a T hT acc h]
  exact isBits_zeroByte nw (by omega) a _ (isBits_xor _ _ _ h (isBits_inject nw hnw a b))

/-- A fed bit is an nw-bit value. -/
theorem injBit_isBits (nw) (hnw : nw = 32 ∨ nw = 64) (a b) : isBits nw (injBit nw a b) = true := by
  rw [isBits_iff]; intro i hi; unfold injBit
  cases b <;> cases a.refIn <;> simp [-BitVec.getLsbD_eq_getElem, BitVec.getLsbD_twoPow] <;> omega

/-- A bit step gives an nw-bit value. -/
theorem bitStep_isBits (nw) (hnw : nw = 32 ∨ nw = 64) (a) (acc : Word) (h : isBits nw acc = true) (b) : isBits nw (bitStep nw a acc b) = true := by
  rw [bitStep_eq nw (by omega) (by omega)]
  exact isBits_divide nw (by omega) a _ (isBits_xor _ _ _ h (injBit_isBits nw hnw a b))

/-- A fold of steps that keep the width keeps it. -/
theorem foldl_isBits {α} (nw) (f : Word → α → Word) (hf : ∀ x a, isBits nw x = true → isBits nw (f x a) = true) (l : List α) (x) (h : isBits nw x = true) : isBits nw (l.foldl f x) = true := by
  induction l generalizing x with
  | nil => exact h
  | cons a l ih => exact ih _ (hf _ _ h)

/-- A range update gives an nw-bit value. -/
theorem rangeValue_isBits (s : State) (h : s.Inv) (hv : s.cfgValid = true) (c) (bytes) : isBits s.nw (s.rangeValue c bytes) = true := by
  have hl := (h.config.legal hv).lanes
  have hb : ∀ (bs : List Byte) (acc), isBits s.nw acc = true → isBits s.nw (bs.foldl (byteStep s.nw s.active s.tables) acc) = true :=
    fun bs acc ha => foldl_isBits _ _ (fun x b hx => byteStep_isBits _ (nw_cases s) _ _ (tables_head s h hv) x hx b) _ _ ha
  unfold State.rangeValue updateRange
  have hacc := h.native c
  generalize s.readAcc c = acc at *
  split
  · generalize bytes.length = fuel
    induction fuel generalizing acc bytes with
    | zero => exact hb _ _ hacc
    | succ n ih =>
      unfold consumeBlocks
      split
      · rename_i hle
        apply ih
        rw [h.config.tables hv, blockStep_eq s.nw (nw_cases s) s.active acc hacc _ (by simpa using hle) s.tables (tables_head s h hv)]
        exact hb _ _ hacc
      · exact hb _ _ hacc
  · exact hb _ _ hacc

/-- The reset value is an nw-bit value. -/
theorem resetValue_isBits (nw) (hnw : nw = 32 ∨ nw = 64) (a) : isBits nw (resetValue nw a) = true := by
  unfold resetValue; split
  · exact isBits_bitrev _ (by omega) _
  · exact isBits_shl _ _ _

/-- No check raises the code of no fault. -/
theorem firstFault_checksOf_ne (s i k) (h : firstFault (checksOf s i) = some k) : k ≠ .noFault := by
  intro hk; subst hk
  cases i <;> simp only [checksOf, firstFault, checkWidth, checkCfg, checkConfigured, checkCtx, checkLanes, checkSubRange, checkBuffer] at h <;> (repeat' split at h) <;> simp at h

/-- The configuration an accepted CONFIGURE latches is legal (40_control.md rules R131, R132). -/
theorem latched_legal (s : State) (hf : firstFault (checksOf s .configure) = none) : (latched s.staging).Legal s.nw := by
  simp only [checksOf, firstFault, checkWidth, checkCfg, widthLegal, cfgLegal] at hf
  split at hf
  · simp at hf
  · split at hf
    · simp at hf
    · rename_i h1 h2
      simp at h1 h2
      have hn := nw_cases s
      have hw : (latched s.staging).w = s.staging.width.toNat := by
        simp [latched, ActiveConfig.w]; omega
      refine ⟨by omega, by omega, ?_, ?_, ?_, ?_⟩
      · rw [hw]; exact isBits_and_mask _ _
      · rw [hw]; exact isBits_and_mask _ _
      · rw [hw]; exact isBits_and_mask _ _
      · simp only [ActiveConfig.lanes, latched]
        by_cases q1 : cfgLanes s.staging.cfg = 1
        · rw [q1]; simp
        · by_cases q2 : cfgLanes s.staging.cfg = 8
          · rw [q2]; simp
          · rw [h2.2 q1 q2]; simp

/-- An engine or combiner command that no check stops runs on a configured block. -/
theorem configured_of_no_check (i : Instr) (s : State) (hc : i ≠ .configure) (hi : i ≠ .clearerr)
    (hf : firstFault (checksOf s i) = none) : s.cfgValid = true := by
  cases hcv : s.cfgValid
  · cases i <;> simp [checksOf, firstFault, checkConfigured, hcv] at hf hc hi
  · rfl

/-- A command on a context that no check stops names a context that exists. -/
theorem context_of_no_check (i : Instr) (s : State) (c : Nat) (hi : contextOf i = some c)
    (hf : firstFault (checksOf s i) = none) : c < s.params.nctx := by
  by_contra hc
  have hle : s.params.nctx ≤ c := by omega
  have hcv : s.cfgValid = true := by
    apply configured_of_no_check i s _ _ hf <;> (rintro rfl; simp [contextOf] at hi)
  have hk : firstFault (checksOf s i) ≠ none := by
    cases i <;> simp only [contextOf, Option.some.injEq, reduceCtorEq] at hi <;> subst hi <;>
      simp [checksOf, firstFault, checkConfigured, checkCtx, hcv, hle]
  exact hk hf

end Sys2Proof.Machine
end

