-- ==== Sys2Proof/Laws/PerInstr.lean ====
section
/-!
SUPPORT. Sys2Proof/Laws/PerInstr.lean: statements made of every command as syntax, one lemma per constructor.
-/

namespace Sys2Proof.Laws.RowOfEncoding

/-- Every context number and every operand value of the command encodes to a word that spells a row of
30_encoding.md rule R107, with the opcode in the row's low byte, and sets no reserved bit (rule R106). -/
def Statement (i : Instr) : Prop :=
  (∃ r ∈ opcodeRows, fieldOpc r.pattern = fieldOpc (encodeWord i) ∧ r.spells (encodeWord i) = true) ∧
    encodeWord i &&& 0xF800F000 = 0

/-- No packed word sets a reserved bit (30_encoding.md rule R106). -/
theorem packWord_reserved (opc : BitVec 8) (ctx : BitVec 4) (imm8 : BitVec 8) (nbits : BitVec 3) :
    packWord opc ctx imm8 nbits &&& 0xF800F000 = 0 := by
  have h0 : fieldOpc 0xF800F000 = 0 := by decide
  have h1 : fieldCtx 0xF800F000 = 0 := by decide
  have h2 : fieldImm8 0xF800F000 = 0 := by decide
  have h3 : fieldNbits 0xF800F000 = 0 := by decide
  rw [packWord_and, h0, h1, h2, h3]
  have hz : ∀ (n : Nat) (x : BitVec n), x &&& 0 = 0 := fun n x => BitVec.and_zero
  rw [hz, hz, hz, hz]
  decide

/-- A packed word with the opcode of a row and zeros where the row's mask has ones spells the row. -/
theorem statement_of_row (i : Instr) (opc : BitVec 8) (ctx : BitVec 4) (imm8 : BitVec 8) (nbits : BitVec 3)
    (h : encodeWord i = packWord opc ctx imm8 nbits) (r : OpcodeRow) (hr : r ∈ opcodeRows)
    (hp : r.pattern = packWord opc 0 0 0) (hm : fieldOpc r.mask = 0xFF) (hc : ctx &&& fieldCtx r.mask = 0)
    (hi : imm8 &&& fieldImm8 r.mask = 0) (hn : nbits &&& fieldNbits r.mask = 0) : Statement i := by
  refine ⟨⟨r, hr, ?_, ?_⟩, ?_⟩
  · rw [h, hp]
    simp
  · have ho : opc &&& 0xFF = opc := by
      rw [show (0xFF : BitVec 8) = BitVec.allOnes 8 from rfl, BitVec.and_allOnes]
    rw [h, spells_packWord r _ _ _ _ (by rw [hp]; simp)]
    rw [hp, hm, hc, hi, hn, ho]
    simp
  · rw [h]
    exact packWord_reserved _ _ _ _

theorem configure : Statement .configure :=
  statement_of_row _ 0x01 0 0 0 rfl ⟨.configure, 0x00000001, 0xFFFFFFFF⟩ (by decide) (by decide) (by decide)
    (by decide) (by decide) (by decide)

theorem clearerr : Statement .clearerr :=
  statement_of_row _ 0x02 0 0 0 rfl ⟨.clearerr, 0x00000002, 0xFFFFFFFF⟩ (by decide) (by decide) (by decide)
    (by decide) (by decide) (by decide)

/-- A field whose mask is zero does not matter. -/
theorem and_of_zero {n : Nat} (x m : BitVec n) (h : m = 0) : x &&& m = 0 := by
  rw [h]
  exact BitVec.and_zero

theorem reset (ctx : Nat) : Statement (.reset ctx) :=
  statement_of_row _ 0x10 _ 0 0 rfl ⟨.reset, 0x00000010, 0xFFFFF0FF⟩ (by decide) (by decide) (by decide)
    (and_of_zero _ _ (by decide)) (by decide) (by decide)

theorem updb (ctx : Nat) (byte : Byte) : Statement (.updb ctx byte) :=
  statement_of_row _ 0x11 _ _ 0 rfl ⟨.updb, 0x00000011, 0xFF00F0FF⟩ (by decide) (by decide) (by decide)
    (and_of_zero _ _ (by decide)) (and_of_zero _ _ (by decide)) (by decide)

theorem updbits (ctx : Nat) (value : Byte) (count : Nat) : Statement (.updbits ctx value count) :=
  statement_of_row _ 0x12 _ _ _ rfl ⟨.updbits, 0x00000012, 0xF800F0FF⟩ (by decide) (by decide) (by decide)
    (and_of_zero _ _ (by decide)) (and_of_zero _ _ (by decide)) (and_of_zero _ _ (by decide))

theorem updbuf (ctx : Nat) : Statement (.updbuf ctx) :=
  statement_of_row _ 0x13 _ 0 0 rfl ⟨.updbuf, 0x00000013, 0xFFFFF0FF⟩ (by decide) (by decide) (by decide)
    (and_of_zero _ _ (by decide)) (by decide) (by decide)

theorem updall (ctx : Nat) : Statement (.updall ctx) :=
  statement_of_row _ 0x14 _ 0 0 rfl ⟨.updall, 0x00000014, 0xFFFFF0FF⟩ (by decide) (by decide) (by decide)
    (and_of_zero _ _ (by decide)) (by decide) (by decide)

theorem value (ctx : Nat) : Statement (.value ctx) :=
  statement_of_row _ 0x15 _ 0 0 rfl ⟨.value, 0x00000015, 0xFFFFF0FF⟩ (by decide) (by decide) (by decide)
    (and_of_zero _ _ (by decide)) (by decide) (by decide)

theorem gfmul : Statement .gfmul :=
  statement_of_row _ 0x20 0 0 0 rfl ⟨.gfmul, 0x00000020, 0xFFFFFFFF⟩ (by decide) (by decide) (by decide)
    (by decide) (by decide) (by decide)

theorem gfxpow : Statement .gfxpow :=
  statement_of_row _ 0x21 0 0 0 rfl ⟨.gfxpow, 0x00000021, 0xFFFFFFFF⟩ (by decide) (by decide) (by decide)
    (by decide) (by decide) (by decide)

theorem combine : Statement .combine :=
  statement_of_row _ 0x22 0 0 0 rfl ⟨.combine, 0x00000022, 0xFFFFFFFF⟩ (by decide) (by decide) (by decide)
    (by decide) (by decide) (by decide)

theorem chseed : Statement .chseed :=
  statement_of_row _ 0x23 0 0 0 rfl ⟨.chseed, 0x00000023, 0xFFFFFFFF⟩ (by decide) (by decide) (by decide)
    (by decide) (by decide) (by decide)

theorem zeroes : Statement .zeroes :=
  statement_of_row _ 0x24 0 0 0 rfl ⟨.zeroes, 0x00000024, 0xFFFFFFFF⟩ (by decide) (by decide) (by decide)
    (by decide) (by decide) (by decide)

theorem residue : Statement .residue :=
  statement_of_row _ 0x25 0 0 0 rfl ⟨.residue, 0x00000025, 0xFFFFFFFF⟩ (by decide) (by decide) (by decide)
    (by decide) (by decide) (by decide)

end Sys2Proof.Laws.RowOfEncoding
end

