-- ==== Sys2Proof/Tests/Slice0.lean ====
section
/-!
SUPPORT. Sys2Proof/Tests/Slice0.lean: tests against values the spec gives (its rules' examples and
95_test_vectors.md), and for every obligation with hypotheses a state and operands that meet them.
-/

namespace Sys2Proof.Tests

open Sys2Proof.Machine

/-! ### Well-formedness: one ill-formed term per check -/

theorem test_wellFormed_refuses_ctx_16 : (Instr.reset 16).wellFormed = false := by decide

theorem test_wellFormed_refuses_updbits_ctx_16 : (Instr.updbits 16 0 7).wellFormed = false := by decide

theorem test_wellFormed_refuses_count_8 : (Instr.updbits 0 0 8).wellFormed = false := by decide

theorem test_wellFormed_accepts_largest : (Instr.updbits 15 0xFF 7).wellFormed = true := by decide

/-! ### Decoding: words written out from 30_encoding.md rules R101, R107, R114 -/

theorem test_decode_configure : decode 0b00000000000000000000000000000001 = .command .configure := by decide

theorem test_decode_clearerr : decode 0b00000000000000000000000000000010 = .command .clearerr := by decide

theorem test_decode_reset : decode 0b00000000000000000000001100010000 = .command (.reset 3) := by decide

theorem test_decode_updb : decode 0b00000000001100010000000000010001 = .command (.updb 0 0x31) := by decide

theorem test_decode_updbits : decode 0b00000111111111110000111100010010 = .command (.updbits 15 0xFF 7) := by decide

theorem test_decode_updbuf : decode 0b00000000000000000000010100010011 = .command (.updbuf 5) := by decide

theorem test_decode_updall : decode 0b00000000000000000000000100010100 = .command (.updall 1) := by decide

theorem test_decode_value : decode 0b00000000000000000000001000010101 = .command (.value 2) := by decide

theorem test_decode_combiner :
    decode 0x20 = .command .gfmul ∧ decode 0x21 = .command .gfxpow ∧ decode 0x22 = .command .combine ∧
    decode 0x23 = .command .chseed ∧ decode 0x24 = .command .zeroes ∧ decode 0x25 = .command .residue := by decide

/-- The illegal words of 95_test_vectors.md section 2.1. -/
theorem test_decode_illegal :
    decode 0x00000000 = .illegal .unassignedOpcode ∧ decode 0x00000030 = .illegal .unassignedOpcode ∧
    decode 0x00001001 = .illegal .reservedBit ∧ decode 0x08000012 = .illegal .reservedBit ∧
    decode 0x01000011 = .illegal .unusedField ∧ decode 0x00000102 = .illegal .unusedField ∧
    decode 0x0000000100000015 = .illegal .highBits := by decide

/-- The forms of 30_encoding.md rule R114. -/
theorem test_encode_forms :
    encode (.reset 3) = 0x310 ∧ encode (.updb 0 0x31) = 0x00310011 ∧ encode (.updbits 0 5 3) = 0x03050012 ∧
    encode (.value 15) = 0xF15 ∧ encode .residue = 0x25 := by decide

theorem test_decodeTableWord : decodeTableWord 32 0x00000315 = some (.value 3) := by decide

/-! ### Small blocks -/

/-- A block with two contexts and 64 bytes of DMEM at `base`. -/
def smallParams (nw : NativeWidth) (base : Nat) : Params where
  nw := nw
  nctxM1 := 1
  dmemBytes := 64
  blockBase := base

/-- A block configured with `a`. -/
def block (nw : NativeWidth) (a : ActiveConfig) : State := (State.resetWith (smallParams nw 0) 0).configured a

/-- A field of the next state. -/
def after {α : Type} (o : Outcome) (f : State → α) : Option α :=
  match o with
  | .next t => some (f t)
  | .fault _ => none
  | .refused _ => none

/-- CRC-16/CCITT-FALSE (93_implementation_defined.md G1). -/
def ccitt : ActiveConfig where
  aw := 16
  apoly := 0x1021
  ainit := 0xFFFF
  axor := 0
  refIn := false
  refOut := false
  alanes := 1

/-- CRC-12/UMTS (93_implementation_defined.md G1): input and output orders differ. -/
def umts : ActiveConfig where
  aw := 12
  apoly := 0x80F
  ainit := 0
  axor := 0
  refIn := false
  refOut := true
  alanes := 1

/-- The width-1 model with polynomial 1, reflected. -/
def parity : ActiveConfig where
  aw := 1
  apoly := 1
  ainit := 0
  axor := 0
  refIn := true
  refOut := true
  alanes := 1

/-- The nine bytes of `"123456789"`. -/
def nine : List Byte := [0x31, 0x32, 0x33, 0x34, 0x35, 0x36, 0x37, 0x38, 0x39]

/-- A CRC-32 block with the nine bytes in DMEM and the buffer over them. -/
def nineBlock (lanes : BitVec 5) : State :=
  { (block .nw32 (crc32 lanes)).storeBytes 0 nine with bufLen := 9 }

/-- A block with the CRC-32 model staged. -/
def staged (nw : NativeWidth) (width cfg : Word) : State :=
  { State.resetWith (smallParams nw 0) 0 with
    staging := { width := width, poly := 0x104C11DB7, init := 0x1FFFFFFFF, xorOut := 0x1FFFFFFFF, cfg := cfg } }

/-! ### Control -/

/-- 40_control.md rule R130, example. -/
theorem test_configure_example :
    after (exec .configure (staged .nw32 32 0x803)) (fun t => (readReg .status t, readReg .actCfg t, readReg .actPoly t,
      readReg (.acc 1) t, readReg (.table 0 1) t, readReg (.xpow 0) t, readReg (.table 8 1) t)) =
      some (0x1, 0x803, 0x04C11DB7, 0xFFFFFFFF, 0x77073096, 0x40000000, 0) := by decide +kernel

/-- 95_test_vectors.md section 2.7: width 33 on a 32-bit block, and BAD_WIDTH before BAD_CFG. -/
theorem test_configure_bad_width :
    after (exec .configure (staged .nw32 33 0x807)) (fun t => (readReg .status t, readReg .faultCmd t)) =
      some (0x302, 0x1) := by decide +kernel

/-- 40_control.md rule R137, example. -/
theorem test_clearerr_example :
    after (exec .clearerr ((staged .nw32 33 0x803).takeFault .badWidth 1)) (fun t =>
      (readReg .status t, readReg .faultCmd t)) = some (0, 0) := by decide +kernel

/-! ### Engine -/

/-- 42_crc_engine.md rule R172, example. -/
theorem test_reset_ccitt :
    after (exec (.reset 1) ((block .nw32 ccitt).setAcc 1 5)) (fun t => t.acc) = some [0xFFFF0000, 0xFFFF0000] := by
  decide +kernel

/-- 95_test_vectors.md section 2.7: BAD_CTX. -/
theorem test_reset_bad_ctx :
    after (exec (.reset 2) (block .nw32 ccitt)) (fun t => (readReg .status t, t.faultCmd)) = some (0x503, 0x210) := by
  decide +kernel

/-- 42_crc_engine.md rule R174, example. -/
theorem test_updb_crc32 :
    after (exec (.updb 0 0x31) (block .nw64 (crc32 8))) (fun t => t.acc) = some [0x7C231048, 0xFFFFFFFF] := by
  decide +kernel

/-- 95_test_vectors.md section 2.4: a natural model on the 64-bit engine. -/
theorem test_updb_ccitt :
    after (exec (.updb 0 0x31) (block .nw64 ccitt)) (fun t => t.readAcc 0) = some 0xC782000000000000 := by
  decide +kernel

/-- 42_crc_engine.md rule R176, example. -/
theorem test_updbits_crc32 :
    after (exec (.updbits 0 5 3) (block .nw64 (crc32 1))) (fun t => t.readAcc 0) = some 0x6923BE6F := by decide +kernel

/-- 95_test_vectors.md section 2.4: the high bits of the value are ignored, natural order. -/
theorem test_updbits_ccitt :
    after (exec (.updbits 0 0xA5 4) (block .nw64 ccitt)) (fun t => t.readAcc 0) = some 0x5EBA000000000000 := by
  decide +kernel

/-- 42_crc_engine.md rule R178, example, at 8 lanes. -/
theorem test_updall_check_string :
    after (exec (.updall 0) (nineBlock 8)) (fun t => t.acc) = some [0x340BC6D9, 0xFFFFFFFF] := by decide +kernel

/-- 95_test_vectors.md section 2.7: no wrap-around. -/
theorem test_updall_bounds :
    after (exec (.updall 0) { (nineBlock 8) with bufBase := 0xFFFFFFFFFFFFFFFF, bufLen := 2 }) (fun t =>
      (readReg .status t, t.faultCmd)) = some (0x603, 0x14) := by decide +kernel

/-- A whole-buffer UPDBUF gives what UPDALL gives (42_crc_engine.md rule R178), one lane. -/
theorem test_updbuf_check_string :
    after (exec (.updbuf 0) { (nineBlock 1) with arg1 := 9 }) (fun t => t.readAcc 0) = some 0x340BC6D9 := by
  decide +kernel

/-- 95_test_vectors.md section 2.7: an offset past the buffer faults even with length 0. -/
theorem test_updbuf_bounds :
    after (exec (.updbuf 0) { (nineBlock 1) with bufLen := 10, arg0 := 11 }) (fun t => (readReg .status t, t.faultCmd)) =
      some (0x603, 0x13) := by decide +kernel

/-- 42_crc_engine.md rule R184, example. -/
theorem test_value_crc32 :
    after (exec (.value 0) ((block .nw64 (crc32 1)).setAcc 0 0x340BC6D9)) (fun t => t.result) = some 0xCBF43926 := by
  decide +kernel

/-- 95_test_vectors.md section 2.4: the two reflections differ. -/
theorem test_value_umts :
    after (exec (.value 0) ((block .nw32 umts).setAcc 0 0xF5B00000)) (fun t => t.result) = some 0xDAF := by
  decide +kernel

/-! ### Combiner -/

/-- 44_gf2_combiner.md rule R228, example. -/
theorem test_gfmul_crc32 :
    after (exec .gfmul { (block .nw64 (crc32 1)) with arg0 := 0xFFFFFFFF, arg1 := 0xFFFFFFFF }) (fun t => t.result) =
      some 0x3E7895E8 := by decide +kernel

/-- 44_gf2_combiner.md rule R228: a product that reaches `x^w`, with bits above `w` ignored. -/
theorem test_gfmul_ccitt :
    after (exec .gfmul { (block .nw32 ccitt) with arg0 := 0x18000, arg1 := 2 }) (fun t => t.result) = some 0x1021 := by
  decide +kernel

/-- 44_gf2_combiner.md rule R229, example and corner case. -/
theorem test_gfxpow_crc32 :
    after (exec .gfxpow { (block .nw64 (crc32 1)) with arg0 := 32 }) (fun t => t.result) = some 0xEDB88320 ∧
    after (exec .gfxpow { (block .nw64 (crc32 1)) with arg0 := 0xFFFFFFFFFFFFFFFF }) (fun t => t.result) =
      some 0x80000000 := by decide +kernel

/-- 44_gf2_combiner.md rule R230, example. -/
theorem test_combine_crc32 :
    after (exec .combine { (block .nw32 (crc32 1)) with arg0 := 0xCBF53A1C, arg1 := 0x9DBABF87, arg2 := 4 })
      (fun t => t.result) = some 0xCBF43926 := by decide +kernel

/-- 44_gf2_combiner.md rule R231, example, and the wrapped length. -/
theorem test_chseed :
    after (exec .chseed { (block .nw32 ccitt) with arg0 := 0xE4C3, arg1 := 4, arg2 := 0xFFFF, arg3 := 0 })
      (fun t => t.result) = some 0x6003 ∧
    after (exec .chseed { (block .nw32 (crc32 1)) with arg0 := 0x12345678, arg1 := 0x2000000000000000, arg3 := 0xFF })
      (fun t => t.result) = some 0x12345687 := by decide +kernel

/-- 44_gf2_combiner.md rule R232, example. -/
theorem test_zeroes_crc32 :
    after (exec .zeroes { (block .nw32 (crc32 1)) with arg0 := 1, arg1 := 0 }) (fun t => t.result) = some 0xD202EF8D := by
  decide +kernel

/-- 44_gf2_combiner.md rule R233, example. -/
theorem test_residue_crc32 :
    after (exec .residue (block .nw32 (crc32 1))) (fun t => t.result) = some 0x2144DF1C := by decide +kernel

/-- 95_test_vectors.md section 2.6: the width-1 corner of 44_gf2_combiner.md rule R222. -/
theorem test_xpow_width_one :
    (buildFieldContext parity).xpow.getD 0 0 = 1 ∧ (buildFieldContext { parity with apoly := 0 }).xpow.getD 0 0 = 0 := by
  decide +kernel

/-! ### Step, bus and reset -/

/-- The first step after reset runs the word placed: VALUE on an unconfigured block faults with NOT_CONFIGURED. -/
theorem test_step_runs_fetch_word :
    after (step (State.reset.withFetchWord 32 0x15)) (fun t => (readReg .status t, t.faultCmd, t.pending)) =
      some (0x202, 0x15, []) := by decide +kernel

/-- 20_memory.md rule R73 with the values of 95_test_vectors.md section 2.4. -/
theorem test_dmem_little_endian :
    hostRead 0x10002 2 ((block .nw32 ccitt).storeBytes 0 (bytesOf 0x3837363534333231 8)) = .data 0x3433 := by
  decide +kernel

/-- 30_encoding.md rule R116: the bytes of a text are its ASCII codes. -/
theorem test_wrs_ascii : "123456789".toList.map charByte = nine := by decide

/-- 20_memory.md rules R76, R78, R79: accesses that raise a bus error. -/
theorem test_bus_errors :
    targetOf (smallParams .nw32 0) 0x18 4 = .busError ∧ targetOf (smallParams .nw32 0) 0x1C 8 = .busError ∧
    targetOf (smallParams .nw32 0) 0x10001 2 = .busError ∧ targetOf (smallParams .nw32 0) 0x10040 1 = .busError ∧
    targetOf (smallParams .nw32 0) 0x1003F 1 = .dmem 0x3F := by decide

/-- 95_test_vectors.md section 2.2: PARAM. -/
theorem test_param_word : readReg .param State.reset = 0x0000004000000102 := by decide

/-- 70_reset_and_hazards.md rule R281: the reset input. -/
theorem test_reset_input :
    after (step { (nineBlock 1) with pending := [.resetInput] }) (fun t =>
      (readReg .status t, t.acc, readReg .bufLen t, t.dmem)) = some (0, [0, 0], 0, []) := by decide +kernel

/-! ### Witnesses: states and operands that meet the obligations' hypotheses -/

theorem crc32_legal (lanes : BitVec 5) (h : lanes = 1 ∨ lanes = 8 ∨ lanes = 16) (nw : Nat) (hn : nw = 32 ∨ nw = 64) :
    (crc32 lanes).Legal nw := by
  rcases h with rfl | rfl | rfl <;>
    exact ⟨by decide, by rcases hn with rfl | rfl <;> decide, by decide, by decide, by decide, by decide⟩

theorem ccitt_legal (nw : Nat) (hn : nw = 32 ∨ nw = 64) : ccitt.Legal nw := by
  refine ⟨by decide, by rcases hn with rfl | rfl <;> decide, by decide, by decide, by decide, ?_⟩
  simp [ccitt, ActiveConfig.lanes]

theorem parity_legal (nw : Nat) (hn : nw = 32 ∨ nw = 64) : parity.Legal nw := by
  refine ⟨by decide, by rcases hn with rfl | rfl <;> decide, by decide, by decide, by decide, ?_⟩
  simp [parity, ActiveConfig.lanes]

/-- A freshly configured block meets the invariant. -/
theorem block_inv (nw : NativeWidth) (a : ActiveConfig) (h : a.Legal nw.bits) : (block nw a).Inv := by
  have hn : nw.bits = 32 ∨ nw.bits = 64 := by cases nw <;> simp [NativeWidth.bits]
  refine ⟨by cases nw <;> rfl, ⟨by simp [block], fun _ => h, fun _ => rfl, fun _ => rfl⟩, ⟨fun _ => ⟨rfl, rfl⟩, ?_⟩, rfl,
    ?_, rfl, rfl⟩
  · intro he
    exact absurd (show false = true from he) (by decide)
  · intro c
    by_cases hc : c < 2
    · rw [show (block nw a).readAcc c = resetValue nw.bits a from State.configured_readAcc _ _ _ hc]
      exact resetValue_isBits _ hn _
    · rw [show (block nw a).readAcc c = 0 by
        simp [block, State.readAcc, State.resetWith, smallParams, Params.nctx, List.getD_eq_getElem?_getD, hc]]
      exact isBits_zero _

/-- A freshly configured block has fed no bits to any context. -/
theorem block_holds (nw : NativeWidth) (a : ActiveConfig) (h : a.Legal nw.bits) :
    (block nw a).holds fun _ => [] := by
  have hn : nw.bits = 32 ∨ nw.bits = 64 := by cases nw <;> simp [NativeWidth.bits]
  intro _ c hc
  rw [show (block nw a).readAcc c = resetValue nw.bits a from State.configured_readAcc _ _ _ hc,
    resetValue_eq _ hn _ h]
  rfl

theorem umts_legal (nw : Nat) (hn : nw = 32 ∨ nw = 64) : umts.Legal nw := by
  refine ⟨by decide, by rcases hn with rfl | rfl <;> decide, by decide, by decide, by decide, ?_⟩
  simp [umts, ActiveConfig.lanes]

/-- The CRC-32 block with one lane. -/
def b1 : State := block .nw32 (crc32 1)

theorem b1_inv : b1.Inv := block_inv _ _ (crc32_legal 1 (by decide) 32 (by decide))

theorem b1_holds : b1.holds fun _ => [] := block_holds _ _ (crc32_legal 1 (by decide) 32 (by decide))

theorem b1_ready : b1.ready := ⟨rfl, rfl⟩

/-- The invariant does not depend on the registers the host writes, RESULT and what is pending. -/
theorem inv_with_operands (s : State) (h : s.Inv) (w0 w1 w2 w3 base len : Word) (p : List HostEvent) :
    ({ s with arg0 := w0, arg1 := w1, arg2 := w2, arg3 := w3, bufBase := base, bufLen := len, pending := p } :
      State).Inv :=
  inv_of_same_fields s _ h rfl rfl rfl rfl rfl rfl rfl rfl rfl rfl

theorem witness_decodeEncode : (Instr.updbits 15 0xFF 7).wellFormed = true := by decide

theorem witness_decodedValue : decode 0x07FF0F12 = .command (.updbits 15 0xFF 7) := by decide

theorem witness_rowTable :
    (0x100000000 : Word).extractLsb' 32 32 ≠ 0 ∧
    ((0x00000F10 : Word).extractLsb' 32 32 = 0 ∧
      ∃ r ∈ opcodeRows, (0x00000F10 : Word).extractLsb' 0 32 &&& r.mask = r.pattern) ∧
    ((0xFFFFFFFF : Word).extractLsb' 32 32 = 0 ∧
      ∀ r ∈ opcodeRows, (0xFFFFFFFF : Word).extractLsb' 0 32 &&& r.mask ≠ r.pattern) := by decide

theorem witness_illegalValue : ∀ i, decode 0 ≠ .command i := by
  have h : decode 0 = .illegal .unassignedOpcode := by decide
  intro i
  rw [h]
  simp

theorem witness_stepRuns :
    ({ State.reset with pending := [cmdWrite Config.params 0x15] } : State).pending =
      cmdWrite State.reset.params 0x15 :: [] ∧
    decode 0x15 = .command (.value 0) ∧ decode (BitVec.ofNat 64 (0x25 % 2 ^ 32)) = .command .residue := by decide

/-- An access that is no write to CMD: the last byte of DMEM is read. -/
theorem witness_stepPerforms :
    ({ b1 with pending := [.read 0x1003F 1, .resetInput] } : State).pending = .read 0x1003F 1 :: [.resetInput] := rfl

/-- The same of an illegal value: the step takes ILLEGAL_CMD with the value. -/
theorem witness_stepIssuesIllegal :
    decode 0x1001 = .illegal .reservedBit ∧
    after (step (State.reset.withFetchWord 32 0x1001)) (fun t => (t.errCode, t.faultCmd)) =
      some (.illegalCmd, 0x1001) := by decide +kernel

theorem witness_idle : State.reset.pending = [] := rfl

theorem witness_faultEntry :
    State.reset.err = false ∧ issue 0x15 State.reset = .next (State.reset.takeFault .notConfigured 0x15) ∧
    (State.reset.takeFault .notConfigured 0x15).err = true :=
  ⟨rfl, rfl, rfl⟩

theorem witness_stickyError :
    (State.reset.takeFault .illegalCmd 0).err = true ∧ (0x15 : Word) ≠ 2 ∧ Reg.bufLen ≠ .cmd ∧ Reg.id ≠ .status := by
  decide

theorem witness_clearerr : State.reset.err = false ∧ (State.reset.takeFault .illegalCmd 0).err = true := by decide

/-- Every outcome of the check order. -/
theorem witness_firstCheck :
    firstCheck b1 0 = some .illegalCmd ∧ firstCheck (staged .nw32 33 0x807) 1 = some .badWidth ∧
    firstCheck (staged .nw32 32 0x807) 1 = some .badCfg ∧ firstCheck State.reset 0x25 = some .notConfigured ∧
    firstCheck b1 0x210 = some .badCtx ∧ firstCheck (nineBlock 8) 0x12 = some .lanes ∧
    firstCheck { b1 with bufLen := 65 } 0x14 = some .bounds ∧ firstCheck { b1 with arg0 := 1 } 0x13 = some .bounds ∧
    firstCheck { b1 with bufLen := 64 } 0x14 = none ∧ firstCheck (staged .nw32 32 0x803) 1 = none ∧
    b1.err = false := by decide +kernel

theorem witness_unconfigured :
    decode 0x25 = .command .residue ∧ Instr.residue ≠ .configure ∧ Instr.residue ≠ .clearerr ∧ State.reset.err = false ∧ State.reset.cfgValid = false := by
  decide

theorem witness_badModel :
    (staged .nw32 0 0x803).staging.width.toNat = 0 ∧ (staged .nw32 33 0x803).nw < 33 ∧
    (1 ≤ (staged .nw32 32 0x807).staging.width.toNat ∧ (staged .nw32 32 0x807).staging.width.toNat ≤ 32) ∧
    (staged .nw32 32 0x807).staging.cfg.extractLsb' 2 6 ≠ 0 ∧
    (staged .nw32 32 0x10803).staging.cfg.extractLsb' 16 48 ≠ 0 ∧
    (let c := (staged .nw32 32 0x403).staging.cfg.extractLsb' 8 8
     c ≠ 1 ∧ c ≠ 8 ∧ c ≠ 16) := by decide

theorem witness_badContextAndLanes :
    decode 0x215 = .command (.value 2) ∧ (nineBlock 8).ready ∧ contextOf (.value 2) = some 2 ∧
    (nineBlock 8).params.nctx ≤ 2 ∧
    decode 0x03050112 = .command (.updbits 1 5 3) ∧ 1 < (nineBlock 8).params.nctx ∧ (nineBlock 8).active.lanes ≠ 1 :=
  ⟨by decide, ⟨rfl, rfl⟩, rfl, by decide, by decide, by decide, by decide⟩

/-- The three ways out of range, each by one byte. -/
theorem witness_outOfRange :
    (64 < (61 : Word).toNat + (4 : Word).toNat) ∧ ((10 : Word).toNat < (11 : Word).toNat) ∧
    ((10 : Word).toNat - (10 : Word).toNat < (1 : Word).toNat) ∧ b1.ready ∧ 1 < b1.params.nctx ∧
    b1.params.dmemBytes = 64 :=
  ⟨by decide, by decide, by decide, b1_ready, by decide, rfl⟩

/-- The three changes of the flags, each in a step that is no reset. -/
theorem witness_statusFlags :
    after (step ((State.reset.takeFault .illegalCmd 0).withFetchWord 32 2)) (fun t => t.err) = some false ∧
    after (step ((staged .nw32 32 0x803).withFetchWord 32 1)) (fun t => t.cfgValid) = some true ∧
    after (step (State.reset.withFetchWord 32 0x15)) (fun t => t.err) = some true ∧
    (∀ rest, (State.reset.withFetchWord 32 0x15).pending ≠ .resetInput :: rest) := by
  refine ⟨by decide +kernel, by decide +kernel, by decide +kernel, ?_⟩
  intro rest h
  simp [State.withFetchWord, cmdWrite] at h

/-- The smallest and the largest width a 32-bit block accepts. -/
theorem witness_configure :
    (staged .nw32 1 0x103).err = false ∧ (staged .nw32 1 0x103).stagedLegal ∧ (staged .nw32 32 0x1000).stagedLegal := by
  unfold State.stagedLegal
  decide

theorem witness_failedConfigure : (staged .nw32 33 0x803).err = false ∧ ¬ (staged .nw32 33 0x803).stagedLegal := by
  unfold State.stagedLegal
  decide

theorem witness_laneTable : 15 < (crc32 16).lanes := by decide

theorem witness_tables :
    epoly 32 (crc32 8) = epoly 32 { crc32 8 with ainit := 0, axor := 0, refOut := false } := by decide

theorem witness_windows : (63 < 64 ∧ 15 < 16 ∧ 255 < 256) ∧ regAt (0x8000 + 8 * (256 * 15 + 255)) = .table 15 255 ∧
    regAt (0x400 + 8 * 63) = .xpow 63 := by decide

theorem witness_immediateUpdates : b1.ready ∧ 1 < b1.params.nctx ∧ b1.active.lanes = 1 :=
  ⟨b1_ready, by decide, by decide⟩

/-- The last four bytes of DMEM, and the empty range at the buffer's end. -/
theorem witness_rangeUpdates :
    let s : State := { b1 with bufBase := 60, bufLen := 4, arg0 := 4, arg1 := 0 }
    s.ready ∧ 1 < s.params.nctx ∧ s.bufBase.toNat + s.bufLen.toNat ≤ s.params.dmemBytes ∧
    s.arg0.toNat ≤ s.bufLen.toNat ∧ s.arg1.toNat ≤ s.bufLen.toNat - s.arg0.toNat :=
  ⟨⟨rfl, rfl⟩, by decide, by decide, by decide, by decide⟩

theorem witness_valueStable :
    b1.ready ∧ 1 < b1.params.nctx ∧ (∃ t, exec (.value 1) b1 = .next t) ∧ isUpdateOf 1 (.updbuf 1) = true :=
  ⟨b1_ready, by decide, exec_next _ _, by decide⟩

theorem witness_byteStep :
    isBits 32 0xFFFFFFFF = true ∧
    ([baseTable 32 (epoly 32 (crc32 1)) true] : List (List Word)).getD 0 [] =
      baseTable 32 (epoly 32 (crc32 1)) (crc32 1).refIn :=
  ⟨by decide, rfl⟩

theorem witness_laneCounts : (crc32 16).Legal 32 ∧ (ccitt).Legal 64 ∧ isBits 32 0xFFFFFFFF = true :=
  ⟨crc32_legal 16 (by decide) 32 (by decide), ccitt_legal 64 (by decide), by decide⟩

theorem witness_zeroLength :
    let s : State := { b1 with bufBase := 54, bufLen := 10, arg0 := 10, arg1 := 0 }
    (s.ready ∧ s.bufBase.toNat + s.bufLen.toNat ≤ s.params.dmemBytes ∧ s.arg0.toNat ≤ s.bufLen.toNat ∧ s.arg1 = 0) ∧
    ((64 : Word).toNat ≤ b1.params.dmemBytes ∧ b1.params.dmemBytes < (65 : Word).toNat ∧ b1.bufLen = 0) ∧
    b1.active.lanes = 1 ∧ b1.bufLen.toNat < (1 : Word).toNat :=
  ⟨⟨⟨rfl, rfl⟩, by decide, by decide, by decide⟩, by decide, by decide, by decide⟩

theorem witness_replay :
    (∀ i ∈ [Instr.updb 1 7], isUpdateOf 1 i = true) ∧ b1.acc.length = b1.params.nctx ∧
    after (runCommands ([.updb 1 7] ++ [.value 1]) b1) (fun t => t.err) = some false ∧
    (∀ a, ({ b1 with result := 5 } : State).memRead a = b1.memRead a) :=
  ⟨by decide, rfl, by decide +kernel, fun _ => rfl⟩

/-- A ready block whose contexts hold other values, beside the one its CONFIGURE has just left. -/
theorem witness_resetReplay :
    let s := staged .nw32 32 0x103
    let fresh := s.configured (latched s.staging)
    let u : State := { fresh with acc := [5, 6], result := 9 }
    exec .configure s = .next fresh ∧ fresh.err = false ∧ u.ready ∧ u.params = fresh.params ∧
    u.active = fresh.active ∧ u.tables = fresh.tables ∧ u.acc.length = u.params.nctx ∧ 1 < u.params.nctx ∧
    u.readAcc 1 ≠ fresh.readAcc 1 ∧ (∀ a, u.memRead a = fresh.memRead a) ∧
    after (runCommands ([.updb 1 7] ++ [.value 1]) fresh) (fun t => t.err) = some false :=
  ⟨rfl, rfl, ⟨rfl, rfl⟩, rfl, rfl, rfl, rfl, by decide, by decide +kernel, fun _ => rfl, by decide +kernel⟩

theorem witness_contexts :
    contextOf (.updb 0 1) = some 0 ∧ contextOf (.updb 1 2) = some 1 ∧
    after (exec (.updb 0 1) b1) (fun t => t.err) = some false ∧
    after (exec (.value 1) b1) (fun t => t.err) = some false := by decide +kernel

theorem witness_holds :
    b1.Inv ∧ b1.holds (fun _ => []) ∧ ∃ t, step { b1 with pending := [cmdWrite b1.params 0x11] } = .next t :=
  ⟨b1_inv, b1_holds, perform_next (cmdWrite b1.params 0x11) { b1 with pending := [] }⟩

/-- Two steps that feed a byte to context 0, after which VALUE is due. -/
theorem witness_reference :
    let s : State := { b1 with pending := [cmdWrite b1.params 0x310011, .read 0x10 8] }
    s.Inv ∧ s.holds (fun _ => []) ∧
    after (runSteps 2 s) (fun t => (t.err, t.cfgValid, decide (0 < t.params.nctx))) = some (false, true, true) ∧
    messagesRun 2 s (fun _ => []) 0 = messageBits true 8 0x31 := by
  refine ⟨inv_with_operands b1 b1_inv 0 0 0 0 0 0 _, b1_holds, by decide +kernel, by decide +kernel⟩

/-- The last bytes of DMEM, in context 1. -/
theorem witness_crcbuf :
    let s : State := { b1 with pending := (Line.crcbuf 1 62 2).events b1.params ++ [.read 0x78 8] }
    s.Inv ∧ s.ready ∧ 1 < s.params.nctx ∧ (62 : Word).toNat + (2 : Word).toNat ≤ s.params.dmemBytes ∧
    s.pending = (Line.crcbuf 1 62 2).events s.params ++ [.read 0x78 8] :=
  ⟨inv_with_operands b1 b1_inv 0 0 0 0 0 0 _, ⟨rfl, rfl⟩, by decide, by decide, rfl⟩

/-- 95_test_vectors.md V1: the check string at 8 lanes, through CRCBUF. -/
theorem test_crcbuf_check_string :
    after (runSteps 5 { (nineBlock 8) with pending := (Line.crcbuf 0 0 9).events (nineBlock 8).params })
      (fun t => (t.result, t.pending)) = some (0xCBF43926, []) := by decide +kernel

theorem witness_modelLine :
    let s : State := { State.reset with pending := (Line.model 64 1 2 true false 3 16).events Config.params }
    s.err = false ∧ 1 ≤ (64 : Word).toNat ∧ (64 : Word).toNat ≤ s.nw ∧ (1 : Word).toNat ≤ s.nw ∧
    s.pending = (Line.model 64 1 2 true false 3 16).events s.params ++ [] := by decide

/-- Blocks of both native widths with one model and one message. -/
theorem witness_nativeWidth :
    let s := block .nw32 (crc32 8)
    let t := block .nw64 (crc32 8)
    s.Inv ∧ t.Inv ∧ s.ready ∧ t.ready ∧ t.active = s.active ∧ s.params.nctx = t.params.nctx ∧
    s.holds (fun _ => []) ∧ t.holds (fun _ => []) ∧ (∃ u, exec (.value 1) s = .next u) ∧
    (∃ v, exec (.value 1) t = .next v) ∧ 1 < s.params.nctx :=
  ⟨block_inv _ _ (crc32_legal 8 (by decide) 32 (by decide)), block_inv _ _ (crc32_legal 8 (by decide) 64 (by decide)),
    ⟨rfl, rfl⟩, ⟨rfl, rfl⟩, rfl, rfl, block_holds _ _ (crc32_legal 8 (by decide) 32 (by decide)),
    block_holds _ _ (crc32_legal 8 (by decide) 64 (by decide)), exec_next _ _, exec_next _ _, by decide⟩

/-- Legal configurations at the least width, below the native width with unequal reflections, and at it. -/
theorem witness_legal : parity.Legal 32 ∧ umts.Legal 64 ∧ (crc32 16).Legal 32 :=
  ⟨parity_legal 32 (by decide), umts_legal 64 (by decide), crc32_legal 16 (by decide) 32 (by decide)⟩

theorem witness_lengths : (0x1FFFFFFFFFFFFFFF : Word).toNat < 2 ^ 61 := by decide

theorem witness_combine :
    let a := crc32 1
    let s : State := { b1 with
      arg0 := combinerCrc a 0xFFFFFFFF (bytesToBits true [1, 2]), arg1 := combinerCrc a 0 (bytesToBits true [3]),
      arg2 := 1 }
    s.Inv ∧ s.ready ∧ isBits s.active.w 0xFFFFFFFF = true ∧ ([3] : List Byte).length < 2 ^ 61 ∧
    s.arg0 = combinerCrc s.active 0xFFFFFFFF (bytesToBits s.active.refIn [1, 2]) ∧
    s.arg1 = combinerCrc s.active 0 (bytesToBits s.active.refIn [3]) ∧
    s.arg2 = BitVec.ofNat 64 ([3] : List Byte).length :=
  ⟨inv_with_operands b1 b1_inv _ _ _ 0 0 0 [], ⟨rfl, rfl⟩, by decide, by decide, rfl, rfl, rfl⟩

theorem witness_chseed :
    let a := crc32 1
    let s : State := { b1 with
      arg0 := combinerCrc a 5 (bytesToBits true [1]), arg1 := 1, arg2 := 5, arg3 := 0xFFFFFFFF }
    s.Inv ∧ s.ready ∧ isBits s.active.w 5 = true ∧ isBits s.active.w 0xFFFFFFFF = true ∧
    s.arg0 = combinerCrc s.active 5 (bytesToBits s.active.refIn [1]) ∧
    s.arg1 = BitVec.ofNat 64 ([1] : List Byte).length ∧ (∃ t, exec .chseed s = .next t) :=
  ⟨inv_with_operands b1 b1_inv _ _ _ _ 0 0 [], ⟨rfl, rfl⟩, by decide, by decide, rfl, rfl, exec_next _ _⟩

theorem witness_zeroes :
    let s : State := { b1 with arg0 := 0, arg1 := 0xFFFFFFFF }
    s.Inv ∧ s.ready ∧ isBits s.active.w 0xFFFFFFFF = true ∧ s.arg0 = BitVec.ofNat 64 0 :=
  ⟨inv_with_operands b1 b1_inv _ _ 0 0 0 0 [], ⟨rfl, rfl⟩, by decide, rfl⟩

theorem witness_residue : b1.Inv ∧ b1.ready ∧ isBits b1.active.w 0xFFFFFFFF = true ∧ b1.active.w % 8 = 0 :=
  ⟨b1_inv, b1_ready, by decide, by decide⟩

/-- A natural CRC's bits are its bytes, most significant first (44_gf2_combiner.md rule R238). -/
theorem test_crc_bits_natural : crcBits ccitt 0x29B1 = bytesToBits false [0x29, 0xB1] := by decide

theorem witness_result :
    b1.Inv ∧ b1.ready ∧ after (exec (.value 1) b1) (fun t => t.err) = some false ∧
    after (exec (.value 2) b1) (fun t => t.err) = some true ∧ isCombiner .residue = true ∧
    (isCombiner (.updb 0 0) = false ∧ ∀ c, Instr.updb 0 0 ≠ .value c) := by
  refine ⟨b1_inv, b1_ready, by decide +kernel, by decide +kernel, rfl, rfl, ?_⟩
  intro c
  simp

theorem witness_onlyReadDmem : ∀ c, Instr.updb 0 1 ≠ .updbuf c ∧ Instr.updb 0 1 ≠ .updall c := by
  intro c
  simp

theorem witness_staging :
    after (exec .configure (staged .nw32 33 0x803)) (fun t => t.err) = some true ∧ Instr.clearerr ≠ .configure ∧
    ∃ t, exec .clearerr b1 = .next t :=
  ⟨by decide, by decide, exec_next _ _⟩

theorem witness_hostRegisters : ∃ t, exec .configure (staged .nw32 32 0x803) = .next t := exec_next _ _

theorem witness_readOnlyWords : (smallParams .nw32 0).wf = true ∧ b1.Inv ∧ b1.err = false := ⟨by decide, b1_inv, rfl⟩

/-- A CONFIGURE that succeeds, a CLEARERR that clears, a command that is dropped and one that performs. -/
theorem witness_statusWrites :
    after (exec .configure (staged .nw32 32 0x803)) (fun t => t.err) = some false ∧
    after (exec .clearerr (b1.takeFault .lanes 0)) (fun t => t.err) = some false ∧
    after (exec .residue (b1.takeFault .lanes 0)) (fun t => t.err) = some true ∧
    after (exec .residue b1) (fun t => t.err) = some false := by decide +kernel

/-- Each of the seven faults, with its number in STATUS (60_exceptions.md rule R250, 95_test_vectors.md 2.7). -/
theorem witness_faultCodes :
    let status (v : Word) (s : State) := after (issue v s) (readReg .status)
    status 0x1001 State.reset = some 0x102 ∧ status 0x15 State.reset = some 0x202 ∧
    status 1 (staged .nw32 33 0x103) = some 0x302 ∧ status 1 (staged .nw32 32 0x807) = some 0x402 ∧
    status 0x210 b1 = some 0x503 ∧ status 0x14 { b1 with bufBase := 61, bufLen := 4 } = some 0x603 ∧
    status 0x03050012 (nineBlock 8) = some 0x703 := by decide +kernel

theorem witness_registers :
    (∃ t, writeReg .arg3 7 b1 = .next t) ∧ Reg.arg2 ≠ .arg3 ∧ Reg.unmapped ∉ [Reg.cmd, .modelWidth, .arg3] ∧
    0x130 % 8 = 0 ∧ 0x3F8 % 8 = 0 ∧ 0x3F8 < 0x400 ∧ 0x600 % 8 = 0 ∧ 0x7FF8 % 8 = 0 ∧ 0x7FF8 < 0x8000 ∧
    0 < 0x10000 ∧ 0 % 8 = 0 ∧ 0xFFF8 < 0x10000 ∧ 0xFFF8 % 8 = 0 :=
  ⟨⟨_, rfl⟩, by decide, by decide, by decide, by decide, by decide, by decide, by decide, by decide, by decide, by decide, by decide, by decide⟩

theorem witness_busError : targetOf b1.params 0xFFFC 8 = .busError ∧ targetOf b1.params 0x10040 1 = .busError := by
  decide

theorem witness_reads : (∃ t, perform (.read 0x10000 4) b1 = .next t) ∧ Reg.result ≠ .cmd ∧
    ∃ t, writeReg .result 5 b1 = .next t :=
  ⟨perform_next _ _, by decide, ⟨_, rfl⟩⟩

/-- 20_memory.md rule R73: a 4-byte read of bytes stored by accesses of 2, 1 and 1 bytes. -/
theorem test_dmem_mixed_widths :
    (match runSteps 3 { b1 with pending :=
        [.write 0x1003C 2 0x2211, .write 0x1003E 1 0x33, .write 0x1003F 1 0x44] } with
      | .next t => some (hostRead 0x1003C 4 t)
      | _ => none) = some (.data 0x44332211) := by decide +kernel

/-- The last doubleword of DMEM and the last byte. -/
theorem witness_dmem : 56 % 8 = 0 ∧ 56 + 8 ≤ b1.params.dmemBytes ∧ 63 % 1 = 0 ∧ 63 + 1 ≤ b1.params.dmemBytes := by
  decide

theorem witness_accWindow : 15 < 16 ∧ 1 < b1.params.nctx ∧ b1.params.nctx ≤ 2 := by decide

theorem witness_resetInput :
    ({ b1 with pending := [.resetInput, .read 0x10 8] } : State).pending = .resetInput :: [.read 0x10 8] := rfl

theorem witness_invReset :
    (smallParams .nw64 0x10000).wf = true ∧
    ({ nw := .nw32, nctxM1 := 15, dmemBytes := 0xFFFFFFFF, blockBase := 0x10000 } : Params).wf = true := by decide

/-- A store to the last byte of DMEM is a step from a state with the invariant. -/
theorem witness_invStep :
    let s : State := { b1 with pending := [.write 0x1003F 1 0xAB] }
    s.Inv ∧ after (step s) (fun t => t.dmem) = some [(63, 0xAB)] :=
  ⟨inv_with_operands b1 b1_inv 0 0 0 0 0 0 _, by decide +kernel⟩

end Sys2Proof.Tests
end

/-!
PROOFS of the statements on 10_state.md: what a step can do, said once; the invariant; which commands and accesses change
which register; the register map and the words in it.
-/

/-! ### What one access and one step can do -/

namespace Sys2Proof.Machine

/-- `t` is `s` but for the registers the host writes, the accesses to come and the bus's answer: all that an access
can change which is neither a reset, nor the write of a command, nor a store to DMEM. -/
def State.SameInside (s t : State) : Prop :=
  t = { s with
    staging := t.staging, bufBase := t.bufBase, bufLen := t.bufLen, arg0 := t.arg0, arg1 := t.arg1,
    arg2 := t.arg2, arg3 := t.arg3, pending := t.pending, response := t.response }

theorem State.sameInside_respond (s : State) (r : BusResponse) : s.SameInside (s.respond r) := rfl

theorem State.sameInside_of_respond {s t : State} {r : BusResponse} (h : (s.respond r).SameInside t) :
    s.SameInside t := h

/-- A register write other than to CMD reaches no internal state. -/
theorem writeReg_sameInside {r : Reg} {v : Word} {s t : State} (hr : r ≠ .cmd) (h : writeReg r v s = .next t) :
    s.SameInside t := by
  rw [State.SameInside, writeReg_frame r v s t hr h]

/-- `windowAt` gives windows only. -/
theorem windowAt_ne_cmd (offset : Nat) : windowAt offset ≠ .cmd := by
  unfold windowAt
  split_ifs <;> simp

/-- CMD stands at offset 0x18 only (10_state.md rule R21). -/
theorem eq_of_regAt_eq_cmd {offset : Nat} (h : regAt offset = .cmd) : offset = 0x018 := by
  unfold regAt at h
  split at h
  case h_4 => rfl
  case h_23 => exact absurd h (windowAt_ne_cmd _)
  all_goals cases h

/-- The only access that reaches CMD is the 8-byte one at its offset. -/
theorem targetOf_eq_cmd {p : Params} {offset width : Nat} (h : targetOf p offset width = .register .cmd) :
    offset = 0x018 ∧ width = 8 := by
  unfold targetOf at h
  split_ifs at h with _ hw
  exact ⟨eq_of_regAt_eq_cmd (Target.register.inj h), hw.1⟩

/-- Everything an access by host write can do. -/
theorem hostWrite_cases {offset width : Nat} {v : Word} {s t : State} (h : hostWrite offset width v s = .next t) :
    (offset = 0x018 ∧ width = 8 ∧ issue v (s.respond .written) = .next t) ∨
    (∃ a bytes, a + bytes.length ≤ s.params.dmemBytes ∧ t = (s.respond .written).storeBytes a bytes) ∨
    s.SameInside t := by
  unfold hostWrite at h
  split at h
  case h_1 r hr =>
    by_cases hc : r = .cmd
    · subst hc
      obtain ⟨ho, hw⟩ := targetOf_eq_cmd hr
      exact .inl ⟨ho, hw, h⟩
    · exact .inr (.inr (State.sameInside_of_respond (writeReg_sameInside hc h)))
  case h_2 a ha =>
    have hb := targetOf_dmem_bound _ _ _ _ ha
    exact .inr (.inl ⟨a, bytesOf v width, by rwa [bytesOf_length], by simpa using h.symm⟩)
  case h_3 =>
    obtain rfl := Host.Outcome.next.inj h
    exact .inr (.inr (s.sameInside_respond _))

/-- The offset of an address the block answers. -/
theorem offsetOf_eq_some {p : Params} {address offset : Nat} (h : offsetOf p address = some offset) :
    address = p.blockBase + offset := by
  unfold offsetOf at h
  split_ifs at h with hb
  have := Option.some.inj h
  omega

/-- Everything one event from outside can do: the reset input, the write of a command, a store inside DMEM, or nothing
inside the block. -/
theorem perform_cases {e : HostEvent} {s t : State} (h : perform e s = .next t) :
    (e = .resetInput ∧ t = s.afterReset) ∨
    (∃ v, e = cmdWrite s.params v ∧ issue v (s.respond .written) = .next t) ∨
    (∃ a bytes, a + bytes.length ≤ s.params.dmemBytes ∧ t = (s.respond .written).storeBytes a bytes) ∨
    s.SameInside t := by
  cases e with
  | resetInput => exact .inl ⟨rfl, (Host.Outcome.next.inj h).symm⟩
  | read address width =>
    simp only [perform] at h
    split at h <;>
    · obtain rfl := Host.Outcome.next.inj h
      exact .inr (.inr (.inr (s.sameInside_respond _)))
  | write address width v =>
    simp only [perform] at h
    split at h
    · next offset ho =>
      rcases hostWrite_cases h with ⟨rfl, rfl, hv⟩ | hd | hs
      · exact .inr (.inl ⟨v, by rw [offsetOf_eq_some ho]; rfl, hv⟩)
      · exact .inr (.inr (.inl hd))
      · exact .inr (.inr (.inr hs))
    · obtain rfl := Host.Outcome.next.inj h
      exact .inr (.inr (.inr (s.sameInside_respond _)))

/-- A step idles or performs the oldest pending event on the state in which it has left the list. -/
theorem step_cases {s t : State} (h : step s = .next t) :
    (s.pending = [] ∧ t = s) ∨
    ∃ e rest, s.pending = e :: rest ∧ perform e { s with pending := rest } = .next t := by
  cases hp : s.pending with
  | nil =>
    rw [step, performNext_nil s hp] at h
    exact .inl ⟨rfl, (Host.Outcome.next.inj h).symm⟩
  | cons e rest =>
    rw [step, performNext_cons s e rest hp] at h
    exact .inr ⟨e, rest, rfl, h⟩

/-- Everything issuing a value can do: a legal value runs its command, an illegal one is dropped or faults. -/
theorem issue_cases {v : Word} {s t : State} (h : issue v s = .next t) :
    (∃ i, decode v = .command i ∧ exec i s = .next t) ∨
    (s.err = true ∧ t = s) ∨
    (s.err = false ∧ t = s.takeFault .illegalCmd v) := by
  cases hd : decode v with
  | command i => exact .inl ⟨i, rfl, by rwa [issue_command v i hd] at h⟩
  | illegal why =>
    rw [issue_illegal v why hd] at h
    obtain rfl := Host.Outcome.next.inj h
    cases he : s.err with
    | true => exact .inr (.inl ⟨rfl, rfl⟩)
    | false => exact .inr (.inr ⟨rfl, rfl⟩)

end Sys2Proof.Machine

/-! ### The invariant -/

namespace Sys2Proof.Machine

/-- The invariant speaks of the inside of the block only. -/
theorem inv_of_sameInside {s t : State} (h : s.Inv) (hs : s.SameInside t) : t.Inv := by
  rw [hs]
  exact inv_of_same_fields s _ h rfl rfl rfl rfl rfl rfl rfl rfl rfl rfl

/-- The bus's answer is no part of the invariant. -/
theorem inv_respond {s : State} (h : s.Inv) (r : BusResponse) : (s.respond r).Inv :=
  inv_of_sameInside h (s.sameInside_respond r)

/-- Writing RESULT keeps the invariant. -/
theorem inv_setResult {s : State} (h : s.Inv) (v : Word) : (s.setResult v).Inv :=
  inv_of_same_fields s _ h rfl rfl rfl rfl rfl rfl rfl rfl rfl rfl

/-- A store inside DMEM keeps the invariant. -/
theorem inv_storeBytes {s : State} (h : s.Inv) {a : Nat} {bytes : List Byte}
    (hb : a + bytes.length ≤ s.params.dmemBytes) : (s.storeBytes a bytes).Inv where
  params := h.params
  config := ⟨h.config.unset, h.config.legal, h.config.tables, h.config.field⟩
  fault := ⟨h.fault.clear, h.fault.recorded⟩
  contexts := h.contexts
  native := h.native
  memory := Memory.wf_writeAll _ _ _ h.memory
  addresses := Memory.within_writeAll _ _ _ _ h.addresses hb

/-- Every context of a file that holds one value in all of them holds an n-bit value if that value is one; so does a
context past the file's end, which reads 0. -/
theorem readAcc_isBits_of_replicate {n k : Nat} {s : State} {v : Word} (hs : s.acc = List.replicate k v)
    (hv : isBits n v = true) (c : Nat) : isBits n (s.readAcc c) = true := by
  rw [State.readAcc, hs, List.getD_eq_getElem?_getD, List.getElem?_replicate]
  split
  · exact hv
  · exact isBits_zero n

/-- The state right after reset has the invariant, for every legal choice of the parameters
(70_reset_and_hazards.md rule R281). -/
theorem inv_resetWith {p : Params} (hp : p.wf = true) (resets : Nat) : (State.resetWith p resets).Inv where
  params := hp
  config := ⟨fun _ => ⟨rfl, rfl, rfl⟩, nofun, nofun, nofun⟩
  fault := ⟨fun _ => ⟨rfl, rfl⟩, nofun⟩
  contexts := List.length_replicate
  native := readAcc_isBits_of_replicate rfl (isBits_zero _)
  memory := rfl
  addresses := rfl

/-- The reset input establishes the invariant; it needs the parameters alone. -/
theorem inv_afterReset {s : State} (hp : s.params.wf = true) : s.afterReset.Inv :=
  inv_of_same_fields (State.resetWith s.params (s.resets + 1)) _ (inv_resetWith hp _)
    rfl rfl rfl rfl rfl rfl rfl rfl rfl rfl

/-- Latching a legal configuration keeps the invariant (40_control.md rules R132 to R134). -/
theorem inv_configured {s : State} (h : s.Inv) {a : ActiveConfig} (ha : a.Legal s.nw) : (s.configured a).Inv where
  params := h.params
  config := ⟨by simp, fun _ => ha, fun _ => rfl, fun _ => rfl⟩
  fault := ⟨h.fault.clear, h.fault.recorded⟩
  contexts := List.length_replicate
  native := readAcc_isBits_of_replicate rfl (resetValue_isBits _ (nw_cases s) a)
  memory := h.memory
  addresses := h.addresses

/-- The effect of a command that no check stops keeps the invariant. -/
theorem inv_effectOf {s : State} (h : s.Inv) (i : Instr) (hf : firstFault (checksOf s i) = none) :
    (effectOf s i).Inv := by
  have hnw := nw_cases s
  cases i with
  | configure => exact inv_configured h (latched_legal s hf)
  | clearerr => exact h
  | reset c => exact inv_setAcc s h c _ (resetValue_isBits _ hnw _)
  | updb c b =>
    have hv := configured_of_no_check _ s (by simp) (by simp) hf
    exact inv_setAcc s h c _ (byteStep_isBits _ hnw _ _ (tables_head s h hv) _ (h.native c) b)
  | updbits c v k =>
    exact inv_setAcc s h c _ (foldl_isBits _ _ (fun x b hx => bitStep_isBits _ hnw _ x hx b) _ _ (h.native c))
  | updbuf c | updall c =>
    have hv := configured_of_no_check _ s (by simp) (by simp) hf
    exact inv_setAcc s h c _ (rangeValue_isBits s h hv c _)
  | value | gfmul | gfxpow | combine | chseed | zeroes | residue => exact inv_setResult h _

/-- Every command keeps the invariant. -/
theorem inv_exec {i : Instr} {s t : State} (h : s.Inv) (ht : exec i s = .next t) : t.Inv := by
  rcases exec_cases i s t ht with ⟨rfl, -⟩ | ⟨-, -, rfl⟩ | ⟨k, -, -, hk, rfl⟩ | ⟨-, -, hf, rfl⟩
  · exact h
  · exact inv_clearFault s h
  · exact inv_takeFault s h k _ (firstFault_checksOf_ne s i k hk)
  · exact inv_effectOf h i hf

/-- Issuing any value, legal or not, keeps the invariant. -/
theorem inv_issue {v : Word} {s t : State} (h : s.Inv) (ht : issue v s = .next t) : t.Inv := by
  rcases issue_cases ht with ⟨i, -, hi⟩ | ⟨-, rfl⟩ | ⟨-, rfl⟩
  · exact inv_exec h hi
  · exact h
  · exact inv_takeFault s h _ v (by simp)

/-- Every event from outside keeps the invariant. -/
theorem inv_perform {e : HostEvent} {s t : State} (h : s.Inv) (ht : perform e s = .next t) : t.Inv := by
  rcases perform_cases ht with ⟨-, rfl⟩ | ⟨v, -, hv⟩ | ⟨a, bytes, hb, rfl⟩ | hs
  · exact inv_afterReset h.params
  · exact inv_issue (inv_respond h _) hv
  · exact inv_storeBytes (inv_respond h _) hb
  · exact inv_of_sameInside h hs

/-- Settles O59: a step idles or performs one event, and each kind of event keeps the invariant. -/
theorem invariantKeptByEveryStep : Obligations.InvariantKeptByEveryStep := by
  intro s t h ht
  rcases step_cases ht with ⟨-, rfl⟩ | ⟨e, rest, -, he⟩
  · exact h
  · exact inv_perform (inv_of_sameInside (t := { s with pending := rest }) h rfl) he

end Sys2Proof.Machine

/-! ### Decoding is exact -/

namespace Sys2Proof

/-- What is the same of every row of 30_encoding.md rule R107: its mask has all reserved bits and all of OPC, and its
pattern is zero outside OPC. -/
theorem opcodeRows_shape : ∀ r ∈ opcodeRows, r.mask &&& 0xF800F000 = 0xF800F000 ∧ fieldOpc r.mask = 0xFF ∧
    packWord (fieldOpc r.pattern) 0 0 0 = r.pattern := by
  decide

/-- A row's mask has all or none of the bits of each operand field: a command uses a field or leaves it zero. -/
theorem opcodeRows_mask : ∀ r ∈ opcodeRows, (fieldCtx r.mask = 0 ∨ fieldCtx r.mask = BitVec.allOnes 4) ∧
    (fieldImm8 r.mask = 0 ∨ fieldImm8 r.mask = BitVec.allOnes 8) ∧
    (fieldNbits r.mask = 0 ∨ fieldNbits r.mask = BitVec.allOnes 3) := by
  decide

/-- A word that spells a row has its reserved bits clear (30_encoding.md rule R106). -/
theorem reserved_clear_of_spells {r : OpcodeRow} (hr : r ∈ opcodeRows) {w : BitVec 32} (h : r.spells w = true) :
    w &&& 0xF800F000 = 0 := by
  obtain ⟨hm, -, hp⟩ := opcodeRows_shape r hr
  calc w &&& 0xF800F000 = w &&& r.mask &&& 0xF800F000 := by rw [BitVec.and_assoc, hm]
    _ = packWord (fieldOpc r.pattern) 0 0 0 &&& 0xF800F000 := by rw [beq_iff_eq.mp h, hp]
    _ = 0 := Laws.RowOfEncoding.packWord_reserved _ _ _ _

/-- A word that spells a row has the row's opcode, and zeros where the row's mask has ones outside OPC. -/
theorem fields_of_spells {r : OpcodeRow} (hr : r ∈ opcodeRows) {w : BitVec 32} (h : r.spells w = true) :
    fieldOpc w = fieldOpc r.pattern ∧ fieldCtx w &&& fieldCtx r.mask = 0 ∧ fieldImm8 w &&& fieldImm8 r.mask = 0 ∧
    fieldNbits w &&& fieldNbits r.mask = 0 := by
  obtain ⟨-, hm, hp⟩ := opcodeRows_shape r hr
  have hw : w &&& r.mask = packWord (fieldOpc r.pattern) 0 0 0 := by rw [beq_iff_eq.mp h, hp]
  rw [← packWord_fields w (reserved_clear_of_spells hr h), packWord_and, packWord_inj, hm] at hw
  obtain ⟨ho, hf⟩ := hw
  exact ⟨by rwa [show (0xFF : BitVec 8) = BitVec.allOnes 8 from rfl, BitVec.and_allOnes] at ho, hf⟩

/-- A field of which a mask has all or none of the bits, and which is zero where the mask has ones, is what is left of it
when it is read only where the mask leaves it free. -/
theorem field_of_and_eq_zero {n : Nat} {x m : BitVec n} (hm : m = 0 ∨ m = BitVec.allOnes n) (h : x &&& m = 0) :
    (if m = 0 then x else 0) = x := by
  split_ifs with h0
  · rfl
  · rw [hm.resolve_left h0, BitVec.and_allOnes] at h
    exact h.symm

/-- The encoder writes the row's opcode and, of the word the operands were read from, the fields the row leaves
free. -/
theorem encodeWord_operandsOf : ∀ r ∈ opcodeRows, ∀ w : BitVec 32,
    encodeWord (operandsOf r.mnemonic w) = packWord (fieldOpc r.pattern)
      (if fieldCtx r.mask = 0 then fieldCtx w else 0) (if fieldImm8 r.mask = 0 then fieldImm8 w else 0)
      (if fieldNbits r.mask = 0 then fieldNbits w else 0) := by
  intro r hr w
  simp only [opcodeRows, List.mem_cons, List.not_mem_nil, or_false] at hr
  rcases hr with rfl | rfl | rfl | rfl | rfl | rfl | rfl | rfl | rfl | rfl | rfl | rfl | rfl | rfl <;>
  · simp only [operandsOf, encodeWord, BitVec.ofNat_toNat, BitVec.setWidth_eq]
    rfl

/-- The word that spells a row is the encoding of the command read from it. -/
theorem encodeWord_of_spells {r : OpcodeRow} (hr : r ∈ opcodeRows) {w : BitVec 32} (h : r.spells w = true) :
    encodeWord (operandsOf r.mnemonic w) = w := by
  obtain ⟨ho, hc, hi, hn⟩ := fields_of_spells hr h
  obtain ⟨hmc, hmi, hmn⟩ := opcodeRows_mask r hr
  rw [encodeWord_operandsOf r hr, field_of_and_eq_zero hmc hc, field_of_and_eq_zero hmi hi,
    field_of_and_eq_zero hmn hn, ← ho,
    packWord_fields w (reserved_clear_of_spells hr h)]

/-- A value that decodes to a command has a zero upper half, and its lower half is the command's word. -/
theorem halves_of_decode {v : Word} {i : Instr} (h : decode v = .command i) :
    v.extractLsb' 32 32 = 0 ∧ v.extractLsb' 0 32 = encodeWord i := by
  unfold decode decodeWord at h
  split_ifs at h with hv
  split at h
  · next r hr =>
    obtain rfl := Decoded.command.inj h
    have hspells : r.spells (v.extractLsb' 0 32) = true := by simpa using List.find?_some hr
    exact ⟨not_not.mp hv, (encodeWord_of_spells (List.mem_of_find?_eq_some hr) hspells).symm⟩
  · cases h

/-- A value that decodes to a command is the command's encoding (30_encoding.md rules R100, R111). -/
theorem encode_of_decode {v : Word} {i : Instr} (h : decode v = .command i) : encode i = v := by
  obtain ⟨hhigh, hlow⟩ := halves_of_decode h
  rw [encode, ← hlow, ← hhigh]
  rw [BitVec.extractLsb'_append_extractLsb'_eq_extractLsb' (start₁ := 0) (by rfl)]
  simp

end Sys2Proof

/-! ### What one command can change -/

namespace Sys2Proof.Machine

/-- Everything the effect of a command can be: a context written, RESULT written (by VALUE and the combiner commands
only), a configuration latched, or nothing. -/
theorem effectOf_cases (s : State) (i : Instr) :
    (∃ c v, effectOf s i = s.setAcc c v) ∨
    (∃ v, (isCombiner i = true ∨ ∃ c, i = .value c) ∧ effectOf s i = s.setResult v) ∨
    (i = .configure ∧ effectOf s i = s.configured (latched s.staging)) ∨
    (i = .clearerr ∧ effectOf s i = s) := by
  cases i with
  | reset | updb | updbits | updbuf | updall => exact .inl ⟨_, _, rfl⟩
  | value c => exact .inr (.inl ⟨_, .inr ⟨c, rfl⟩, rfl⟩)
  | gfmul | gfxpow | combine | chseed | zeroes | residue => exact .inr (.inl ⟨_, .inl rfl, rfl⟩)
  | configure => exact .inr (.inr (.inl ⟨rfl, rfl⟩))
  | clearerr => exact .inr (.inr (.inr ⟨rfl, rfl⟩))

/-- No effect touches the fault record. -/
theorem effectOf_faultRecord (s : State) (i : Instr) :
    (effectOf s i).err = s.err ∧ (effectOf s i).errCode = s.errCode ∧ (effectOf s i).faultCmd = s.faultCmd := by
  rcases effectOf_cases s i with ⟨c, v, h⟩ | ⟨v, -, h⟩ | ⟨-, h⟩ | ⟨-, h⟩ <;> simp [h]

/-- Only CONFIGURE's effect touches the active configuration and what is built from it. -/
theorem effectOf_configuration (s : State) {i : Instr} (hi : i ≠ .configure) :
    (effectOf s i).active = s.active ∧ (effectOf s i).cfgValid = s.cfgValid ∧ (effectOf s i).tables = s.tables ∧
    (effectOf s i).field = s.field := by
  rcases effectOf_cases s i with ⟨c, v, h⟩ | ⟨v, -, h⟩ | ⟨hc, -⟩ | ⟨-, h⟩
  · simp [h]
  · simp [h]
  · exact absurd hc hi
  · simp [h]

/-- Only VALUE and the combiner commands write RESULT. -/
theorem effectOf_result (s : State) {i : Instr} (hi : ¬ (isCombiner i = true ∨ ∃ c, i = .value c)) :
    (effectOf s i).result = s.result := by
  rcases effectOf_cases s i with ⟨c, v, h⟩ | ⟨v, hv, -⟩ | ⟨-, h⟩ | ⟨-, h⟩
  · simp [h]
  · exact absurd hv hi
  · simp [h]
  · simp [h]

/-- No effect touches a register the host writes, or the parameters. -/
theorem effectOf_hostRegisters (s : State) (i : Instr) :
    (effectOf s i).arg0 = s.arg0 ∧ (effectOf s i).arg1 = s.arg1 ∧ (effectOf s i).arg2 = s.arg2 ∧
    (effectOf s i).arg3 = s.arg3 ∧ (effectOf s i).bufBase = s.bufBase ∧ (effectOf s i).bufLen = s.bufLen ∧
    (effectOf s i).staging = s.staging ∧ (effectOf s i).params = s.params := by
  rcases effectOf_cases s i with ⟨c, v, h⟩ | ⟨v, -, h⟩ | ⟨-, h⟩ | ⟨-, h⟩ <;> simp [h]

/-- Settles O49: no effect touches those registers, and neither does a fault or leaving one. -/
theorem commandsLeaveHostRegisters : Obligations.CommandsLeaveHostRegisters := by
  intro i s t h
  rcases exec_cases i s t h with ⟨rfl, -⟩ | ⟨-, -, rfl⟩ | ⟨k, -, -, -, rfl⟩ | ⟨-, -, -, rfl⟩
  · simp
  · simp
  · simp
  · exact effectOf_hostRegisters s i

section
variable {i : Instr} {s t : State}

/-- A command that records a fault took one, recording itself. -/
theorem exec_takes_fault (h : exec i s = .next t) (hs : s.err = false) (ht : t.err = true) :
    ∃ k, t = s.takeFault k (encode i) := by
  rcases exec_cases i s t h with ⟨rfl, -⟩ | ⟨-, -, rfl⟩ | ⟨k, -, -, -, rfl⟩ | ⟨-, -, -, rfl⟩
  · simp [hs] at ht
  · simp at ht
  · exact ⟨k, rfl⟩
  · simp [effectOf_faultRecord, hs] at ht

/-- A command that raises no fault while none is recorded has its effect. -/
theorem exec_has_effect (h : exec i s = .next t) (hi : i ≠ .clearerr) (hs : s.err = false) (ht : t.err = false) :
    firstFault (checksOf s i) = none ∧ t = effectOf s i := by
  rcases exec_cases i s t h with ⟨-, he | hc⟩ | ⟨hc, -⟩ | ⟨k, -, -, -, rfl⟩ | ⟨-, -, hf, ht'⟩
  · simp [hs] at he
  · exact absurd hc hi
  · exact absurd hc hi
  · simp at ht
  · exact ⟨hf, ht'⟩

/-- Only CLEARERR leaves the error state. -/
theorem eq_clearerr_of_err_cleared (h : exec i s = .next t) (hs : s.err = true) (ht : t.err = false) :
    i = .clearerr := by
  rcases exec_cases i s t h with ⟨rfl, -⟩ | ⟨hi, -⟩ | ⟨k, -, he, -⟩ | ⟨-, he, -⟩
  · simp [hs] at ht
  · exact hi
  · simp [hs] at he
  · simp [hs] at he

/-- Any command but CONFIGURE, and any that ends with a fault recorded, leaves the configuration alone. -/
theorem exec_configuration (h : exec i s = .next t) (hi : i ≠ .configure ∨ t.err = true) :
    t.active = s.active ∧ t.cfgValid = s.cfgValid ∧ t.tables = s.tables ∧ t.field = s.field := by
  rcases exec_cases i s t h with ⟨rfl, -⟩ | ⟨-, -, rfl⟩ | ⟨k, -, -, -, rfl⟩ | ⟨-, he, -, rfl⟩
  · simp
  · simp
  · simp
  · exact effectOf_configuration s (hi.resolve_right (by simp [effectOf_faultRecord, he]))

/-- A CONFIGURE that succeeds sets CFG_VALID. -/
theorem configure_sets_cfgValid (h : exec .configure s = .next t) (ht : t.err = false) : t.cfgValid = true := by
  cases hs : s.err with
  | false =>
    obtain ⟨-, rfl⟩ := exec_has_effect h (by simp) hs ht
    rfl
  | true => cases eq_clearerr_of_err_cleared h hs ht

/-- No command clears CFG_VALID. -/
theorem exec_keeps_cfgValid (h : exec i s = .next t) (hs : s.cfgValid = true) : t.cfgValid = true := by
  by_cases hi : i ≠ .configure ∨ t.err = true
  · exact (exec_configuration h hi).2.1.trans hs
  · obtain ⟨rfl, ht⟩ := by simpa using hi
    exact configure_sets_cfgValid h ht

/-- Only CONFIGURE sets CFG_VALID. -/
theorem eq_configure_of_cfgValid_set (h : exec i s = .next t) (hs : s.cfgValid = false) (ht : t.cfgValid = true) :
    i = .configure := by
  by_contra hi
  obtain ⟨-, hv, -⟩ := exec_configuration h (.inl hi)
  simp [hs, hv] at ht

end

/-- Settles O50: a staging write is an update of one field, and only CONFIGURE's effect touches the configuration. -/
theorem stagingWritesChangeOnlyTheirRegister : Obligations.StagingWritesChangeOnlyTheirRegister :=
  ⟨fun _ _ => ⟨rfl, rfl, rfl, rfl, rfl⟩, fun _ _ _ h hi => exec_configuration h hi⟩

end Sys2Proof.Machine

/-! ### What one step does to the flags -/

namespace Sys2Proof.Machine

/-- The next command is the one the oldest access writes to CMD. -/
theorem nextCommand_of_cmdWrite {s : State} {v : Word} {rest : List HostEvent} {i : Instr}
    (hp : s.pending = cmdWrite s.params v :: rest) (hd : decode v = .command i) : s.nextCommand = some i := by
  simp [State.nextCommand, hp, cmdWrite, hd]

/-- A step that is no reset leaves the flags alone or issues the value that its access writes to CMD. -/
theorem step_flags {s t : State} (hr : ∀ rest, s.pending ≠ .resetInput :: rest) (h : step s = .next t) :
    (t.cfgValid = s.cfgValid ∧ t.err = s.err) ∨
    ∃ v rest, s.pending = cmdWrite s.params v :: rest ∧
      issue v { s with pending := rest, response := .written } = .next t := by
  rcases step_cases h with ⟨-, rfl⟩ | ⟨e, rest, hp, he⟩
  · exact .inl ⟨rfl, rfl⟩
  · rcases perform_cases he with ⟨rfl, -⟩ | ⟨v, rfl, hv⟩ | ⟨a, bytes, -, rfl⟩ | hs
    · exact absurd hp (hr rest)
    · exact .inr ⟨v, rest, hp, hv⟩
    · exact .inl ⟨rfl, rfl⟩
    · rw [hs]
      exact .inl ⟨rfl, rfl⟩

/-- Issuing a value that records a fault records that value in FAULT_CMD (60_exceptions.md rule R258). -/
theorem issue_records_value {v : Word} {s t : State} (h : issue v s = .next t) (hs : s.err = false)
    (ht : t.err = true) : t.faultCmd = v := by
  rcases issue_cases h with ⟨i, hd, hi⟩ | ⟨he, -⟩ | ⟨-, rfl⟩
  · obtain ⟨k, rfl⟩ := exec_takes_fault hi hs ht
    exact encode_of_decode hd
  · simp [hs] at he
  · rfl

/-- Issuing a value never clears CFG_VALID. -/
theorem issue_keeps_cfgValid {v : Word} {s t : State} (h : issue v s = .next t) (hs : s.cfgValid = true) :
    t.cfgValid = true := by
  rcases issue_cases h with ⟨i, -, hi⟩ | ⟨-, rfl⟩ | ⟨-, rfl⟩
  · exact exec_keeps_cfgValid hi hs
  · exact hs
  · exact hs

/-- A value that is issued and sets CFG_VALID or clears ERR decodes to a command. -/
theorem issue_runs_command {v : Word} {s t : State} (h : issue v s = .next t)
    (hc : (s.cfgValid = false ∧ t.cfgValid = true) ∨ (s.err = true ∧ t.err = false)) :
    ∃ i, decode v = .command i ∧ exec i s = .next t := by
  rcases issue_cases h with hi | ⟨-, rfl⟩ | ⟨he, rfl⟩
  · exact hi
  · simp +contextual at hc
  · simp +contextual [he] at hc

/-- Settles O16: the flags change only in a step that issues a value, and there as the command it decodes to says. -/
theorem statusFlagsChangeOnlyAsStated : Obligations.StatusFlagsChangeOnlyAsStated := by
  intro s t hr h
  rcases step_flags hr h with ⟨hv, he⟩ | ⟨v, rest, hp, hi⟩
  · simp +contextual [hv, he]
  · refine ⟨fun hs => issue_keeps_cfgValid hi hs, fun hs ht => ?_, fun hs ht => ?_,
      fun hs ht => ⟨v, rest, hp, issue_records_value hi hs ht⟩⟩
    · obtain ⟨i, hd, hx⟩ := issue_runs_command hi (.inr ⟨hs, ht⟩)
      rw [nextCommand_of_cmdWrite hp hd, eq_clearerr_of_err_cleared hx hs ht]
    · obtain ⟨i, hd, hx⟩ := issue_runs_command hi (.inl ⟨hs, ht⟩)
      rw [nextCommand_of_cmdWrite hp hd, eq_configure_of_cfgValid_set hx hs ht]

/-- A step whose oldest access writes a value to CMD issues the value on the state in which the access has left the
list and is answered. -/
theorem step_cmdWrite {s : State} {v : Word} {rest : List HostEvent} (hp : s.pending = cmdWrite s.params v :: rest) :
    step s = issue v { s with pending := rest, response := .written } :=
  (performNext_cons s _ rest hp).trans (perform_cmdWrite { s with pending := rest } v s.params rfl)

/-- Settles O6: a step performs the oldest access, and the write of a value to CMD issues it. -/
theorem stepRunsTheDecodedCommand : Obligations.StepRunsTheDecodedCommand := by
  have hfetch (s : State) (nbits w : Nat) : (s.withFetchWord nbits w).pending =
      cmdWrite (s.withFetchWord nbits w).params (BitVec.ofNat 64 (w % 2 ^ nbits)) :: s.pending := rfl
  refine ⟨performNext_cons, fun s v rest hp => ⟨step_cmdWrite hp, fun i hd => ?_⟩,
    fun s nbits w => ⟨step_cmdWrite (hfetch s nbits w), fun i hd => ?_⟩⟩
  · exact (step_cmdWrite hp).trans (issue_command v i hd _)
  · exact (step_cmdWrite (hfetch s nbits w)).trans (issue_command _ i hd _)

end Sys2Proof.Machine

/-! ### RESULT and the values written to it -/

namespace Sys2Proof.Machine

/-- A legal configuration has a field to compute in. -/
theorem ActiveConfig.Legal.fieldOk {nw : Nat} (hnw : nw ≤ 64) {a : ActiveConfig} (h : a.Legal nw) : FieldOk a :=
  ⟨h.width_pos, h.width_le.trans hnw, h.poly_bits⟩

/-- A product is a w-bit value, whatever its factors. -/
theorem fieldMul_isBits {a : ActiveConfig} (h : FieldOk a) (u v : Word) : isBits a.w (fieldMul a u v) = true := by
  rw [fieldMul_eq_sum]
  exact sumOfPowers_bits a h _ _ (isBits_and_mask _ _) _

/-- `CANON` is a w-bit value. -/
theorem canonValue_isBits {a : ActiveConfig} (hw : a.w ≤ 64) (hx : isBits a.w a.axor = true) :
    isBits a.w (canonValue a) = true := by
  unfold canonValue
  split
  · exact hx
  · exact isBits_bitrev _ hw _

/-- A power of `x` in a field context with this configuration's entries is that many multiplications by `x`. -/
theorem xPowN_buildFieldContext {a : ActiveConfig} (h : FieldOk a) (n : Word) :
    xPowN a (buildFieldContext a) n = (timesX a)^[n.toNat] (fieldOne a) := by
  have := xPowN_prefix a h n 64 le_rfl
  rwa [Nat.mod_eq_of_lt n.isLt] at this

section
variable {s : State} (hinv : s.Inv) (hready : s.ready)
include hinv hready

/-- In a configured state with the invariant the field arithmetic is that of the active configuration. -/
theorem fieldOk_active : FieldOk s.active :=
  (hinv.config.legal hready.2).fieldOk (by rcases nw_cases s with h | h <;> omega)

/-- Products in the current field context are w-bit values. -/
theorem State.gfMul_isBits (u v : Word) : isBits s.active.w (s.gfMul u v) = true := by
  rw [State.gfMul, hinv.config.field hready.2]
  exact fieldMul_isBits (fieldOk_active hinv hready) u v

/-- Powers of `x` in the current field context are w-bit values. -/
theorem State.xPowN_isBits (n : Word) : isBits s.active.w (s.xPowN n) = true := by
  have h := fieldOk_active hinv hready
  rw [State.xPowN, hinv.config.field hready.2, xPowN_buildFieldContext h]
  exact timesX_iterate_bits _ h _ _ (fieldOne_isBits _ h)

/-- The current CANON is a w-bit value. -/
theorem field_canon_isBits : isBits s.active.w s.field.canon = true := by
  rw [hinv.config.field hready.2]
  exact canonValue_isBits (fieldOk_active hinv hready).w2 (hinv.config.legal hready.2).xor_bits

/-- The current RESK is a w-bit value. -/
theorem field_resk_isBits : isBits s.active.w s.field.resk = true := by
  rw [hinv.config.field hready.2]
  exact fieldMul_isBits (fieldOk_active hinv hready) _ _

/-- What VALUE and the combiner commands write to RESULT is a w-bit value (10_state.md rule R34). -/
theorem effectOf_result_isBits {i : Instr} (hi : isCombiner i = true ∨ ∃ c, i = .value c) :
    isBits s.active.w (effectOf s i).result = true := by
  have hmul := State.gfMul_isBits hinv hready
  have hop (v : Word) : isBits s.active.w (s.operand v) = true := isBits_and_mask _ _
  cases i with
  | value c => exact isBits_and_mask _ _
  | gfmul => exact hmul _ _
  | gfxpow => exact State.xPowN_isBits hinv hready _
  | combine | chseed => exact isBits_xor _ _ _ (hop _) (hmul _ _)
  | zeroes => exact isBits_xor _ _ _ (hmul _ _) (field_canon_isBits hinv hready)
  | residue => exact field_resk_isBits hinv hready
  | configure | clearerr | reset | updb | updbits | updbuf | updall => simp [isCombiner] at hi

end

/-- A command that is neither VALUE nor a combiner command leaves RESULT alone. -/
theorem exec_result {i : Instr} {s t : State} (h : exec i s = .next t)
    (hi : ¬ (isCombiner i = true ∨ ∃ c, i = .value c)) : t.result = s.result := by
  rcases exec_cases i s t h with ⟨rfl, -⟩ | ⟨-, -, rfl⟩ | ⟨k, -, -, -, rfl⟩ | ⟨-, -, -, rfl⟩
  · rfl
  · rfl
  · rfl
  · exact effectOf_result s hi

/-- Settles O47: only the effects of VALUE and the combiner commands write RESULT, and they write w-bit values. -/
theorem resultIsWrittenByItsCommandsOnly : Obligations.ResultIsWrittenByItsCommandsOnly := by
  refine ⟨fun i s t h => ⟨fun ⟨hc, hv⟩ => ?_, fun hs ht => ?_, fun hinv hready ht hi => ?_⟩, rfl,
    fun s v => ⟨rfl, rfl⟩, fun p n => rfl⟩
  · exact exec_result h (by simp [hc, hv])
  · obtain ⟨k, rfl⟩ := exec_takes_fault h hs ht
    rfl
  · have hne : i ≠ .clearerr := by rintro rfl; simp [isCombiner] at hi
    obtain ⟨-, rfl⟩ := exec_has_effect h hne hready.1 ht
    exact effectOf_result_isBits hinv hready hi

end Sys2Proof.Machine

/-! ### The read-only words -/

namespace Sys2Proof.Machine

/-- The layout STATUS and ACT_CFG share: a byte at `[15:8]` and two flags at the bottom. -/
def flagWord (x : BitVec 8) (b1 b0 : Bool) : BitVec (48 + 8 + 6 + 1 + 1) :=
  (0 : BitVec 48) ++ x ++ (0 : BitVec 6) ++ BitVec.ofBool b1 ++ BitVec.ofBool b0

theorem statusWord_eq (s : State) : statusWord s = flagWord s.errCode.code s.err s.cfgValid := rfl

theorem actCfgWord_eq (a : ActiveConfig) : actCfgWord a = flagWord (a.alanes.setWidth 8) a.refOut a.refIn := rfl

/-- The fields of a word of that layout. -/
theorem flagWord_fields (x : BitVec 8) (b1 b0 : Bool) :
    (flagWord x b1 b0).getLsbD 0 = b0 ∧ (flagWord x b1 b0).getLsbD 1 = b1 ∧
    (flagWord x b1 b0).extractLsb' 8 8 = x ∧ (flagWord x b1 b0).extractLsb' 2 6 = 0 ∧
    (flagWord x b1 b0).extractLsb' 16 48 = 0 := by
  unfold flagWord
  refine ⟨?_, ?_, ?_, ?_, ?_⟩
  · simp only [BitVec.getLsbD_append]
    simp
  · simp only [BitVec.getLsbD_append]
    simp
  all_goals
    simp (disch := decide) only [BitVec.extractLsb'_append_eq_of_le, BitVec.extractLsb'_append_eq_of_add_le]
    exact BitVec.extractLsb'_eq_self

/-- PARAM with its type as the sum of its fields' widths. -/
def paramFields (p : Params) : BitVec (32 + 20 + 4 + 6 + 2) :=
  BitVec.ofNat 32 p.dmemBytes ++ (0 : BitVec 20) ++ BitVec.ofNat 4 p.nctxM1.val ++ (0 : BitVec 6) ++ nwCode p.nw

theorem paramWord_eq (p : Params) : paramWord p = paramFields p := rfl

/-- The fields of PARAM (10_state.md rule R23). -/
theorem paramWord_fields (p : Params) :
    (paramWord p).extractLsb' 0 2 = nwCode p.nw ∧ (paramWord p).extractLsb' 2 6 = 0 ∧
    (paramWord p).extractLsb' 8 4 = BitVec.ofNat 4 p.nctxM1.val ∧ (paramWord p).extractLsb' 12 20 = 0 ∧
    (paramWord p).extractLsb' 32 32 = BitVec.ofNat 32 p.dmemBytes := by
  rw [paramWord_eq, paramFields]
  refine ⟨?_, ?_, ?_, ?_, ?_⟩ <;>
  · simp (disch := decide) only [BitVec.extractLsb'_append_eq_of_le, BitVec.extractLsb'_append_eq_of_add_le]
    exact BitVec.extractLsb'_eq_self

/-- NCTXM1 is one less than the number of contexts. -/
theorem paramWord_nctx (p : Params) : ((paramWord p).extractLsb' 8 4).toNat + 1 = p.nctx := by
  obtain ⟨-, -, hn, -, -⟩ := paramWord_fields p
  rw [hn, BitVec.toNat_ofNat, Nat.mod_eq_of_lt p.nctxM1.isLt]
  rfl

/-- Legal parameters have a DMEM size that fits its field. -/
theorem paramWord_dmemBytes {p : Params} (hp : p.wf = true) :
    ((paramWord p).extractLsb' 32 32).toNat = p.dmemBytes := by
  obtain ⟨-, -, -, -, hd⟩ := paramWord_fields p
  simp only [Params.wf, Bool.and_eq_true, decide_eq_true_eq] at hp
  obtain ⟨⟨-, hlt⟩, -⟩ := hp
  rw [hd, BitVec.toNat_ofNat, Nat.mod_eq_of_lt hlt]

/-- ALANES reads as the lane count. -/
theorem actCfgWord_lanes (a : ActiveConfig) : ((actCfgWord a).extractLsb' 8 8).toNat = a.lanes := by
  obtain ⟨-, -, hl, -, -⟩ := flagWord_fields (a.alanes.setWidth 8) a.refOut a.refIn
  exact (congrArg BitVec.toNat hl).trans (BitVec.toNat_setWidth_of_le (by decide))

/-- What STATUS reads depends on its three fields only. -/
theorem statusWord_congr {s t : State} (hc : t.cfgValid = s.cfgValid) (he : t.err = s.err)
    (hk : t.errCode = s.errCode) : statusWord t = statusWord s := by
  rw [statusWord, statusWord, hc, he, hk]

/-- Any command but CONFIGURE and CLEARERR that raises no fault leaves STATUS as it was. -/
theorem exec_statusWord {i : Instr} {s t : State} (h : exec i s = .next t) (hi : i ≠ .configure) (hc : i ≠ .clearerr)
    (hst : s.err = true ∨ t.err = false) : statusWord t = statusWord s := by
  rcases exec_cases i s t h with ⟨rfl, -⟩ | ⟨hcl, -⟩ | ⟨k, -, he, -, rfl⟩ | ⟨-, -, -, rfl⟩
  · rfl
  · exact absurd hcl hc
  · simp [he] at hst
  · obtain ⟨he, hk, -⟩ := effectOf_faultRecord s i
    exact statusWord_congr (effectOf_configuration s hi).2.1 he hk

/-- In a state with the invariant STATUS shows the code 0 while ERR = 0 (10_state.md rule R24). -/
theorem statusWord_code_of_no_err {s : State} (h : s.Inv) (he : s.err = false) :
    (statusWord s).extractLsb' 8 8 = 0 := by
  obtain ⟨-, -, hcode, -, -⟩ := flagWord_fields s.errCode.code s.err s.cfgValid
  rw [statusWord_eq]
  refine hcode.trans ?_
  rw [(h.fault.clear he).1]
  rfl

/-- Settles O51: the three words field by field, and when STATUS changes by what a command can do to the flags. -/
theorem readOnlyWordsHaveTheirFields : Obligations.ReadOnlyWordsHaveTheirFields := by
  have hzero : flagWord 0 false false = 0 := by decide
  refine ⟨⟨rfl, rfl, rfl, rfl⟩, fun s v => ⟨rfl, rfl, rfl, rfl⟩, fun p n => ⟨hzero, hzero⟩,
    fun i s t h => ⟨exec_keeps_cfgValid h, ?_, eq_clearerr_of_err_cleared h, exec_statusWord h⟩,
    fun s => statusWord_code_of_no_err, fun s => ?_⟩
  · rintro rfl ht
    exact configure_sets_cfgValid h ht
  · obtain ⟨hnw, hp2, -, hp12, -⟩ := paramWord_fields s.params
    obtain ⟨hs0, hs1, hs8, hs2, hs16⟩ := flagWord_fields s.errCode.code s.err s.cfgValid
    obtain ⟨ha0, ha1, -, ha2, ha16⟩ := flagWord_fields (s.active.alanes.setWidth 8) s.active.refOut s.active.refIn
    refine ⟨rfl, hnw.trans ?_, paramWord_nctx _, hp2, hp12, paramWord_dmemBytes, hs0, hs1, hs8.trans ?_, hs2, hs16,
      ha0, ha1, actCfgWord_lanes _, ha2, ha16⟩
    · cases s.params.nw <;> rfl
    · cases s.errCode <;> rfl

end Sys2Proof.Machine

/-! ### The register map -/

namespace Sys2Proof.Machine

/-- In the windows and in the gaps between them no register is named (10_state.md rule R21). -/
theorem regAt_eq_windowAt {offset : Nat} (h : 0x80 ≤ offset ∧ offset < 0x100 ∨ 0x130 ≤ offset) :
    regAt offset = windowAt offset := by
  unfold regAt
  split
  case h_23 => rfl
  all_goals omega

theorem regAt_acc {c : Nat} (hc : c < 16) : regAt (0x80 + 8 * c) = .acc c := by
  rw [regAt_eq_windowAt (by omega), windowAt, if_pos (by omega)]
  congr 1
  omega

theorem regAt_xpow {i : Nat} (hi : i < 64) : regAt (0x400 + 8 * i) = .xpow i := by
  rw [regAt_eq_windowAt (by omega), windowAt, if_neg (by omega), if_pos (by omega)]
  congr 1
  omega

theorem regAt_table {k n : Nat} (hk : k < 16) (hn : n < 256) : regAt (0x8000 + 8 * (256 * k + n)) = .table k n := by
  rw [regAt_eq_windowAt (by omega), windowAt, if_neg (by omega), if_neg (by omega), if_pos (by omega)]
  congr 1 <;> omega

/-- The two gaps of the map are unmapped (10_state.md rule R42). -/
theorem regAt_gap {offset : Nat}
    (h : (0x130 ≤ offset ∧ offset < 0x400) ∨ (0x600 ≤ offset ∧ offset < 0x8000)) : regAt offset = .unmapped := by
  rw [regAt_eq_windowAt (by omega), windowAt, if_neg (by omega), if_neg (by omega), if_neg (by omega)]

/-- Settles O22: the windows' offsets are arithmetic, and their reads and writes are the model's cases. -/
theorem windowsReadTheInternalStorage : Obligations.WindowsReadTheInternalStorage := by
  refine ⟨fun i => regAt_xpow, fun k n => regAt_table, fun s i _ => rfl, fun s k n _ _ => ?_,
    fun s v i k n => ⟨rfl, rfl⟩⟩
  simp [readReg]

/-- Settles O56: the window's offsets are arithmetic, and a context reads 0 from NCTX on. -/
theorem accumulatorWindowReadsTheFile : Obligations.AccumulatorWindowReadsTheFile :=
  ⟨fun _ => regAt_acc, fun _ _ hc => if_pos hc, fun _ _ hc => if_neg (Nat.not_lt.mpr hc), fun _ _ _ => rfl,
    ⟨rfl, rfl, rfl, rfl⟩, fun _ _ => ⟨rfl, rfl, rfl, rfl⟩, fun _ _ => ⟨rfl, rfl⟩, fun _ => ⟨rfl, rfl, rfl, rfl⟩⟩

/-- The registers that read back what the host writes to them (10_state.md rules R26 to R33). -/
def readWriteRegs : List Reg :=
  [.modelWidth, .modelPoly, .modelInit, .modelXorout, .modelCfg, .bufBase, .bufLen, .arg0, .arg1, .arg2, .arg3]

/-- A read-write register reads what was written to it, and every other register reads as before. -/
theorem readReg_writeReg {r : Reg} (hr : r ∈ readWriteRegs) {v : Word} {s t : State} (h : writeReg r v s = .next t) :
    readReg r t = v ∧ ∀ q, q ≠ r → readReg q t = readReg q s := by
  simp only [readWriteRegs, List.mem_cons, List.not_mem_nil, or_false] at hr
  rcases hr with rfl | rfl | rfl | rfl | rfl | rfl | rfl | rfl | rfl | rfl | rfl <;>
  · obtain rfl := Host.Outcome.next.inj h
    refine ⟨rfl, fun q hq => ?_⟩
    cases q <;> first | exact absurd rfl hq | rfl

/-- A write to a place that is neither CMD nor a read-write register is ignored. -/
theorem writeReg_ignored {r : Reg} (hr : r ∉ Reg.cmd :: readWriteRegs) (v : Word) (s : State) :
    writeReg r v s = .next s := by
  cases r <;> simp [readWriteRegs] at hr <;> rfl

/-- An 8-byte read at an aligned register offset answers the register's value and changes nothing else. -/
theorem perform_read_register (s : State) {offset : Nat} (h : offset < 0x10000) (ha : offset % 8 = 0) :
    perform (.read (s.params.blockBase + offset) 8) s = .next (s.respond (.data (readReg (regAt offset) s))) := by
  simp only [perform, offsetOf_add, hostRead_register s offset h ha]

/-- An 8-byte write at an aligned register offset is a write to the register. -/
theorem perform_write_register (s : State) (v : Word) {offset : Nat} (h : offset < 0x10000) (ha : offset % 8 = 0) :
    perform (.write (s.params.blockBase + offset) 8 v) s = writeReg (regAt offset) v (s.respond .written) := by
  simp only [perform, offsetOf_add, hostWrite_register s offset v h ha]

/-- Settles O52: the offsets are the map's, and an access at an aligned offset reads or writes the register there. -/
theorem registersReadBackOrIgnoreWrites : Obligations.RegistersReadBackOrIgnoreWrites := by
  refine ⟨⟨rfl, rfl, rfl, rfl, rfl, rfl, rfl, rfl, rfl, rfl, rfl, rfl, rfl⟩,
    fun s => ⟨rfl, rfl, rfl, rfl, rfl, rfl, rfl⟩, fun s v => ⟨rfl, rfl, rfl, rfl, rfl, rfl⟩,
    fun s offset h ha => ⟨perform_read_register s h ha, fun v => perform_write_register s v h ha⟩,
    fun s t r v hr h => readReg_writeReg hr h, fun s r v hr => writeReg_ignored hr v s, fun s => ⟨rfl, rfl⟩,
    fun offset ha hgap => ⟨regAt_gap hgap, fun p => ?_⟩⟩
  rw [targetOf_register p offset (by omega) ha, regAt_gap hgap]

end Sys2Proof.Machine

/-!
PROOFS of the statements on 20_memory.md: commands and DMEM; which accesses raise a bus error; reads and repeated writes;
the little-endian byte order of DMEM accesses.
-/

/-! ### Commands and DMEM -/

namespace Sys2Proof.Machine

/-- A DMEM byte depends on the recorded bytes and on the number of resets only. -/
theorem State.memRead_congr {s t : State} (hd : t.dmem = s.dmem) (hr : t.resets = s.resets) (a : Nat) :
    t.memRead a = s.memRead a := by
  simp only [State.memRead, hd, hr]

/-- No effect writes DMEM or counts as a reset. -/
theorem effectOf_memory (s : State) (i : Instr) :
    (effectOf s i).dmem = s.dmem ∧ (effectOf s i).resets = s.resets := by
  rcases effectOf_cases s i with ⟨c, v, h⟩ | ⟨v, -, h⟩ | ⟨-, h⟩ | ⟨-, h⟩ <;> simp [h]

/-- No command writes DMEM or counts as a reset. -/
theorem exec_memory {i : Instr} {s t : State} (h : exec i s = .next t) : t.dmem = s.dmem ∧ t.resets = s.resets := by
  rcases exec_cases i s t h with ⟨rfl, -⟩ | ⟨-, -, rfl⟩ | ⟨k, -, -, -, rfl⟩ | ⟨-, -, -, rfl⟩
  · exact ⟨rfl, rfl⟩
  · exact ⟨rfl, rfl⟩
  · exact ⟨rfl, rfl⟩
  · exact effectOf_memory s i

/-- A change of the state that keeps ERR and commutes with the fault entry and with the effect commutes with a command
whose checks do not see it. -/
theorem runCommand_mapNext {f : State → State} {s : State} {effect : State → State} (i : Instr)
    (checks : List (Bool × FaultCode)) (herr : (f s).err = s.err)
    (hfault : ∀ k v, (f s).takeFault k v = f (s.takeFault k v)) (heffect : effect (f s) = f (effect s)) :
    runCommand i (f s) checks effect = mapNext f (runCommand i s checks effect) := by
  cases he : s.err with
  | true => rw [runCommand_dropped _ _ _ _ he, runCommand_dropped _ _ _ _ (herr.trans he), mapNext]
  | false =>
    cases hk : firstFault checks with
    | some k =>
      rw [runCommand_faults _ _ _ _ he k hk, runCommand_faults _ _ _ _ (herr.trans he) k hk, mapNext, hfault]
    | none => rw [runCommand_performs _ _ _ _ he hk, runCommand_performs _ _ _ _ (herr.trans he) hk, mapNext, heffect]

/-- No check looks into DMEM: the range checks speak of its size. -/
theorem checksOf_withDmem (s : State) (d : Memory) (i : Instr) : checksOf { s with dmem := d } i = checksOf s i := by
  cases i <;> rfl

/-- No effect but UPDBUF's and UPDALL's looks into DMEM. -/
theorem effectOf_withDmem (s : State) (d : Memory) {i : Instr} (hi : ∀ c, i ≠ .updbuf c ∧ i ≠ .updall c) :
    effectOf { s with dmem := d } i = { effectOf s i with dmem := d } := by
  cases i with
  | updbuf c => exact absurd rfl (hi c).1
  | updall c => exact absurd rfl (hi c).2
  | configure | clearerr | reset | updb | updbits | value | gfmul | gfxpow | combine | chseed | zeroes | residue => rfl

/-- Replacing DMEM commutes with every command but UPDBUF and UPDALL. -/
theorem exec_withDmem (s : State) (d : Memory) {i : Instr} (hi : ∀ c, i ≠ .updbuf c ∧ i ≠ .updall c) :
    exec i { s with dmem := d } = mapNext (fun t => { t with dmem := d }) (exec i s) := by
  by_cases hc : i = .clearerr
  · subst hc
    rw [exec_clearerr, exec_clearerr, mapNext]
    dsimp only
    split_ifs <;> rfl
  · rw [exec_eq_runCommand i _ hc, exec_eq_runCommand i s hc, checksOf_withDmem]
    exact runCommand_mapNext (f := fun t => { t with dmem := d }) i _ rfl (fun _ _ => rfl) (effectOf_withDmem s d hi)

/-- Settles O48: no outcome of a command writes DMEM, and neither checks nor effects but those of UPDBUF and UPDALL
look into it. -/
theorem commandsOnlyReadDmem : Obligations.CommandsOnlyReadDmem := by
  intro i s
  refine ⟨fun t h => ?_, fun hi d => exec_withDmem s d hi⟩
  obtain ⟨hd, hr⟩ := exec_memory h
  exact ⟨hd, State.memRead_congr hd hr⟩

end Sys2Proof.Machine

/-! ### Bus errors -/

namespace Sys2Proof.Machine

/-- The widths of DMEM accesses (20_memory.md rule R78). -/
theorem dmemWidth_iff {width : Nat} : dmemWidth width = true ↔ width = 1 ∨ width = 2 ∨ width = 4 ∨ width = 8 := by
  simp [dmemWidth, or_assoc]

/-- The accesses that raise a bus error (20_memory.md rules R76, R78, R79). -/
theorem targetOf_eq_busError_iff (p : Params) (offset width : Nat) : targetOf p offset width = .busError ↔
    if offset < 0x10000 then ¬ (width = 8 ∧ offset % 8 = 0)
    else ¬ ((width = 1 ∨ width = 2 ∨ width = 4 ∨ width = 8) ∧ (offset - 0x10000) % width = 0 ∧
      offset - 0x10000 + width ≤ p.dmemBytes) := by
  rw [← dmemWidth_iff, targetOf]
  split_ifs with ho hr hd
  · simp [hr]
  · simp [hr]
  · simp [hd]
  · simp [hd]

/-- A write that raises a bus error changes nothing but the recorded answer. -/
theorem perform_write_busError {s : State} {offset width : Nat} (v : Word)
    (h : targetOf s.params offset width = .busError) :
    perform (.write (s.params.blockBase + offset) width v) s = .next (s.respond .busError) := by
  simp only [perform, offsetOf_add, hostWrite, h]

/-- A read that raises a bus error changes nothing but the recorded answer. -/
theorem perform_read_busError {s : State} {offset width : Nat} (h : targetOf s.params offset width = .busError) :
    perform (.read (s.params.blockBase + offset) width) s = .next (s.respond .busError) := by
  simp only [perform, offsetOf_add, hostRead, h]

/-- Settles O53: the targets are the rules' cases, and an access with no target is only answered. -/
theorem busErrorsChangeNothing : Obligations.BusErrorsChangeNothing :=
  ⟨targetOf_eq_busError_iff, fun _ _ _ v h => ⟨perform_write_busError v h, perform_read_busError h⟩⟩

end Sys2Proof.Machine

/-! ### Reads, and writes repeated -/

namespace Sys2Proof.Machine

/-- A host read is answered and changes nothing. -/
theorem perform_read_responds (s : State) (address width : Nat) :
    ∃ r, perform (.read address width) s = .next (s.respond r) := by
  simp only [perform]
  split <;> exact ⟨_, rfl⟩

/-- A register write other than to CMD, repeated, changes nothing more. -/
theorem writeReg_idempotent {r : Reg} {v : Word} {s t : State} (hr : r ≠ .cmd) (h : writeReg r v s = .next t) :
    writeReg r v t = .next t := by
  by_cases hrw : r ∈ readWriteRegs
  · simp only [readWriteRegs, List.mem_cons, List.not_mem_nil, or_false] at hrw
    rcases hrw with rfl | rfl | rfl | rfl | rfl | rfl | rfl | rfl | rfl | rfl | rfl <;>
    · obtain rfl := Host.Outcome.next.inj h
      rfl
  · exact writeReg_ignored (List.not_mem_cons_of_ne_of_not_mem hr hrw) v t

/-- A write below every address of a memory goes to its front. -/
theorem Memory.write_of_above {m : Memory} {a : Nat} (b : Byte) (h : m.above a = true) : m.write a b = (a, b) :: m := by
  cases m with
  | nil => rfl
  | cons cell rest => exact if_pos (of_decide_eq_true h)

/-- Writes at two addresses commute, in any memory list: a write passes over the addresses below its own. -/
theorem Memory.write_comm (m : Memory) {x y : Nat} (b c : Byte) (hxy : x < y) :
    (m.write x b).write y c = (m.write y c).write x b := by
  induction m with
  | nil => simp [Memory.write, hxy, hxy.ne', hxy.not_gt]
  | cons cell rest ih =>
    obtain ⟨k, v⟩ := cell
    rcases lt_trichotomy x k with hx | rfl | hx
    · have hm : Memory.above x ((k, v) :: rest) = true := decide_eq_true hx
      rw [Memory.write_of_above b hm, Memory.write_of_above b (Memory.above_write x _ y c hm hxy), Memory.write,
        if_neg hxy.not_gt, if_neg hxy.ne']
    · simp [Memory.write, hxy.not_gt, hxy.ne']
    · have hy : k < y := hx.trans hxy
      simp [Memory.write, hx.not_gt, hx.ne', hy.not_gt, hy.ne', ih]

/-- A write below the bytes of a longer write commutes with it. -/
theorem Memory.writeAll_write_comm (m : Memory) {x a : Nat} (b : Byte) (bytes : List Byte) (hx : x < a) :
    (m.writeAll a bytes).write x b = (m.write x b).writeAll a bytes := by
  induction bytes generalizing m a with
  | nil => rfl
  | cons c cs ih => rw [Memory.writeAll, Memory.writeAll, ih _ (by omega), Memory.write_comm _ _ _ hx]

/-- Writing the same bytes twice is writing them once. -/
theorem Memory.writeAll_writeAll_same (m : Memory) (a : Nat) (bytes : List Byte) :
    (m.writeAll a bytes).writeAll a bytes = m.writeAll a bytes := by
  induction bytes generalizing m a with
  | nil => rfl
  | cons b bs ih =>
    simp only [Memory.writeAll]
    rw [Memory.writeAll_write_comm _ _ _ (Nat.lt_succ_self a), Memory.write_write_same, ih]

/-- A DMEM store repeated changes nothing more. -/
theorem State.storeBytes_storeBytes_same (s : State) (a : Nat) (bytes : List Byte) :
    (s.storeBytes a bytes).storeBytes a bytes = s.storeBytes a bytes := by
  simp only [State.storeBytes, Memory.writeAll_writeAll_same]

/-- A register write other than to CMD reaches no context, configuration, table, RESULT, DMEM byte or fault record. -/
theorem writeReg_keeps_internal {r : Reg} {v : Word} {s t : State} (hr : r ≠ .cmd) (h : writeReg r v s = .next t) :
    t.acc = s.acc ∧ t.active = s.active ∧ t.tables = s.tables ∧ t.field = s.field ∧ t.result = s.result ∧
    t.dmem = s.dmem ∧ t.cfgValid = s.cfgValid ∧ t.err = s.err ∧ t.errCode = s.errCode ∧ t.faultCmd = s.faultCmd := by
  rw [writeReg_sameInside hr h]
  simp

/-- Settles O54: a read only answers, a register holds the value of the last write to it, and a store puts the same
bytes at the same addresses. -/
theorem readsHaveNoEffectAndWritesAreIdempotent : Obligations.ReadsHaveNoEffectAndWritesAreIdempotent := by
  refine ⟨fun s t address width h => ?_, fun s t r v => writeReg_idempotent, State.storeBytes_storeBytes_same,
    fun s t r v => writeReg_keeps_internal⟩
  obtain ⟨r, hr⟩ := perform_read_responds s address width
  obtain rfl := Host.Outcome.next.inj (hr.symm.trans h)
  rfl

end Sys2Proof.Machine

/-! ### The byte order of DMEM accesses -/

namespace Sys2Proof.Machine

/-- The value of a byte sequence has no bits past its bytes. -/
theorem littleEndian_isBits (bytes : List Byte) : isBits (8 * bytes.length) (littleEndian bytes) = true := by
  rw [isBits_iff]
  intro i hi
  by_cases h : i < 64
  · rw [getLsbD_littleEndian _ _ h, List.getD_eq_default _ _ (by omega)]
    simp
  · exact BitVec.getLsbD_of_ge _ _ (by omega)

/-- Byte `j` of the low bytes of a word is its bits `[8j+7:8j]`. -/
theorem getElem_bytesOf (v : Word) (n j : Nat) (hj : j < (bytesOf v n).length) :
    (bytesOf v n)[j] = v.extractLsb' (8 * j) 8 := by
  simp only [bytesOf, List.getElem_map, List.getElem_range]
  exact BitVec.eq_of_toNat_eq (by simp [lowByte])

/-- The value of the low bytes of a word is its low bits. -/
theorem littleEndian_bytesOf (v : Word) (n : Nat) : littleEndian (bytesOf v n) = v &&& mask (8 * n) := by
  apply BitVec.eq_of_getLsbD_eq
  intro i hi
  rw [getLsbD_littleEndian _ _ hi, BitVec.getLsbD_and, getLsbD_mask]
  by_cases h : i < 8 * n
  · have hj : i / 8 < (bytesOf v n).length := by rw [bytesOf_length]; omega
    rw [List.getD_eq_getElem _ _ hj, getElem_bytesOf, BitVec.getLsbD_extractLsb', Nat.div_add_mod]
    simp [hi, h, Nat.mod_lt]
  · rw [List.getD_eq_default _ _ (by rw [bytesOf_length]; omega)]
    simp [h]

/-- The value of one byte is the byte. -/
theorem littleEndian_singleton (b : Byte) : littleEndian [b] = b.setWidth 64 := by
  simp [littleEndian]

/-- A stored byte is read back. -/
theorem State.storeBytes_memRead_inside (s : State) (a : Nat) {j : Nat} {bytes : List Byte} (hj : j < bytes.length) :
    (s.storeBytes a bytes).memRead (a + j) = bytes[j] := by
  simp only [State.memRead, State.storeBytes_dmem, Memory.read?_writeAll_inside _ _ _ _ hj]

/-- A byte outside a store reads as before. -/
theorem State.storeBytes_memRead_outside (s : State) {a x : Nat} {bytes : List Byte}
    (hx : x < a ∨ a + bytes.length ≤ x) : (s.storeBytes a bytes).memRead x = s.memRead x := by
  simp only [State.memRead, State.storeBytes_dmem, State.storeBytes_resets, Memory.read?_writeAll_outside _ _ _ _ hx]

/-- The stored bytes are read back. -/
theorem State.storeBytes_memBytes_same (s : State) (a : Nat) {bytes : List Byte} {n : Nat} (hn : bytes.length = n) :
    (s.storeBytes a bytes).memBytes a n = bytes := by
  subst hn
  apply List.ext_getElem (State.memBytes_length _ _ _)
  intro j _ hj
  simp [State.memBytes, State.storeBytes_memRead_inside _ _ hj]

section
variable {s : State} {a width : Nat}

/-- A legal DMEM read answers the value of the bytes that stand there and changes nothing else. -/
theorem perform_read_dmem (hw : dmemWidth width = true) (ha : a % width = 0) (hb : a + width ≤ s.params.dmemBytes) :
    perform (.read (s.params.blockBase + (0x10000 + a)) width) s =
      .next (s.respond (.data (littleEndian (s.memBytes a width)))) := by
  simp only [perform, offsetOf_add, hostRead, targetOf_dmem _ _ _ hw ha hb]

/-- A 1-byte read inside DMEM answers the byte. -/
theorem perform_read_dmem_byte (hb : a < s.params.dmemBytes) :
    perform (.read (s.params.blockBase + (0x10000 + a)) 1) s =
      .next (s.respond (.data ((s.memRead a).setWidth 64))) := by
  rw [perform_read_dmem rfl (Nat.mod_one a) hb, ← littleEndian_singleton]
  rfl

/-- A legal DMEM write stores the value's low bytes and changes nothing else but the answer. -/
theorem perform_write_dmem (v : Word) (hw : dmemWidth width = true) (ha : a % width = 0)
    (hb : a + width ≤ s.params.dmemBytes) :
    perform (.write (s.params.blockBase + (0x10000 + a)) width v) s =
      .next ((s.respond .written).storeBytes a (bytesOf v width)) := by
  simp only [perform, offsetOf_add, hostWrite, targetOf_dmem _ _ _ hw ha hb]

/-- Byte `j` of the value read is the byte at the `j`-th address. -/
theorem littleEndian_memBytes_byte (hw : width ≤ 8) {j : Nat} (hj : j < width) :
    (littleEndian (s.memBytes a width)).extractLsb' (8 * j) 8 = s.memRead (a + j) := by
  rw [littleEndian_byte _ _ (by omega), List.getD_eq_getElem _ _ (by rwa [State.memBytes_length])]
  simp [State.memBytes]

/-- After a store of a value's low bytes, byte `j` of the value stands at the `j`-th address. -/
theorem State.storeBytes_bytesOf_memRead (v : Word) {j : Nat} (hj : j < width) :
    (s.storeBytes a (bytesOf v width)).memRead (a + j) = v.extractLsb' (8 * j) 8 := by
  rw [State.storeBytes_memRead_inside _ _ (by rwa [bytesOf_length]), getElem_bytesOf]

/-- A read of the width of a store answers the low bits of the stored value. -/
theorem perform_read_dmem_stored (v : Word) (hw : dmemWidth width = true) (ha : a % width = 0)
    (hb : a + width ≤ s.params.dmemBytes) :
    perform (.read (s.params.blockBase + (0x10000 + a)) width) (s.storeBytes a (bytesOf v width)) =
      .next ((s.storeBytes a (bytesOf v width)).respond (.data (v &&& mask (8 * width)))) := by
  have hread := perform_read_dmem (s := s.storeBytes a (bytesOf v width)) hw ha hb
  rwa [State.storeBytes_memBytes_same s a (bytesOf_length v width), littleEndian_bytesOf] at hread

end

/-- Settles O55: a read answers the value of the bytes in DMEM, a write stores the bytes of its value, and the two are
inverse on the low bits. -/
theorem dmemAccessesAreLittleEndian : Obligations.DmemAccessesAreLittleEndian := by
  intro s a width v hwidth ha hb
  have hw : dmemWidth width = true := dmemWidth_iff.mpr hwidth
  refine ⟨⟨_, perform_read_dmem hw ha hb, fun j hj => littleEndian_memBytes_byte (by omega) hj, ?_⟩,
    _, perform_write_dmem v hw ha hb, fun j hj => State.storeBytes_bytesOf_memRead v hj, fun x hx => ?_, rfl,
    fun j hj => ?_, perform_read_dmem_stored v hw ha hb⟩
  · simpa only [State.memBytes_length] using littleEndian_isBits (s.memBytes a width)
  · exact State.storeBytes_memRead_outside (s.respond .written) (by rwa [bytesOf_length])
  · rw [← State.storeBytes_bytesOf_memRead v hj]
    exact perform_read_dmem_byte (show a + j < s.params.dmemBytes by omega)

end Sys2Proof.Machine

/-!
PROOFS of the statements on 30_encoding.md: the rows of the opcode table and the decoder; decoding and encoding as each
other's inverses; the pseudo-instructions MODEL and CRCBUF.
-/

/-! ### The rows and the decoder -/

namespace Sys2Proof

/-- A row spells a word when the word has the row's pattern under its mask. -/
theorem spells_iff {r : OpcodeRow} {w : BitVec 32} : r.spells w = true ↔ w &&& r.mask = r.pattern :=
  beq_iff_eq

/-- Distinct rows have distinct opcodes. -/
theorem row_eq_of_opcode_eq : ∀ r ∈ opcodeRows, ∀ q ∈ opcodeRows, fieldOpc r.pattern = fieldOpc q.pattern → r = q := by
  decide

/-- At most one row spells a word, because OPC is in every mask and every row has its own (30_encoding.md rule R111). -/
theorem row_eq_of_spells {w : BitVec 32} {r q : OpcodeRow} (hr : r ∈ opcodeRows) (hq : q ∈ opcodeRows)
    (hrw : r.spells w = true) (hqw : q.spells w = true) : r = q :=
  row_eq_of_opcode_eq r hr q hq ((fields_of_spells hr hrw).1.symm.trans (fields_of_spells hq hqw).1)

/-- A word that spells a row decodes to the row's command, wherever the row stands in the table. -/
theorem decodeWord_of_spells {w : BitVec 32} {r : OpcodeRow} (hr : r ∈ opcodeRows) (h : r.spells w = true) :
    decodeWord w = .command (operandsOf r.mnemonic w) := by
  cases hf : opcodeRows.find? (fun q => q.spells w) with
  | none => exact absurd h (List.find?_eq_none.mp hf r hr)
  | some q =>
    obtain rfl := row_eq_of_spells hr (List.mem_of_find?_eq_some hf) h (by simpa using List.find?_some hf)
    simp only [decodeWord, hf]

/-- A word that spells no row is illegal. -/
theorem decodeWord_of_not_spells {w : BitVec 32} (h : ∀ r ∈ opcodeRows, ¬ r.spells w = true) :
    decodeWord w = .illegal (illegalCause w) := by
  simp only [decodeWord, List.find?_eq_none.mpr h]

/-- A value with a zero upper half decodes as its lower half (30_encoding.md rule R100). -/
theorem decode_of_high_zero {v : Word} (h : v.extractLsb' 32 32 = 0) : decode v = decodeWord (v.extractLsb' 0 32) :=
  if_neg (not_not.mpr h)

/-- A value with a bit of its upper half set is illegal (30_encoding.md rule R100). -/
theorem decode_of_high_ne_zero {v : Word} (h : v.extractLsb' 32 32 ≠ 0) : decode v = .illegal .highBits :=
  if_pos h

/-- The values that decode to a command, and the command each decodes to (30_encoding.md rules R100, R111). -/
theorem decode_eq_command_iff {v : Word} {i : Instr} :
    decode v = .command i ↔ v.extractLsb' 32 32 = 0 ∧ ∃ r ∈ opcodeRows, r.spells (v.extractLsb' 0 32) = true ∧
      operandsOf r.mnemonic (v.extractLsb' 0 32) = i := by
  by_cases hv : v.extractLsb' 32 32 = 0
  · rw [decode_of_high_zero hv]
    by_cases hs : ∃ r ∈ opcodeRows, r.spells (v.extractLsb' 0 32) = true
    · obtain ⟨r, hr, h⟩ := hs
      rw [decodeWord_of_spells hr h, Decoded.command.injEq]
      refine ⟨fun hi => ⟨hv, r, hr, h, hi⟩, fun ⟨_, q, hq, hqw, hi⟩ => ?_⟩
      rwa [row_eq_of_spells hr hq h hqw]
    · rw [decodeWord_of_not_spells fun r hr h => hs ⟨r, hr, h⟩]
      exact ⟨nofun, fun ⟨_, r, hr, h, _⟩ => absurd ⟨r, hr, h⟩ hs⟩
  · rw [decode_of_high_ne_zero hv]
    exact ⟨nofun, fun ⟨h, _⟩ => absurd h hv⟩

/-- Settles O3: the decoder's cases, and the row's own opcode. -/
theorem decodeFollowsTheRowTable : Obligations.DecodeFollowsTheRowTable := by
  refine ⟨fun v hv => ⟨_, decode_of_high_ne_zero hv⟩, fun v hv r hr hw => ?_, fun v hv hnone => ?_,
    fun w r hr q hq hrw hqw => row_eq_of_spells hr hq (spells_iff.mpr hrw) (spells_iff.mpr hqw),
    fun w => ⟨rfl, rfl, rfl⟩⟩
  · exact decode_eq_command_iff.mpr ⟨hv, r, hr, spells_iff.mpr hw, rfl⟩
  · exact ⟨_, (decode_of_high_zero hv).trans (decodeWord_of_not_spells fun r hr hs => hnone r hr (spells_iff.mp hs))⟩

/-- The values that decode to no command (30_encoding.md rule R109). -/
theorem decode_ne_command_iff {v : Word} : (∀ i, decode v ≠ .command i) ↔
    v.extractLsb' 32 32 ≠ 0 ∨ ∀ r ∈ opcodeRows, v.extractLsb' 0 32 &&& r.mask ≠ r.pattern := by
  simp only [ne_eq, decode_eq_command_iff, spells_iff]
  constructor
  · intro h
    by_contra! hc
    obtain ⟨hv, r, hr, hw⟩ := hc
    exact h _ ⟨hv, r, hr, hw, rfl⟩
  · rintro h i ⟨hv, r, hr, hw, -⟩
    exact h.elim (· hv) (· r hr hw)

/-- A value that decodes to no command decodes to a cause. -/
theorem decode_eq_illegal {v : Word} (h : ∀ i, decode v ≠ .command i) : ∃ why, decode v = .illegal why := by
  cases hd : decode v with
  | command i => exact absurd hd (h i)
  | illegal why => exact ⟨why, rfl⟩

/-- Settles O5: the illegal values are those no row spells, and issuing one is the fault entry or nothing. -/
theorem illegalValueFaultsOrIsDropped : Obligations.IllegalValueFaultsOrIsDropped := by
  refine fun v => ⟨decode_ne_command_iff.symm, fun s h => ?_⟩
  obtain ⟨why, hd⟩ := decode_eq_illegal h
  exact Machine.issue_illegal v why hd s

end Sys2Proof

/-! ### The round trip -/

namespace Sys2Proof

/-- The operands read from a word fit their fields (30_encoding.md rules R103, R105). -/
theorem operandsOf_wellFormed (m : Mnemonic) (w : BitVec 32) : (operandsOf m w).wellFormed = true := by
  have hctx : ctxFits (fieldCtx w).toNat = true := decide_eq_true (fieldCtx w).isLt
  have hcount : countFits (fieldNbits w).toNat = true := decide_eq_true (fieldNbits w).isLt
  cases m <;> simp [operandsOf, Instr.wellFormed, hctx, hcount]

/-- The mnemonic of a command (30_encoding.md rule R107). -/
def mnemonicOf : Instr → Mnemonic
  | .configure => .configure
  | .clearerr => .clearerr
  | .reset _ => .reset
  | .updb _ _ => .updb
  | .updbits _ _ _ => .updbits
  | .updbuf _ => .updbuf
  | .updall _ => .updall
  | .value _ => .value
  | .gfmul => .gfmul
  | .gfxpow => .gfxpow
  | .combine => .combine
  | .chseed => .chseed
  | .zeroes => .zeroes
  | .residue => .residue

/-- Every command's word spells a row. -/
theorem rowOfEncoding_statement (i : Instr) : Laws.RowOfEncoding.Statement i :=
  match i with
  | .configure => Laws.RowOfEncoding.configure
  | .clearerr => Laws.RowOfEncoding.clearerr
  | .reset c => Laws.RowOfEncoding.reset c
  | .updb c b => Laws.RowOfEncoding.updb c b
  | .updbits c v k => Laws.RowOfEncoding.updbits c v k
  | .updbuf c => Laws.RowOfEncoding.updbuf c
  | .updall c => Laws.RowOfEncoding.updall c
  | .value c => Laws.RowOfEncoding.value c
  | .gfmul => Laws.RowOfEncoding.gfmul
  | .gfxpow => Laws.RowOfEncoding.gfxpow
  | .combine => Laws.RowOfEncoding.combine
  | .chseed => Laws.RowOfEncoding.chseed
  | .zeroes => Laws.RowOfEncoding.zeroes
  | .residue => Laws.RowOfEncoding.residue

/-- The row with the opcode of a command's word is the row of the command's mnemonic. -/
theorem mnemonic_of_opcode (i : Instr) :
    ∀ r ∈ opcodeRows, fieldOpc r.pattern = fieldOpc (encodeWord i) → r.mnemonic = mnemonicOf i := by
  cases i <;> simp only [encodeWord, fieldOpc_packWord, mnemonicOf] <;> decide

/-- The operands of a well-formed command are read back from its word (30_encoding.md rules R103 to R105). -/
theorem operandsOf_encodeWord {i : Instr} (h : i.wellFormed = true) : operandsOf (mnemonicOf i) (encodeWord i) = i := by
  have hctx {c : Nat} (hc : ctxFits c = true) : (BitVec.ofNat 4 c).toNat = c :=
    (BitVec.toNat_ofNat ..).trans (Nat.mod_eq_of_lt (of_decide_eq_true hc))
  cases i with
  | reset c | updb c b | updbuf c | updall c | value c => simp [mnemonicOf, operandsOf, encodeWord, hctx h]
  | updbits c v k =>
    obtain ⟨hc, hk⟩ := Bool.and_eq_true_iff.mp h
    have hcount : (BitVec.ofNat 3 k).toNat = k :=
      (BitVec.toNat_ofNat ..).trans (Nat.mod_eq_of_lt (of_decide_eq_true hk))
    simp [mnemonicOf, operandsOf, encodeWord, hctx hc, hcount]
  | configure | clearerr | gfmul | gfxpow | combine | chseed | zeroes | residue => rfl

/-- Settles O1: the command's word spells the row of its mnemonic alone, and its operands are read back from it. -/
theorem decodeEncodeGivesCommandBack : Obligations.DecodeEncodeGivesCommandBack := by
  intro i hi
  obtain ⟨⟨r, hr, hopc, hspells⟩, -⟩ := rowOfEncoding_statement i
  rw [decode_encode_word, decodeWord_of_spells hr hspells, mnemonic_of_opcode i r hr hopc, operandsOf_encodeWord hi]

/-- Settles O2: the command read from a row has operands that fit their fields, and the value is its encoding. -/
theorem decodedValueIsItsCommandsEncoding : Obligations.DecodedValueIsItsCommandsEncoding := by
  intro v i h
  obtain ⟨-, r, -, -, rfl⟩ := decode_eq_command_iff.mp h
  exact ⟨operandsOf_wellFormed _ _, encode_of_decode h⟩

/-- Settles O4: each word is the encoding of its command. -/
theorem specWordsDecodeToTheirCommands : Obligations.SpecWordsDecodeToTheirCommands := by
  have h := decodeEncodeGivesCommandBack
  exact ⟨h .configure rfl, h .clearerr rfl, h (.reset 3) rfl, h (.updb 0 0x31) rfl, h (.updbits 0 5 3) rfl,
    h (.updbits 15 0xFF 7) rfl, h (.updbuf 5) rfl, h (.updall 15) rfl, h (.value 2) rfl, h .gfmul rfl, h .gfxpow rfl,
    h .combine rfl, h .chseed rfl, h .zeroes rfl, h .residue rfl⟩

end Sys2Proof

/-! ### Steps that perform given accesses -/

namespace Sys2Proof.Machine

/-- A run goes on from the state its first step gives. -/
theorem runSteps_of_step {s t : State} (h : step s = .next t) (k : Nat) : runSteps (k + 1) s = runSteps k t := by
  have hstep : core.step s = .next t := h
  simp only [runSteps, Host.Core.run, hstep] <;> rfl

/-- Each read-write register stands at its offset, an aligned one of the register space (10_state.md rule R21). -/
theorem regAt_offset : ∀ r ∈ readWriteRegs, r.offset < 0x10000 ∧ r.offset % 8 = 0 ∧ regAt r.offset = r := by
  decide

/-- A step whose oldest access is a `wr` line's writes the register on the state in which the access has left the list
and is answered. -/
theorem step_writeEvent {s : State} {r : Reg} {v : Word} {rest : List HostEvent}
    (hp : s.pending = writeEvent s.params r v :: rest) (hr : r ∈ readWriteRegs) :
    step s = writeReg r v { s with pending := rest, response := .written } := by
  obtain ⟨hlt, halign, hreg⟩ := regAt_offset r hr
  have hw := perform_write_register { s with pending := rest } v hlt halign
  rw [hreg] at hw
  exact (performNext_cons s _ rest hp).trans hw

/-- A run whose oldest access is a `wr` line's goes on from the state with the register written. -/
theorem runSteps_writeEvent {s t : State} {r : Reg} {v : Word} {rest : List HostEvent} (k : Nat)
    (hp : s.pending = writeEvent s.params r v :: rest) (hr : r ∈ readWriteRegs)
    (ht : writeReg r v { s with pending := rest, response := .written } = .next t) :
    runSteps (k + 1) s = runSteps k t :=
  runSteps_of_step ((step_writeEvent hp hr).trans ht) k

/-- A command that no check stops has its effect. -/
theorem exec_performs {i : Instr} {s : State} (hi : i ≠ .clearerr) (hs : s.err = false)
    (hf : firstFault (checksOf s i) = none) : exec i s = .next (effectOf s i) := by
  rw [exec_eq_runCommand i s hi, runCommand_performs i s _ _ hs hf]

/-- A run whose oldest access issues a well-formed command that no check stops goes on from the command's effect. -/
theorem runSteps_command {s : State} {i : Instr} {rest : List HostEvent} (k : Nat)
    (hp : s.pending = cmdWrite s.params (encode i) :: rest) (hwf : i.wellFormed = true) (hi : i ≠ .clearerr)
    (hs : s.err = false) (hf : firstFault (checksOf s i) = none) :
    runSteps (k + 1) s = runSteps k (effectOf { s with pending := rest, response := .written } i) := by
  have hchecks : checksOf { s with pending := rest, response := .written } i = checksOf s i := by cases i <;> rfl
  refine runSteps_of_step ?_ k
  rw [step_cmdWrite hp, issue_command _ i (decodeEncodeGivesCommandBack i hwf)]
  exact exec_performs hi hs (by rwa [hchecks])

end Sys2Proof.Machine

/-! ### MODEL -/

namespace Sys2Proof.Machine

/-- The staging registers after the five writes of `MODEL` (30_encoding.md rule R117). -/
def modelStaging (w poly init : Word) (refIn refOut : Bool) (xorOut lanes : Word) : Staging where
  width := w
  poly := poly
  init := init
  xorOut := xorOut
  cfg := modelCfgWord refIn refOut lanes

/-- The MODEL_CFG word of `MODEL` is legal for every lane count the block has, and has the line's fields
(10_state.md rule R30). -/
theorem modelCfgWord_fields : ∀ lanes ∈ ([1, 8, 16] : List Word), ∀ refIn refOut : Bool,
    cfgLegal (modelCfgWord refIn refOut lanes) = true ∧ cfgRefIn (modelCfgWord refIn refOut lanes) = refIn ∧
    cfgRefOut (modelCfgWord refIn refOut lanes) = refOut ∧
    ((cfgLanes (modelCfgWord refIn refOut lanes)).setWidth 5).toNat = lanes.toNat := by
  intro lanes hl refIn refOut
  simp only [List.mem_cons, List.not_mem_nil, or_false] at hl
  rcases hl with rfl | rfl | rfl <;> cases refIn <;> cases refOut <;> decide

/-- A width that is legal keeps its value in `AW`. -/
theorem latched_w {g : Staging} {nw : Nat} (hnw : nw ≤ 64) (h : g.width.toNat ≤ nw) :
    (latched g).w = g.width.toNat := by
  rw [ActiveConfig.w, latched, BitVec.toNat_setWidth, Nat.mod_eq_of_lt (by omega)]

/-- CONFIGURE is stopped by no check when the staged width and MODEL_CFG are legal (40_control.md rule R131). -/
theorem no_check_configure {s : State} (hw : widthLegal s.nw s.staging.width = true)
    (hc : cfgLegal s.staging.cfg = true) : firstFault (checksOf s .configure) = none := by
  simp [checksOf, checkWidth, checkCfg, firstFault, hw, hc]

/-- The six accesses of `MODEL` stage its model and, if CONFIGURE accepts it, configure it. -/
theorem runSteps_model {s : State} {w poly init xorOut lanes : Word} {refIn refOut : Bool} {rest : List HostEvent}
    (hp : s.pending = (Line.model w poly init refIn refOut xorOut lanes).events s.params ++ rest)
    (hs : s.err = false) (hw : widthLegal s.nw w = true) (hc : cfgLegal (modelCfgWord refIn refOut lanes) = true) :
    runSteps 6 s = .next ({ s with
      pending := rest, response := .written,
      staging := modelStaging w poly init refIn refOut xorOut lanes }.configured
        (latched (modelStaging w poly init refIn refOut xorOut lanes))) := by
  refine Eq.trans (runSteps_writeEvent 5 (r := .modelWidth) hp (by decide) rfl) ?_
  refine Eq.trans (runSteps_writeEvent 4 (r := .modelPoly) rfl (by decide) rfl) ?_
  refine Eq.trans (runSteps_writeEvent 3 (r := .modelInit) rfl (by decide) rfl) ?_
  refine Eq.trans (runSteps_writeEvent 2 (r := .modelXorout) rfl (by decide) rfl) ?_
  refine Eq.trans (runSteps_writeEvent 1 (r := .modelCfg) rfl (by decide) rfl) ?_
  exact runSteps_command 0 (i := .configure) rfl rfl (by simp) hs (no_check_configure hw hc)

/-- Settles O35: CONFIGURE accepts the staged model and latches its fields. -/
theorem modelLineConfiguresTheModel : Obligations.ModelLineConfiguresTheModel := by
  intro s w poly init xorOut lanes refIn refOut rest hs hw1 hw2 hl hp
  have hnw : s.nw ≤ 64 := by rcases nw_cases s with h | h <;> omega
  obtain ⟨hc, hin, hout, hlanes⟩ := modelCfgWord_fields lanes (by simpa using hl) refIn refOut
  have hw : widthLegal s.nw w = true := by simp [widthLegal, hw1, hw2]
  exact ⟨_, runSteps_model hp hs hw hc, hs, rfl, rfl, latched_w hnw hw2, rfl, rfl, rfl, hin, hout, hlanes,
    fun c hcn => State.configured_readAcc _ _ c hcn⟩

end Sys2Proof.Machine

/-! ### The engine and the reference -/

namespace Sys2Proof.Machine

/-- The reference's register stays a w-bit value over any bit sequence. -/
theorem refRegister_isBits {nw : Nat} {a : ActiveConfig} (ha : a.Legal nw) {reg : Word} (hreg : isBits a.w reg = true)
    (bits : List Bool) : isBits a.w (refRegister a reg bits) = true :=
  foldl_isBits _ _ (fun x b _ => refBit_bits a ha.poly_bits x b) _ _ hreg

section
variable {nw : Nat} {a : ActiveConfig} (hnw : nw = 32 ∨ nw = 64) (ha : a.Legal nw)
include hnw ha

/-- A remainder in its place is an nw-bit value (42_crc_engine.md rule R171). -/
theorem engineRegister_isBits (reg : Word) : isBits nw (engineRegister nw a reg) = true := by
  have := ha.width_le
  unfold engineRegister
  split
  · exact isBits_mono _ _ this _ (isBits_bitrev _ (by omega) _)
  · exact isBits_shl _ _ _

/-- Bit steps of the engine register are bits of the reference (42_crc_engine.md rule R171). -/
theorem foldl_bitStep_engineRegister {reg : Word} (hreg : isBits a.w reg = true) (bits : List Bool) :
    bits.foldl (bitStep nw a) (engineRegister nw a reg) = engineRegister nw a (refRegister a reg bits) := by
  induction bits generalizing reg with
  | nil => rfl
  | cons b bits ih =>
    rw [List.foldl_cons, engineRegister_bit nw hnw a ha reg hreg b, ih (refBit_bits a ha.poly_bits reg b)]
    rfl

end

section
variable {nw : Nat} {a : ActiveConfig} (hnw : nw = 32 ∨ nw = 64) {tables : List (List Word)}
  (ht : tables.getD 0 [] = baseTable nw (epoly nw a) a.refIn)
include hnw ht

/-- A byte step is the bit steps of the byte's eight bits (42_crc_engine.md rule R175). -/
theorem byteStep_eq_bitSteps {acc : Word} (hacc : isBits nw acc = true) (b : Byte) :
    byteStep nw a tables acc b = (messageBits a.refIn 8 b).foldl (bitStep nw a) acc := by
  rw [byteStep_eq_zeroByte nw hnw a tables ht acc hacc b, messageBits_foldl nw hnw a 8 le_rfl b b.isLt acc hacc]
  rfl

/-- Byte steps of the engine register are the bytes' bits into the reference. -/
theorem foldl_byteStep_engineRegister (ha : a.Legal nw) {reg : Word} (hreg : isBits a.w reg = true)
    (bytes : List Byte) : bytes.foldl (byteStep nw a tables) (engineRegister nw a reg) =
      engineRegister nw a (refRegister a reg (bytesToBits a.refIn bytes)) := by
  induction bytes generalizing reg with
  | nil => rfl
  | cons b bytes ih =>
    rw [List.foldl_cons, byteStep_eq_bitSteps hnw ht (engineRegister_isBits hnw ha reg) b,
      foldl_bitStep_engineRegister hnw ha hreg, ih (refRegister_isBits ha hreg _)]
    simp only [refRegister, bytesToBits, List.flatMap_cons, List.foldl_append]

/-- The block loop is the byte steps of its bytes, however many blocks it takes (42_crc_engine.md rule R182). -/
theorem consumeBlocks_eq_byteSteps (hT : tables = buildLaneTables nw (epoly nw a) a.refIn a.lanes) (fuel : Nat)
    {acc : Word} (hacc : isBits nw acc = true) (bytes : List Byte) :
    consumeBlocks nw a tables fuel acc bytes = bytes.foldl (byteStep nw a tables) acc := by
  induction fuel generalizing acc bytes with
  | zero => rfl
  | succ fuel ih =>
    rw [consumeBlocks]
    split
    · next hle =>
      have hblock : blockStep nw a tables acc (bytes.take a.lanes) =
          (bytes.take a.lanes).foldl (byteStep nw a tables) acc := by
        conv_lhs => rw [hT]
        exact blockStep_eq nw hnw a acc hacc _ (List.length_take_of_le hle) tables ht
      have hbits := foldl_isBits nw _ (fun x b hx => byteStep_isBits nw hnw a tables ht x hx b)
        (bytes.take a.lanes) acc hacc
      rw [hblock, ih hbits, ← List.foldl_append, List.take_append_drop]
    · rfl

/-- A range update is the byte steps of the range, at every lane count (42_crc_engine.md rules R179, R183). -/
theorem updateRange_eq_byteSteps (hT : tables = buildLaneTables nw (epoly nw a) a.refIn a.lanes) {acc : Word}
    (hacc : isBits nw acc = true) (bytes : List Byte) :
    updateRange nw a tables acc bytes = bytes.foldl (byteStep nw a tables) acc := by
  unfold updateRange
  split
  · exact consumeBlocks_eq_byteSteps hnw ht hT _ hacc bytes
  · rfl

end

/-- A range update of a context that holds a remainder in its place feeds the range's bits to the remainder
(42_crc_engine.md rules R171, R179). -/
theorem rangeValue_engineRegister {s : State} (hinv : s.Inv) (hv : s.cfgValid = true) {c : Nat} {reg : Word}
    (hreg : isBits s.active.w reg = true) (hacc : s.readAcc c = engineRegister s.nw s.active reg)
    (bytes : List Byte) : s.rangeValue c bytes =
      engineRegister s.nw s.active (refRegister s.active reg (bytesToBits s.active.refIn bytes)) := by
  have ht := tables_head s hinv hv
  rw [State.rangeValue, updateRange_eq_byteSteps (nw_cases s) ht (hinv.config.tables hv) (hinv.native c), hacc,
    foldl_byteStep_engineRegister (nw_cases s) ht (hinv.config.legal hv) hreg]

end Sys2Proof.Machine

/-! ### CRCBUF -/

namespace Sys2Proof.Machine

/-- RESET and VALUE are stopped by no check in a configured block, on a context that exists. -/
theorem no_check_context {s : State} {c : Nat} (hv : s.cfgValid = true) (hc : c < s.params.nctx) :
    firstFault [checkConfigured s, checkCtx s c] = none := by
  simp [checkConfigured, checkCtx, firstFault, hv, hc]

/-- UPDALL is stopped by no check if moreover the buffer lies in DMEM. -/
theorem no_check_updall {s : State} {c : Nat} (hv : s.cfgValid = true) (hc : c < s.params.nctx)
    (hb : s.bufBase.toNat + s.bufLen.toNat ≤ s.params.dmemBytes) : firstFault (checksOf s (.updall c)) = none := by
  simp [checksOf, checkConfigured, checkCtx, checkBuffer, firstFault, hv, hc, hb]

/-- The state after the five accesses of `CRCBUF` (30_encoding.md rule R118): the buffer's descriptor written, and the
effects of its three commands one after another. -/
def State.afterCrcbuf (s : State) (c : Nat) (base len : Word) (rest : List HostEvent) : State :=
  let s₁ := { s with pending := rest, response := .written, bufBase := base, bufLen := len }
  effectOf (effectOf (effectOf s₁ (.reset c)) (.updall c)) (.value c)

/-- The five accesses of `CRCBUF` on a context that exists, with a buffer in DMEM, are stopped by no check. -/
theorem runSteps_crcbuf {s : State} {c : Nat} {base len : Word} {rest : List HostEvent}
    (hp : s.pending = (Line.crcbuf c base len).events s.params ++ rest) (hready : s.ready) (hc : c < s.params.nctx)
    (hb : base.toNat + len.toNat ≤ s.params.dmemBytes) :
    runSteps 5 s = .next (s.afterCrcbuf c base len rest) := by
  obtain ⟨hs, hv⟩ := hready
  have hwf : ctxFits c = true := decide_eq_true (by unfold Params.nctx at hc; omega)
  refine Eq.trans (runSteps_writeEvent 4 (r := .bufBase) hp (by decide) rfl) ?_
  refine Eq.trans (runSteps_writeEvent 3 (r := .bufLen) rfl (by decide) rfl) ?_
  refine Eq.trans (runSteps_command 2 (i := .reset c) rfl hwf (by simp) hs (no_check_context hv hc)) ?_
  refine Eq.trans (runSteps_command 1 (i := .updall c) rfl hwf (by simp) hs (no_check_updall hv hc hb)) ?_
  exact runSteps_command 0 (i := .value c) rfl hwf (by simp) hs (no_check_context hv hc)

/-- `CRCBUF` leaves the reference's CRC of the buffer in RESULT: RESET starts the remainder, UPDALL feeds it the
buffer's bits, and VALUE finalizes it. -/
theorem afterCrcbuf_result {s : State} (hinv : s.Inv) (hready : s.ready) {c : Nat} (hc : c < s.params.nctx)
    (base len : Word) (rest : List HostEvent) : (s.afterCrcbuf c base len rest).result =
      refCrc s.active (bytesToBits s.active.refIn (s.memBytes base.toNat len.toNat)) := by
  have hlegal := hinv.config.legal hready.2
  set s₁ : State := { s with pending := rest, response := .written, bufBase := base, bufLen := len }
  set s₂ := s₁.setAcc c (resetValue s.nw s.active)
  have hlen : c < s.acc.length := hinv.contexts ▸ hc
  have hstart : s₂.readAcc c = engineRegister s.nw s.active s.active.ainit :=
    (State.setAcc_readAcc_same _ _ _ hlen).trans (resetValue_eq _ (nw_cases s) _ hlegal)
  have hinv₂ : s₂.Inv :=
    inv_setAcc _ (inv_of_sameInside (t := s₁) hinv rfl) _ _ (resetValue_isBits _ (nw_cases s) _)
  have hfed := rangeValue_engineRegister hinv₂ hready.2 hlegal.init_bits hstart s₂.bufferBytes
  calc (s.afterCrcbuf c base len rest).result
      = finalize s.nw s.active ((s₂.setAcc c (s₂.rangeValue c s₂.bufferBytes)).readAcc c) := rfl
    _ = finalize s.nw s.active (s₂.rangeValue c s₂.bufferBytes) := by
      rw [State.setAcc_readAcc_same _ _ _ (by simpa [s₂] using hlen)]
    _ = refCrc s.active (bytesToBits s.active.refIn (s.memBytes base.toNat len.toNat)) := by
      rw [hfed]
      exact finalize_eq _ (nw_cases s) _ hlegal _ (refRegister_isBits hlegal hlegal.init_bits _)

/-- Settles O34: no check stops the line's commands, and VALUE finalizes the remainder of the buffer. -/
theorem crcbufComputesTheBuffersCrc : Obligations.CrcbufComputesTheBuffersCrc :=
  fun _ _ base len rest hinv hready hc hb hp =>
    ⟨_, runSteps_crcbuf hp hready hc hb, hready.1, rfl, afterCrcbuf_result hinv hready hc base len rest⟩

end Sys2Proof.Machine

/-!
PROOFS of the statements on 40_control.md: CLEARERR; the staged models CONFIGURE accepts, what it latches from one, and
the fault it takes on any other.
-/

/-! ### CLEARERR -/

namespace Sys2Proof.Machine

/-- CLEARERR is spelt by its encoding alone (30_encoding.md rules R107, R111). -/
theorem decode_eq_clearerr_iff {v : Word} : decode v = .command .clearerr ↔ v = 2 :=
  ⟨fun h => (encode_of_decode h).symm, fun h => h ▸ decodeEncodeGivesCommandBack .clearerr rfl⟩

/-- Settles O10: the value that spells CLEARERR, and its effect in both values of ERR. -/
theorem clearerrLeavesTheErrorState : Obligations.ClearerrLeavesTheErrorState := by
  refine ⟨fun v => decode_eq_clearerr_iff, fun s hs => ?_, fun s hs => ?_⟩
  · rw [exec_clearerr, hs]
    rfl
  · rw [exec_clearerr, hs]
    rfl

end Sys2Proof.Machine

/-! ### CONFIGURE -/

namespace Sys2Proof.Machine

/-- The mask of the reserved bits of MODEL_CFG is 1 at exactly the places outside `REFIN`, `REFOUT` and `LANES`
(10_state.md rule R30). -/
theorem getLsbD_reservedMask :
    ∀ i < 64, (~~~(0xFF03 : Word)).getLsbD i = decide ((2 ≤ i ∧ i ≤ 7) ∨ 16 ≤ i) := by
  decide

/-- MODEL_CFG has no reserved bit set exactly when each of these bits is 0. -/
theorem and_reservedMask_eq_zero_iff (cfg : Word) : cfg &&& ~~~(0xFF03 : Word) = 0 ↔
    ∀ i, i < 64 → (2 ≤ i ∧ i ≤ 7) ∨ 16 ≤ i → cfg.getLsbD i = false := by
  constructor
  · intro h i hi hres
    have hbit : (cfg &&& ~~~(0xFF03 : Word)).getLsbD i = false := h ▸ BitVec.getLsbD_zero
    rw [BitVec.getLsbD_and, getLsbD_reservedMask i hi] at hbit
    simpa [hres] using hbit
  · intro h
    refine BitVec.eq_of_getLsbD_eq fun i hi => ?_
    rw [BitVec.getLsbD_and, getLsbD_reservedMask i hi]
    by_cases hres : (2 ≤ i ∧ i ≤ 7) ∨ 16 ≤ i
    · simp [h i hi hres]
    · simp [hres]

/-- The staged models CONFIGURE accepts are those its two checks let pass (40_control.md rule R131). -/
theorem stagedLegal_iff {s : State} : s.stagedLegal ↔
    widthLegal s.nw s.staging.width = true ∧ cfgLegal s.staging.cfg = true := by
  simp [State.stagedLegal, widthLegal, cfgLegal, cfgLanes, ← and_reservedMask_eq_zero_iff, or_assoc]

/-- No fault is reported exactly when no check of the list applies (60_exceptions.md rule R260). -/
theorem firstFault_eq_none_iff {checks : List (Bool × FaultCode)} :
    firstFault checks = none ↔ ∀ check ∈ checks, check.1 = false := by
  induction checks with
  | nil => simp [firstFault_nil]
  | cons check rest ih =>
    obtain ⟨applies, k⟩ := check
    cases applies <;> simp [firstFault_cons, ih]

/-- No check stops CONFIGURE exactly when it accepts the staged model. -/
theorem no_check_configure_iff {s : State} : firstFault (checksOf s .configure) = none ↔ s.stagedLegal := by
  rw [stagedLegal_iff]
  simp [firstFault_eq_none_iff, checksOf, checkWidth, checkCfg]

/-- A command that a check stops takes its fault, recording itself. -/
theorem exec_faults {i : Instr} {s : State} {k : FaultCode} (hi : i ≠ .clearerr) (hs : s.err = false)
    (hf : firstFault (checksOf s i) = some k) : exec i s = .next (s.takeFault k (encode i)) := by
  rw [exec_eq_runCommand i s hi, runCommand_faults i s _ _ hs k hf]

/-- A legal lane count keeps its value in `ALANES`. -/
theorem latched_lanes {g : Staging} (h : cfgLanes g.cfg = 1 ∨ cfgLanes g.cfg = 8 ∨ cfgLanes g.cfg = 16) :
    (latched g).lanes = (cfgLanes g.cfg).toNat := by
  rw [ActiveConfig.lanes, latched]
  rcases h with h | h | h <;> rw [h] <;> rfl

/-- Settles O17: no check stops CONFIGURE, and the configuration it builds from is the one latched from staging. -/
theorem configureBuildsTheStagedModel : Obligations.ConfigureBuildsTheStagedModel := by
  intro s hs hlegal
  have hnone := no_check_configure_iff.mpr hlegal
  obtain ⟨⟨-, hwidth⟩, -, hlanes⟩ := hlegal
  have hnw : s.nw ≤ 64 := by rcases nw_cases s with h | h <;> omega
  have hw : (latched s.staging).w = s.staging.width.toNat := latched_w hnw hwidth
  refine ⟨latched s.staging, hw, ?_, ?_, ?_, rfl, rfl, latched_lanes hlanes,
    exec_performs (by simp) hs hnone⟩ <;> rw [hw] <;> rfl

/-- Settles O18: a check stops CONFIGURE, and every check's fault has a code other than 0. -/
theorem failedConfigureKeepsTheOldModel : Obligations.FailedConfigureKeepsTheOldModel := by
  intro s hs hillegal
  obtain ⟨k, hk⟩ := Option.ne_none_iff_exists'.mp (mt no_check_configure_iff.mp hillegal)
  exact ⟨k, firstFault_checksOf_ne s _ k hk, exec_faults (by simp) hs hk⟩

end Sys2Proof.Machine

/-!
PROOFS of the statements on 41_table_builder.md: the base table and the lane tables as byte steps of a zero register,
and what the tables depend on.
-/

/-! ### The lane tables as byte steps -/

namespace Sys2Proof.Machine

/-- The first table built is the base table (41_table_builder.md rule R153). -/
theorem buildLaneTables_getD_zero (nw : Nat) (ep : Word) (refIn : Bool) {L : Nat} (hL : 0 < L) :
    (buildLaneTables nw ep refIn L).getD 0 [] = baseTable nw ep refIn :=
  laneTables_getD _ _ _ _ _ 0 hL

section
variable {nw : Nat} (hnw : nw = 32 ∨ nw = 64) (a : ActiveConfig)
include hnw

/-- Every lane table is linear: an entry is division steps of its injected index, and both are linear. -/
theorem tableEntry_xor {L k : Nat} (hk : k < L) (m n : Byte) :
    tableEntry (buildLaneTables nw (epoly nw a) a.refIn L) k (m ^^^ n).toNat =
      tableEntry (buildLaneTables nw (epoly nw a) a.refIn L) k m.toNat ^^^
        tableEntry (buildLaneTables nw (epoly nw a) a.refIn L) k n.toNat := by
  simp only [tableEntry_buildLaneTables nw hnw a L k hk, BitVec.setWidth_xor, inject_xor, zeroByte_iterate_xor]

/-- Entry 0 of every lane table is 0, as linearity at `0 = 0 ^ 0` demands. -/
theorem tableEntry_zero {L k : Nat} (hk : k < L) :
    tableEntry (buildLaneTables nw (epoly nw a) a.refIn L) k 0 = 0 := by
  simpa using tableEntry_xor hnw a hk 0 0

/-- A step that is eight division steps on every NW-bit value is so however often it is applied. -/
theorem iterate_eq_zeroByte_iterate {f : Word → Word} (hf : ∀ v, isBits nw v = true → f v = zeroByte nw a v) (k : Nat)
    {v : Word} (hv : isBits nw v = true) : f^[k] v = (zeroByte nw a)^[k] v := by
  induction k generalizing v with
  | zero => rfl
  | succ k ih =>
    rw [Function.iterate_succ_apply, hf v hv, ih (isBits_zeroByte nw (by omega) a v hv), Function.iterate_succ_apply]

/-- The lookup of a byte in the base table is eight division steps of the byte in its place. -/
theorem baseTable_getD_byte (n : Byte) :
    (baseTable nw (epoly nw a) a.refIn).getD n.toNat 0 = zeroByte nw a (inject nw a 8 (n.setWidth 64)) :=
  tableEntry_buildLaneTables nw hnw a 1 0 one_pos n

/-- An entry of lane table `k` is its byte's base table entry put through `k` zero bytes, whichever way a zero byte is
computed (41_table_builder.md rule R154). -/
theorem tableEntry_eq_iterate {f : Word → Word} (hf : ∀ v, isBits nw v = true → f v = zeroByte nw a v) {L k : Nat}
    (hk : k < L) (n : Byte) : tableEntry (buildLaneTables nw (epoly nw a) a.refIn L) k n.toNat =
      f^[k] ((baseTable nw (epoly nw a) a.refIn).getD n.toNat 0) := by
  rw [tableEntry_buildLaneTables nw hnw a L k hk, Function.iterate_succ_apply, baseTable_getD_byte hnw a,
    iterate_eq_zeroByte_iterate hnw a hf k (isBits_zeroByte nw (by omega) a _ (isBits_inject nw hnw a n))]

section
variable {tables : List (List Word)} (ht : tables.getD 0 [] = baseTable nw (epoly nw a) a.refIn)
include ht

/-- The byte step of a zero register is the lookup in the base table (41_table_builder.md rule R152). -/
theorem byteStep_zero_register (n : Byte) :
    byteStep nw a tables 0 n = (baseTable nw (epoly nw a) a.refIn).getD n.toNat 0 := by
  rw [baseTable_getD_byte hnw a]
  simpa using byteStep_eq_zeroByte nw hnw a tables ht 0 (isBits_zero nw) n

/-- The byte step by a zero byte is eight division steps. -/
theorem byteStep_zero_byte (v : Word) (hv : isBits nw v = true) : byteStep nw a tables v 0 = zeroByte nw a v :=
  (foldZero_eq_byteStep nw a tables ht hnw v hv).symm.trans (foldZero_eq_zeroByte nw a hnw v hv)

end

end

/-- Settles O19: the base table is the lane table of a block with one lane. -/
theorem baseTableIsByteStepOfZero : Obligations.BaseTableIsByteStepOfZero :=
  fun _ a hnw => ⟨fun n => (byteStep_zero_register hnw a rfl n).symm, tableEntry_zero hnw a one_pos,
    tableEntry_xor hnw a one_pos⟩

/-- Settles O20: an entry is division steps of its injected index, and so are `Fold` and the byte step by 0. -/
theorem laneTableIsTrailingZeroBytes : Obligations.LaneTableIsTrailingZeroBytes := by
  intro nw a k hnw hk t0 tables
  have ht : tables.getD 0 [] = t0 := buildLaneTables_getD_zero _ _ _ (by omega)
  refine ⟨fun n => ?_, fun n => ?_, fun v => foldZero_eq_byteStep nw a tables ht hnw v, tableEntry_zero hnw a hk,
    tableEntry_xor hnw a hk⟩
  · exact tableEntry_eq_iterate hnw a (foldZero_eq_zeroByte nw a hnw) hk n
  · rw [byteStep_zero_register hnw a ht n]
    exact tableEntry_eq_iterate hnw a (byteStep_zero_byte hnw a ht) hk n

end Sys2Proof.Machine

/-! ### What the tables depend on -/

namespace Sys2Proof.Machine

/-- Fewer lane tables are the first of more: each is folded from the one before it, whatever their number. -/
theorem laneTables_take (nw : Nat) (refIn : Bool) (t0 : List Word) {k count : Nat} (hk : k ≤ count) (t : List Word) :
    (laneTables nw refIn t0 count t).take k = laneTables nw refIn t0 k t := by
  induction k generalizing count t with
  | zero => rfl
  | succ k ih =>
    cases count with
    | zero => omega
    | succ count => exact congrArg (t :: ·) (ih (by omega) _)

/-- Settles O21: CONFIGURE's tables are built from `EP`, `AREFIN` and `L`, each from the one before it. -/
theorem tablesDependOnPolynomialAndLanesOnly : Obligations.TablesDependOnPolynomialAndLanesOnly := by
  refine ⟨fun s t a b hnw hep href hlanes => ?_, fun nw ep refIn => ?_, fun nw ep refIn l hl => ?_⟩
  · rw [State.configured_tables, State.configured_tables, hep, href, hlanes, hnw]
  · exact (laneTables_take nw refIn _ (by decide) _).symm
  · cases l with
    | zero => omega
    | succ l => rfl

end Sys2Proof.Machine

/-!
PROOFS of the statements on 42_crc_engine.md: the remainders the contexts hold and the CRC that VALUE writes; what each
engine command does; byte steps, bit steps and lane counts; replays, and contexts that do not see each other.
-/

/-! ### Changes of the state that a command does not see -/

namespace Sys2Proof.Machine

/-- A change of the state that leaves the fault record alone, and that neither the checks of a command nor its effect
see, commutes with the command. -/
theorem exec_mapNext {f : State → State} {i : Instr} {s : State} (herr : (f s).err = s.err)
    (hclear : (f s).clearFault = f s.clearFault) (hfault : ∀ k v, (f s).takeFault k v = f (s.takeFault k v))
    (hchecks : checksOf (f s) i = checksOf s i) (heffect : effectOf (f s) i = f (effectOf s i)) :
    exec i (f s) = mapNext f (exec i s) := by
  by_cases hi : i = .clearerr
  · subst hi
    rw [exec_clearerr, exec_clearerr, herr, mapNext]
    split_ifs
    · rw [hclear]
    · rfl
  · rw [exec_eq_runCommand i _ hi, exec_eq_runCommand i s hi, hchecks]
    exact runCommand_mapNext i _ herr hfault heffect

/-- No command looks at the accesses to come or at the bus's answer. -/
theorem exec_withAccess (i : Instr) (s : State) (p : List HostEvent) (r : BusResponse) :
    exec i { s with pending := p, response := r } =
      mapNext (fun t => { t with pending := p, response := r }) (exec i s) :=
  exec_mapNext (f := fun t => { t with pending := p, response := r }) rfl rfl (fun _ _ => rfl) (by cases i <;> rfl)
    (by cases i <;> rfl)

/-- A next state of a changed outcome is the change of one. -/
theorem mapNext_eq_next {f : State → State} {o : Outcome} {t : State} (h : mapNext f o = .next t) :
    ∃ u, o = .next u ∧ t = f u := by
  cases o with
  | next u => exact ⟨u, rfl, (Host.Outcome.next.inj h).symm⟩
  | fault r => cases h
  | refused r => cases h

end Sys2Proof.Machine

/-! ### Every context holds the remainder of its message -/

namespace Sys2Proof.Machine

section
variable {s : State} {m : Nat → List Bool}

/-- Writing a context the remainder of a bit sequence replaces its message by that sequence. -/
theorem State.holds_setAcc (hlen : s.acc.length = s.params.nctx) (h : s.holds m) {c : Nat} {v : Word}
    {bits : List Bool} (hv : v = engineRegister s.nw s.active (refRegister s.active s.active.ainit bits)) :
    (s.setAcc c v).holds (replaceMessage m c bits) := by
  intro hcfg d hd
  by_cases hdc : d = c
  · subst hdc
    rw [State.setAcc_readAcc_same _ _ _ (hlen ▸ hd), hv, replaceMessage, if_pos rfl]
    rfl
  · rw [State.setAcc_readAcc_other _ _ _ _ hdc, replaceMessage, if_neg hdc]
    exact h hcfg d hd

/-- A latched configuration holds the empty message in every context (42_crc_engine.md rules R171, R172). -/
theorem State.holds_configured {a : ActiveConfig} (ha : a.Legal s.nw) : (s.configured a).holds fun _ => [] :=
  fun _ c hc => (State.configured_readAcc s a c hc).trans (resetValue_eq s.nw (nw_cases s) a ha)

/-- The initial register followed by one bit sequence and another is the initial register followed by both. -/
theorem refRegister_append (a : ActiveConfig) (reg : Word) (bits more : List Bool) :
    refRegister a reg (bits ++ more) = refRegister a (refRegister a reg bits) more :=
  List.foldl_append

/-- CONFIGURE and CLEARERR name no context. -/
theorem ne_control_of_contextOf {c : Nat} {i : Instr} (hi : contextOf i = some c) : i ≠ .configure ∧ i ≠ .clearerr := by
  constructor <;> rintro rfl <;> cases hi

/-- The four update commands of a context (42_crc_engine.md rule R186). -/
theorem isUpdateOf_cases {c : Nat} {i : Instr} (hi : isUpdateOf c i = true) :
    (∃ b, i = .updb c b) ∨ (∃ v k, i = .updbits c v k) ∨ i = .updbuf c ∨ i = .updall c := by
  cases i <;> simp_all [isUpdateOf]

/-- An update names its context. -/
theorem contextOf_of_isUpdateOf {c : Nat} {i : Instr} (hi : isUpdateOf c i = true) : contextOf i = some c := by
  rcases isUpdateOf_cases hi with ⟨b, rfl⟩ | ⟨v, k, rfl⟩ | rfl | rfl <;> rfl

/-- An update of a context that holds a remainder in its place feeds its bits to the remainder (42_crc_engine.md rules
R171, R174, R176, R179). -/
theorem effectOf_update (hinv : s.Inv) (hcfg : s.cfgValid = true) {c : Nat} {i : Instr} (hi : isUpdateOf c i = true)
    {reg : Word} (hreg : isBits s.active.w reg = true) (hacc : s.readAcc c = engineRegister s.nw s.active reg) :
    effectOf s i = s.setAcc c (engineRegister s.nw s.active (refRegister s.active reg (bitsFed s i))) := by
  have hnw := nw_cases s
  have hlegal := hinv.config.legal hcfg
  rcases isUpdateOf_cases hi with ⟨b, rfl⟩ | ⟨v, k, rfl⟩ | rfl | rfl
  · rw [effectOf, byteStep_eq_bitSteps hnw (tables_head s hinv hcfg) (hinv.native c), hacc,
      foldl_bitStep_engineRegister hnw hlegal hreg, bitsFed]
  · rw [effectOf, updateBits, hacc, foldl_bitStep_engineRegister hnw hlegal hreg, bitsFed]
  · rw [effectOf, rangeValue_engineRegister hinv hcfg hreg hacc, bitsFed]
  · rw [effectOf, rangeValue_engineRegister hinv hcfg hreg hacc, bitsFed]

/-- An update that no check stops leaves in its context the remainder of the message with the update's bits behind
it. -/
theorem holds_update (hinv : s.Inv) (h : s.holds m) {c : Nat} {i : Instr} (hi : isUpdateOf c i = true)
    (hf : firstFault (checksOf s i) = none) :
    (effectOf s i).holds (replaceMessage m c (m c ++ bitsFed s i)) := by
  have hctx := contextOf_of_isUpdateOf hi
  obtain ⟨hne, hne'⟩ := ne_control_of_contextOf hctx
  have hcfg := configured_of_no_check i s hne hne' hf
  have hlegal := hinv.config.legal hcfg
  rw [effectOf_update hinv hcfg hi (refRegister_isBits hlegal hlegal.init_bits _)
    (h hcfg c (context_of_no_check i s c hctx hf)), ← refRegister_append]
  exact State.holds_setAcc hinv.contexts h rfl

/-- The effect of a command that no check stops leaves in every context the remainder of its message, as the command
extends or restarts it. -/
theorem holds_effectOf (hinv : s.Inv) (h : s.holds m) {i : Instr} (hf : firstFault (checksOf s i) = none) :
    (effectOf s i).holds (messagesAfter m s i) := by
  cases i with
  | configure => exact State.holds_configured (latched_legal s hf)
  | reset c =>
    have hlegal := hinv.config.legal (configured_of_no_check _ s (by simp) (by simp) hf)
    exact State.holds_setAcc hinv.contexts h (resetValue_eq s.nw (nw_cases s) s.active hlegal)
  | updb c | updbits c | updbuf c | updall c => exact holds_update hinv h (c := c) (by simp [isUpdateOf]) hf
  | clearerr | value | gfmul | gfxpow | combine | chseed | zeroes | residue => exact h

/-- Whether a command performs, read off the state it answers. -/
theorem performs_eq {i : Instr} {t : State} (ht : exec i s = .next t) : performs i s = (!s.err && !t.err) := by
  rw [performs, ht]

/-- A command leaves in every context the remainder of its message; one that faults or is dropped changes neither. -/
theorem holds_exec (hinv : s.Inv) (h : s.holds m) {i : Instr} {t : State} (ht : exec i s = .next t) :
    t.holds (if performs i s then messagesAfter m s i else m) := by
  rw [performs_eq ht]
  rcases exec_cases i s t ht with ⟨rfl, he | rfl⟩ | ⟨rfl, he, rfl⟩ | ⟨k, -, -, -, rfl⟩ | ⟨-, he, hf, rfl⟩
  · simpa [he] using h
  · simpa [messagesAfter] using h
  · rw [he, if_neg (by simp)]
    exact h
  · rw [if_neg (by simp)]
    exact h
  · simpa [effectOf_faultRecord, he] using holds_effectOf hinv h hf

/-- The command that a step issues is the one its oldest access writes to CMD. -/
theorem cmdWrite_of_nextCommand {i : Instr} (h : s.nextCommand = some i) :
    ∃ v rest, s.pending = cmdWrite s.params v :: rest ∧ decode v = .command i := by
  unfold State.nextCommand at h
  split at h
  · next address width v rest hp =>
    split_ifs at h with ha
    obtain ⟨rfl, rfl⟩ := ha
    split at h
    · next j hd => exact ⟨v, rest, hp, hd.trans (congrArg _ (Option.some.inj h))⟩
    · cases h
  all_goals cases h

/-- A step that issues no legal command leaves every context as it was, or the block unconfigured. -/
theorem holds_of_no_command (h : s.holds m) (hn : s.nextCommand = none) {t : State} (ht : step s = .next t) :
    t.holds m := by
  rcases step_cases ht with ⟨-, rfl⟩ | ⟨e, rest, hp, he⟩
  · exact h
  · rcases perform_cases he with ⟨-, rfl⟩ | ⟨v, rfl, hv⟩ | ⟨a, bytes, -, rfl⟩ | hs
    · exact nofun
    · rcases issue_cases hv with ⟨i, hd, -⟩ | ⟨-, rfl⟩ | ⟨-, rfl⟩
      · cases hn.symm.trans (nextCommand_of_cmdWrite hp hd)
      · exact h
      · exact h
    · exact h
    · rw [hs]
      exact h

/-- Every step leaves in every context the remainder of its message (42_crc_engine.md rule R171). -/
theorem holds_step (hinv : s.Inv) (h : s.holds m) {t : State} (ht : step s = .next t) : t.holds (messagesStep m s) := by
  rw [messagesStep]
  cases hn : s.nextCommand with
  | none => exact holds_of_no_command h hn ht
  | some i =>
    obtain ⟨v, rest, hp, hd⟩ := cmdWrite_of_nextCommand hn
    rw [step_cmdWrite hp, issue_command v i hd, exec_withAccess] at ht
    obtain ⟨u, hu, rfl⟩ := mapNext_eq_next ht
    exact (holds_exec hinv h hu : u.holds _)

end

/-- Settles O32: every command leaves the remainders as the reference has them and no other access reaches them; the
zeros of an aligned register, and two registers evaluated. -/
theorem contextsHoldTheirMessagesRemainder : Obligations.ContextsHoldTheirMessagesRemainder := by
  refine ⟨fun s t m hinv h ht => holds_step hinv h ht, fun nw a reg hnw ha => ⟨fun hr => ?_, fun hr i hi => ?_⟩, ?_⟩
  · have := ha.width_le
    rw [engineRegister, if_pos hr]
    exact isBits_bitrev _ (by omega) _
  · rw [engineRegister, if_neg (by simp [hr]), getLsbD_shl, alignShift,
      decide_eq_false (Nat.not_le.mpr hi)]
    simp
  · decide

/-- Every step answers a next state. -/
theorem step_next (s : State) : ∃ t, step s = .next t := by
  unfold step performNext
  split
  · exact ⟨s, rfl⟩
  · exact perform_next _ _

/-- After any number of steps every context holds the remainder of its message. -/
theorem holds_runSteps (k : Nat) {s t : State} {m : Nat → List Bool} (hinv : s.Inv) (h : s.holds m)
    (ht : runSteps k s = .next t) : t.Inv ∧ t.holds (messagesRun k s m) := by
  induction k generalizing s m with
  | zero =>
    obtain rfl := Host.Outcome.next.inj ht
    exact ⟨hinv, h⟩
  | succ k ih =>
    obtain ⟨u, hu⟩ := step_next s
    rw [runSteps_of_step hu] at ht
    rw [messagesRun, hu]
    exact ih (invariantKeptByEveryStep s u hinv hu) (holds_step hinv h hu) ht

/-- Settles O33: VALUE finalizes the remainder its context holds after the run. -/
theorem valueIsTheReferenceCrcOfTheMessage : Obligations.ValueIsTheReferenceCrcOfTheMessage := by
  refine ⟨fun k s t m c hinv h ht hready hc => ?_, by decide +kernel⟩
  obtain ⟨hinv', hm⟩ := holds_runSteps k hinv h ht
  have hlegal := hinv'.config.legal hready.2
  have hf : firstFault (checksOf t (.value c)) = none := no_check_context hready.2 hc
  rw [exec_performs (by simp) hready.1 hf, effectOf, hm hready.2 c hc,
    finalize_eq _ (nw_cases t) _ hlegal _ (refRegister_isBits hlegal hlegal.init_bits _)]
  rfl

end Sys2Proof.Machine

/-! ### What each engine command does -/

namespace Sys2Proof.Machine

section
variable {s : State} {c : Nat} (hready : s.ready) (hc : c < s.params.nctx)
include hready hc

/-- RESET performs in a ready block, on a context that exists. -/
theorem exec_reset : exec (.reset c) s = .next (effectOf s (.reset c)) :=
  exec_performs (by simp) hready.1 (no_check_context hready.2 hc)

/-- So does UPDB. -/
theorem exec_updb (b : Byte) : exec (.updb c b) s = .next (effectOf s (.updb c b)) :=
  exec_performs (by simp) hready.1 (no_check_context hready.2 hc)

/-- So does VALUE. -/
theorem exec_value : exec (.value c) s = .next (effectOf s (.value c)) :=
  exec_performs (by simp) hready.1 (no_check_context hready.2 hc)

/-- UPDBITS performs if moreover the block has one lane (60_exceptions.md rule R257). -/
theorem exec_updbits (hl : s.active.lanes = 1) (v : Byte) (k : Nat) :
    exec (.updbits c v k) s = .next (effectOf s (.updbits c v k)) := by
  refine exec_performs (by simp) hready.1 ?_
  simp [checksOf, checkConfigured, checkCtx, checkLanes, firstFault, hready.2, hc, hl]

/-- UPDALL performs if moreover the buffer lies in DMEM (42_crc_engine.md rule R178). -/
theorem exec_updall (hb : s.bufBase.toNat + s.bufLen.toNat ≤ s.params.dmemBytes) :
    exec (.updall c) s = .next (effectOf s (.updall c)) :=
  exec_performs (by simp) hready.1 (no_check_updall hready.2 hc hb)

/-- UPDALL faults if it does not. -/
theorem exec_updall_faults (hb : s.params.dmemBytes < s.bufBase.toNat + s.bufLen.toNat) :
    exec (.updall c) s = .next (s.takeFault .bounds (encode (.updall c))) := by
  refine exec_faults (by simp) hready.1 ?_
  simp [checksOf, checkConfigured, checkCtx, checkBuffer, firstFault, hready.2, hc, hb]

/-- UPDBUF performs if moreover the range lies in the buffer (42_crc_engine.md rule R177). -/
theorem exec_updbuf (hb : s.bufBase.toNat + s.bufLen.toNat ≤ s.params.dmemBytes)
    (ho : s.arg0.toNat ≤ s.bufLen.toNat) (hlen : s.arg1.toNat ≤ s.bufLen.toNat - s.arg0.toNat) :
    exec (.updbuf c) s = .next (effectOf s (.updbuf c)) := by
  refine exec_performs (by simp) hready.1 ?_
  simp [checksOf, checkConfigured, checkCtx, checkSubRange, rangeLegal, firstFault, hready.2, hc, hb, ho, hlen]

/-- UPDBUF faults if the buffer or the offset is out of bounds, whatever the length. -/
theorem exec_updbuf_faults
    (hb : s.params.dmemBytes < s.bufBase.toNat + s.bufLen.toNat ∨ s.bufLen.toNat < s.arg0.toNat) :
    exec (.updbuf c) s = .next (s.takeFault .bounds (encode (.updbuf c))) := by
  have hrange : rangeLegal s s.bufBase.toNat s.bufLen.toNat s.arg0.toNat s.arg1.toNat = false := by
    rcases hb with hb | hb <;> simp [rangeLegal, hb]
  refine exec_faults (by simp) hready.1 ?_
  simp [checksOf, checkConfigured, checkCtx, checkSubRange, firstFault, hready.2, hc, hrange]

end

/-- Settles O23: the three commands perform, and their effects are the rule's expressions. -/
theorem immediateUpdatesWriteTheirContext : Obligations.ImmediateUpdatesWriteTheirContext :=
  ⟨fun _ _ hready hc => exec_reset hready hc, fun _ _ b hready hc => exec_updb hready hc b,
    fun _ _ v k hready hc hl => exec_updbits hready hc hl v k⟩

/-- Settles O24: the two commands perform, and UPDBUF on the whole buffer has UPDALL's effect. -/
theorem rangeUpdatesConsumeTheirBytes : Obligations.RangeUpdatesConsumeTheirBytes := by
  refine ⟨fun s c hready hc hb ho hlen => exec_updbuf hready hc hb ho hlen,
    fun s c hready hc hb => ⟨exec_updall hready hc hb, ?_⟩⟩
  have hwhole := exec_updbuf (s := { s with arg0 := 0, arg1 := s.bufLen }) hready hc hb (Nat.zero_le _) le_rfl
  rw [exec_updall hready hc hb, hwhole]
  rfl

/-- Settles O25: VALUE performs, and its effect is `Finalize` of the context. -/
theorem valueWritesTheFinalizedChecksum : Obligations.ValueWritesTheFinalizedChecksum := by
  intro s c hready hc
  rw [exec_value hready hc]
  cases ho : s.active.refOut <;> simp [effectOf, State.setResult, finalize, exor, alignShift, ho]

/-- Writing a context the value it holds changes nothing. -/
theorem State.setAcc_readAcc_self (s : State) (c : Nat) : s.setAcc c (s.readAcc c) = s := by
  have hset : s.acc.set c (s.readAcc c) = s.acc := by
    by_cases hc : c < s.acc.length
    · rw [State.readAcc, List.getD_eq_getElem _ _ hc, List.set_getElem_self]
    · exact List.set_eq_of_length_le (Nat.not_lt.mp hc)
  rw [State.setAcc, hset]

/-- A range update by no bytes keeps the register (42_crc_engine.md rule R187). -/
theorem updateRange_nil (nw : Nat) (a : ActiveConfig) (tables : List (List Word)) (acc : Word) :
    updateRange nw a tables acc [] = acc := by
  unfold updateRange
  split <;> rfl

/-- Bit steps over no bits keep the register. -/
theorem updateBits_zero (nw : Nat) (a : ActiveConfig) (acc : Word) (v : Byte) : updateBits nw a acc v 0 = acc := by
  unfold updateBits messageBits
  split <;> rfl

/-- Settles O29: an update by no bytes or bits writes its context the value it holds, and the checks come first. -/
theorem zeroLengthUpdatesChangeNothing : Obligations.ZeroLengthUpdatesChangeNothing := by
  refine ⟨fun s c hready hc hb ho h0 => ?_, fun s c hready hc hb h0 => ?_, fun s c v hready hc hl => ?_,
    fun s c hready hc h0 hb => exec_updall_faults hready hc (by omega),
    fun s c hready hc _ hb => exec_updbuf_faults hready hc hb⟩
  · have hbytes : s.subRangeBytes = [] := by rw [State.subRangeBytes, h0]; rfl
    rw [exec_updbuf hready hc hb ho (by simp [h0]), effectOf, hbytes, State.rangeValue, updateRange_nil,
      State.setAcc_readAcc_self]
  · have hbytes : s.bufferBytes = [] := by rw [State.bufferBytes, h0]; rfl
    rw [exec_updall hready hc (by simpa [h0] using hb), effectOf, hbytes, State.rangeValue, updateRange_nil,
      State.setAcc_readAcc_self]
  · rw [exec_updbits hready hc hl, effectOf, updateBits_zero, State.setAcc_readAcc_self]

/-- No update sees RESULT. -/
theorem exec_update_setResult {c : Nat} {i : Instr} (hi : isUpdateOf c i = true) (s : State) (v : Word) :
    exec i (s.setResult v) = mapNext (fun t => t.setResult v) (exec i s) := by
  rcases isUpdateOf_cases hi with ⟨b, rfl⟩ | ⟨x, k, rfl⟩ | rfl | rfl <;>
    exact exec_mapNext (f := fun t => t.setResult v) rfl rfl (fun _ _ => rfl) rfl rfl

/-- Settles O26: VALUE's effect is a write of RESULT, computed from its context and the active configuration. -/
theorem valueIsStableAndPure : Obligations.ValueIsStableAndPure := by
  intro s t c hready hc ht
  rw [exec_value hready hc] at ht
  obtain rfl := Host.Outcome.next.inj ht
  refine ⟨rfl, fun t' u hready' hparams hactive hacc hu => ?_, fun i hi => exec_update_setResult hi s _⟩
  rw [exec_value hready' (hparams ▸ hc)] at hu
  obtain rfl := Host.Outcome.next.inj hu
  simp only [effectOf, State.setResult_result, State.nw, hparams, hactive, hacc]

end Sys2Proof.Machine

/-! ### Byte steps, bit steps and lane counts -/

namespace Sys2Proof.Machine

/-- The bits of a byte in message bit order are its bits 0 to 7, or 7 to 0 (00_scope.md rule R13). -/
theorem messageBits_eight (refIn : Bool) (b : Byte) : messageBits refIn 8 b =
    (if refIn = true then [0, 1, 2, 3, 4, 5, 6, 7] else [7, 6, 5, 4, 3, 2, 1, 0]).map fun i => b.getLsbD i := by
  cases refIn <;> rfl

/-- Settles O27: a byte step is the bit steps over the byte's bits in message bit order. -/
theorem byteStepIsEightBitSteps : Obligations.ByteStepIsEightBitSteps := by
  intro nw a tables acc b hnw hacc ht
  rw [byteStep_eq_bitSteps hnw ht hacc b, messageBits_eight, List.foldl_map]
  rfl

/-- Byte steps look at the first lane table only, and at nothing of the configuration but the bit order. -/
theorem byteStep_congr (nw : Nat) {a a' : ActiveConfig} {tables tables' : List (List Word)}
    (hr : a'.refIn = a.refIn) (ht : tables'.getD 0 [] = tables.getD 0 []) :
    byteStep nw a' tables' = byteStep nw a tables := by
  funext acc b
  simp only [byteStep, tableEntry, hr, ht]

/-- Settles O28: a range update at any lane count is the byte steps of the range, which look at the base table only; the
rule's example is evaluated by byte steps. -/
theorem laneCountsAgree : Obligations.LaneCountsAgree := by
  refine ⟨fun nw a acc bytes hnw ha hacc => ?_, ?_⟩
  · have hsteps (a' : ActiveConfig) (hl : a'.lanes = 1 ∨ a'.lanes = 8 ∨ a'.lanes = 16) :=
      updateRange_eq_byteSteps (a := a') hnw (buildLaneTables_getD_zero nw (epoly nw a') a'.refIn (by omega)) rfl
        hacc bytes
    refine ⟨fun lanes hl => ?_, hsteps a ha.lanes⟩
    have hlanes : lanes.toNat = 1 ∨ lanes.toNat = 8 ∨ lanes.toNat = 16 := by
      rcases hl with rfl | rfl | rfl <;> decide
    have hpos' : 0 < lanes.toNat := by omega
    have hpos : 0 < a.lanes := by have := ha.lanes; omega
    have hbyte : byteStep nw { a with alanes := lanes } (buildLaneTables nw (epoly nw a) a.refIn lanes.toNat) =
        byteStep nw a (buildLaneTables nw (epoly nw a) a.refIn a.lanes) :=
      byteStep_congr nw rfl
        ((buildLaneTables_getD_zero _ _ _ hpos').trans (buildLaneTables_getD_zero _ _ _ hpos).symm)
    exact (hsteps { a with alanes := lanes } hlanes).trans
      ((congrArg (List.foldl · acc bytes) hbyte).trans (hsteps a ha.lanes).symm)
  · intro tables bytes
    have hbytes : bytes.foldl (byteStep 32 (crc32 8) tables) 0xFFFFFFFF = 0x651F2550 := by decide +kernel
    refine ⟨?_, hbytes⟩
    rw [← hbytes]
    exact blockStep_eq 32 (.inl rfl) (crc32 8) _ (by decide) bytes rfl tables
      (buildLaneTables_getD_zero 32 _ _ (by decide))

end Sys2Proof.Machine

/-! ### Replays, and contexts that do not see each other -/

namespace Sys2Proof.Machine

/-- `s'` has all that the engine commands on context `c` read, and ERR, as `s` has it. -/
structure State.AgreesOn (c : Nat) (s s' : State) : Prop where
  params : s'.params = s.params
  cfgValid : s'.cfgValid = s.cfgValid
  err : s'.err = s.err
  active : s'.active = s.active
  tables : s'.tables = s.tables
  bufBase : s'.bufBase = s.bufBase
  bufLen : s'.bufLen = s.bufLen
  arg0 : s'.arg0 = s.arg0
  arg1 : s'.arg1 = s.arg1
  memory : ∀ a, s'.memRead a = s.memRead a
  contexts : s'.acc.length = s.acc.length
  readAcc : s'.readAcc c = s.readAcc c

section
variable {c : Nat} {s s' : State}

/-- Reading a context after a write to it. -/
theorem State.setAcc_readAcc_eq_ite (s : State) (c : Nat) (v : Word) :
    (s.setAcc c v).readAcc c = if c < s.acc.length then v else 0 := by
  split
  · next hc => exact State.setAcc_readAcc_same s c v hc
  · next hc => simp [State.readAcc, List.getD_eq_getElem?_getD, hc]

theorem State.AgreesOn.refl (c : Nat) (s : State) : s.AgreesOn c s :=
  ⟨rfl, rfl, rfl, rfl, rfl, rfl, rfl, rfl, rfl, fun _ => rfl, rfl, rfl⟩

/-- Writing one value to context `c` in both keeps the agreement. -/
theorem State.AgreesOn.setAcc (h : s.AgreesOn c s') (v : Word) : (s.setAcc c v).AgreesOn c (s'.setAcc c v) :=
  { h with
    contexts := by simp [h.contexts]
    readAcc := by rw [State.setAcc_readAcc_eq_ite, State.setAcc_readAcc_eq_ite, h.contexts] }

/-- RESULT is no part of it. -/
theorem State.AgreesOn.setResult (h : s.AgreesOn c s') (v v' : Word) :
    (s.setResult v).AgreesOn c (s'.setResult v') :=
  { h with }

/-- A fault in both keeps it, whatever each records. -/
theorem State.AgreesOn.takeFault (h : s.AgreesOn c s') (k k' : FaultCode) (v v' : Word) :
    (s.takeFault k v).AgreesOn c (s'.takeFault k' v') :=
  { h with err := rfl }

/-- A write to another context is not seen on context `c`. -/
theorem State.agreesOn_setAcc {d : Nat} (hd : c ≠ d) (s : State) (v : Word) : s.AgreesOn c (s.setAcc d v) :=
  { State.AgreesOn.refl c s with
    contexts := by simp
    readAcc := State.setAcc_readAcc_other s d c v hd }

/-- Neither is a write to RESULT. -/
theorem State.agreesOn_setResult (s : State) (v : Word) : s.AgreesOn c (s.setResult v) :=
  { State.AgreesOn.refl c s with }

theorem State.AgreesOn.nw (h : s.AgreesOn c s') : s'.nw = s.nw := by
  rw [State.nw, State.nw, h.params]

theorem State.AgreesOn.memBytes (h : s.AgreesOn c s') (a n : Nat) : s'.memBytes a n = s.memBytes a n := by
  simp only [State.memBytes, h.memory]

theorem State.AgreesOn.rangeValue (h : s.AgreesOn c s') (bytes : List Byte) :
    s'.rangeValue c bytes = s.rangeValue c bytes := by
  simp only [State.rangeValue, h.nw, h.active, h.tables, h.readAcc]

/-- The checks of a command on context `c` give the same. -/
theorem State.AgreesOn.checksOf (h : s.AgreesOn c s') {i : Instr} (hi : contextOf i = some c) :
    checksOf s' i = checksOf s i := by
  cases i <;> cases hi <;>
    simp only [Machine.checksOf, checkConfigured, checkCtx, checkLanes, checkSubRange, checkBuffer, rangeLegal,
      h.params, h.cfgValid, h.active, h.bufBase, h.bufLen, h.arg0, h.arg1]

/-- The effect of a command on context `c` writes it the same value, or writes RESULT only. -/
theorem State.AgreesOn.effectOf (h : s.AgreesOn c s') {i : Instr} (hi : contextOf i = some c) :
    (effectOf s i).AgreesOn c (effectOf s' i) := by
  cases i <;> cases hi
  case reset => simpa only [Machine.effectOf, h.nw, h.active] using h.setAcc _
  case updb b => simpa only [Machine.effectOf, h.nw, h.active, h.tables, h.readAcc] using h.setAcc _
  case updbits v k => simpa only [Machine.effectOf, h.nw, h.active, h.readAcc] using h.setAcc _
  case updbuf =>
    simpa only [Machine.effectOf, State.subRangeBytes, h.memBytes, h.rangeValue, h.bufBase, h.arg0, h.arg1]
      using h.setAcc _
  case updall =>
    simpa only [Machine.effectOf, State.bufferBytes, h.memBytes, h.rangeValue, h.bufBase, h.bufLen]
      using h.setAcc _
  case value => exact h.setResult _ _

/-- The effect of VALUE writes RESULT the same value. -/
theorem State.AgreesOn.effectOf_value (h : s.AgreesOn c s') :
    (Machine.effectOf s' (.value c)).result = (Machine.effectOf s (.value c)).result := by
  simp only [Machine.effectOf, State.setResult_result, h.nw, h.active, h.readAcc]

/-- While ERR = 1 every command but CLEARERR is dropped (60_exceptions.md rule R261). -/
theorem exec_dropped {i : Instr} {s : State} (hi : i ≠ .clearerr) (hs : s.err = true) : exec i s = .next s := by
  rw [exec_eq_runCommand i s hi, runCommand_dropped i s _ _ hs]

/-- A command on context `c` does the same in states that agree on `c`, whether it performs, faults or is dropped. -/
theorem State.AgreesOn.exec (h : s.AgreesOn c s') {i : Instr} (hi : contextOf i = some c) {t t' : State}
    (ht : exec i s = .next t) (ht' : exec i s' = .next t') :
    t.AgreesOn c t' ∧ (i = .value c → t.err = false → t'.result = t.result) := by
  have hne := (ne_control_of_contextOf hi).2
  have hchecks := h.checksOf hi
  rcases exec_cases i s t ht with ⟨rfl, he⟩ | ⟨hcl, -⟩ | ⟨k, -, he, hk, rfl⟩ | ⟨-, he, hf, rfl⟩
  · have he := he.resolve_right hne
    rw [exec_dropped hne (h.err.trans he)] at ht'
    obtain rfl := Host.Outcome.next.inj ht'
    exact ⟨h, by simp [he]⟩
  · exact absurd hcl hne
  · rw [exec_faults hne (h.err.trans he) (hchecks ▸ hk)] at ht'
    obtain rfl := Host.Outcome.next.inj ht'
    exact ⟨h.takeFault _ _ _ _, by simp⟩
  · rw [exec_performs hne (h.err.trans he) (hchecks ▸ hf)] at ht'
    obtain rfl := Host.Outcome.next.inj ht'
    exact ⟨h.effectOf hi, fun hv _ => hv ▸ h.effectOf_value⟩

/-- A command that leaves ERR = 0 and is not CLEARERR ran with ERR = 0. -/
theorem err_eq_false_of_exec {i : Instr} {t : State} (ht : exec i s = .next t) (hi : i ≠ .clearerr)
    (herr : t.err = false) : s.err = false := by
  by_contra hs
  exact hi (eq_clearerr_of_err_cleared ht (by simpa using hs) herr)

/-- A run of commands is its first command and a run of the others. -/
theorem runCommands_cons {i : Instr} {is : List Instr} {t : State} (h : runCommands (i :: is) s = .next t) :
    ∃ u, exec i s = .next u ∧ runCommands is u = .next t := by
  obtain ⟨u, hu⟩ := exec_next i s
  rw [runCommands, hu] at h
  exact ⟨u, hu, h⟩

/-- Updates of context `c` and a VALUE of it do the same in states that agree on `c` (42_crc_engine.md rule R188). -/
theorem State.AgreesOn.runCommands (h : s.AgreesOn c s') {is : List Instr} (his : ∀ i ∈ is, isUpdateOf c i = true)
    {t t' : State} (ht : runCommands (is ++ [.value c]) s = .next t)
    (ht' : runCommands (is ++ [.value c]) s' = .next t') (herr : t.err = false) :
    t'.err = false ∧ t'.readAcc c = t.readAcc c ∧ t'.result = t.result := by
  induction is generalizing s s' with
  | nil =>
    obtain ⟨u, hu, hut⟩ := runCommands_cons ht
    obtain ⟨u', hu', hut'⟩ := runCommands_cons ht'
    obtain rfl := Host.Outcome.next.inj hut
    obtain rfl := Host.Outcome.next.inj hut'
    obtain ⟨hag, hres⟩ := h.exec rfl hu hu'
    exact ⟨hag.err.trans herr, hag.readAcc, hres rfl herr⟩
  | cons i is ih =>
    obtain ⟨u, hu, hut⟩ := runCommands_cons ht
    obtain ⟨u', hu', hut'⟩ := runCommands_cons ht'
    obtain ⟨hi, his⟩ := List.forall_mem_cons.mp his
    exact ih (h.exec (contextOf_of_isUpdateOf hi) hu hu').1 his hut hut'

/-- A run that ends with a VALUE that performs names a context that exists. -/
theorem context_of_runCommands {is : List Instr} {t : State} (ht : Machine.runCommands (is ++ [.value c]) s = .next t)
    (herr : t.err = false) : c < s.params.nctx := by
  induction is generalizing s with
  | nil =>
    obtain ⟨u, hu, hut⟩ := runCommands_cons ht
    obtain rfl := Host.Outcome.next.inj hut
    obtain ⟨hf, -⟩ := exec_has_effect hu (by simp) (err_eq_false_of_exec hu (by simp) herr) herr
    exact context_of_no_check _ s c rfl hf
  | cons i is ih =>
    obtain ⟨u, hu, hut⟩ := runCommands_cons ht
    obtain ⟨-, -, -, -, -, -, -, hparams⟩ := commandsLeaveHostRegisters i s u hu
    exact hparams ▸ ih hut

end

/-- RESET gives its context the value that a CONFIGURE of the same configuration gives it (42_crc_engine.md rule
R188). -/
theorem reset_readAcc_eq_configured {s u : State} {c : Nat} (hparams : u.params = s.params)
    (hlen : u.acc.length = u.params.nctx) (hc : c < u.params.nctx) :
    (effectOf u (.reset c)).readAcc c = (s.configured u.active).readAcc c := by
  rw [State.configured_readAcc s _ c (hparams ▸ hc), State.nw, ← hparams]
  exact State.setAcc_readAcc_same u c _ (hlen ▸ hc)

/-- Settles O30: RESET makes its context agree with one just configured in all that its updates and VALUE read, and
states that agree on a context give the same register and RESULT. -/
theorem resetReplaysAFreshEngine : Obligations.ResetReplaysAFreshEngine := by
  refine ⟨?_, ?_, ?_⟩
  · rintro s u _ c hready hparams rfl hlen hc
    exact ⟨_, exec_reset hready hc, hready.1, reset_readAcc_eq_configured hparams hlen hc⟩
  · intro s fresh u t t' c is hfresh hferr his hready hparams hactive htables hlen hbase hblen harg0 harg1 hmem
      ht ht' herr
    obtain ⟨-, rfl⟩ := exec_has_effect hfresh (by simp) (err_eq_false_of_exec hfresh (by simp) hferr) hferr
    have hc : c < u.params.nctx := hparams ▸ context_of_runCommands ht herr
    obtain ⟨u', hu', hrun⟩ := runCommands_cons ht'
    rw [exec_reset hready hc] at hu'
    obtain rfl := Host.Outcome.next.inj hu'
    have hacc := reset_readAcc_eq_configured (s := s) hparams hlen hc
    rw [hactive] at hacc
    have hag : State.AgreesOn c (effectOf s .configure) (effectOf u (.reset c)) :=
      ⟨hparams, hready.2, hready.1.trans hferr.symm, hactive, htables, hbase, hblen, harg0, harg1, hmem,
        by simp [effectOf, hlen, hparams], hacc⟩
    exact hag.runCommands his ht hrun herr
  · intro s s' t t' c is his hparams hcfg herr' hactive htables hbase hblen harg0 harg1 hmem hlen hlen' hacc
      ht ht' herr
    have hag : s.AgreesOn c s' :=
      ⟨hparams, hcfg, herr', hactive, htables, hbase, hblen, harg0, harg1, hmem, hlen'.trans hlen.symm, hacc⟩
    exact hag.runCommands his ht ht' herr

/-- The effect of a command on context `c` is a write to `c` or to RESULT. -/
theorem effectOf_context (s : State) {c : Nat} {i : Instr} (hi : contextOf i = some c) :
    (∃ v, effectOf s i = s.setAcc c v) ∨ ∃ v, effectOf s i = s.setResult v := by
  cases i <;> cases hi
  case value => exact .inr ⟨_, rfl⟩
  all_goals exact .inl ⟨_, rfl⟩

section
variable {c d : Nat} (hd : d ≠ c) {i : Instr} (hi : contextOf i = some c) {s : State}
include hd hi

/-- A command on context `c` does not see a write to another context `d`. -/
theorem effectOf_setAcc_other (v : Word) : effectOf (s.setAcc d v) i = (effectOf s i).setAcc d v := by
  have hag := State.agreesOn_setAcc hd.symm s v
  have hcomm (x : Word) : (s.setAcc d v).setAcc c x = (s.setAcc c x).setAcc d v := by
    simp only [State.setAcc, List.set_comm _ _ hd]
  cases i <;> cases hi
  case reset => exact hcomm _
  case updb | updbits =>
    simp only [effectOf, hag.readAcc]
    exact hcomm _
  case updbuf | updall =>
    simp only [effectOf, hag.rangeValue]
    exact hcomm _
  case value =>
    simp only [effectOf, hag.readAcc]
    rfl

/-- Neither do its checks, so the write can as well come after the command. -/
theorem exec_setAcc_other (v : Word) : exec i (s.setAcc d v) = mapNext (fun t => t.setAcc d v) (exec i s) :=
  exec_mapNext (f := fun t => t.setAcc d v) rfl rfl (fun _ _ => rfl) ((State.agreesOn_setAcc hd.symm s v).checksOf hi)
    (effectOf_setAcc_other hd hi v)

/-- A command on context `c` that performs leaves all that the commands on another context `d` read. -/
theorem agreesOn_effectOf_other : s.AgreesOn d (effectOf s i) := by
  rcases effectOf_context s hi with ⟨v, h⟩ | ⟨v, h⟩
  · exact h ▸ State.agreesOn_setAcc hd s v
  · exact h ▸ State.agreesOn_setResult s v

/-- A command on context `c` leaves another context `d` alone. -/
theorem exec_readAcc_other {t : State} (ht : exec i s = .next t) : t.readAcc d = s.readAcc d := by
  rcases exec_cases i s t ht with ⟨rfl, -⟩ | ⟨-, -, rfl⟩ | ⟨k, -, -, -, rfl⟩ | ⟨-, -, -, rfl⟩
  · rfl
  · rfl
  · rfl
  · exact (agreesOn_effectOf_other hd hi).readAcc

end

/-- Settles O31: a command on one context leaves all that a command on another reads. -/
theorem contextsAreIndependent : Obligations.ContextsAreIndependent := by
  refine ⟨fun i c d v s hi hd => exec_setAcc_other hd hi v, fun i c d s t hi hd ht => exec_readAcc_other hd hi ht, ?_⟩
  intro i j c d s t u u' hi hj hcd ht hu hu' herr
  have hne := (ne_control_of_contextOf hi).2
  obtain ⟨-, rfl⟩ := exec_has_effect ht hne (err_eq_false_of_exec ht hne herr) herr
  obtain ⟨hag, hres⟩ := (agreesOn_effectOf_other hcd.symm hi).exec hj hu' hu
  exact ⟨exec_readAcc_other hcd hj hu, hag.readAcc, fun huerr hv => hres hv (hag.err.symm.trans huerr)⟩

end Sys2Proof.Machine

/-! ### Both native widths -/

namespace Sys2Proof.Machine

/-- The combiner commands check only that the block is configured (44_gf2_combiner.md rule R239). -/
theorem checksOf_combiner (s : State) {i : Instr} (hi : isCombiner i = true) : checksOf s i = [checkConfigured s] := by
  cases i with
  | gfmul | gfxpow | combine | chseed | zeroes | residue => rfl
  | configure | clearerr | reset | updb | updbits | updbuf | updall | value => cases hi

/-- What a combiner command writes to RESULT is a function of the configuration, the field context and the operands
(44_gf2_combiner.md rules R228 to R233). -/
theorem effectOf_combiner_congr {s t : State} {i : Instr} (hi : isCombiner i = true) (hactive : t.active = s.active)
    (hfield : t.field = s.field) (harg0 : t.arg0 = s.arg0) (harg1 : t.arg1 = s.arg1) (harg2 : t.arg2 = s.arg2)
    (harg3 : t.arg3 = s.arg3) : (effectOf t i).result = (effectOf s i).result := by
  cases i with
  | gfmul | gfxpow | combine | chseed | zeroes | residue =>
    simp only [effectOf, State.setResult_result, State.operand, State.gfMul, State.xPowN, State.x8N, hactive, hfield,
      harg0, harg1, harg2, harg3]
  | configure | clearerr | reset | updb | updbits | updbuf | updall | value => cases hi

/-- A combiner command in a ready block has its effect. -/
theorem exec_combiner {s : State} (hready : s.ready) {i : Instr} (hi : isCombiner i = true) :
    exec i s = .next (effectOf s i) := by
  refine exec_performs ?_ hready.1 ?_
  · rintro rfl
    cases hi
  · simp [checksOf_combiner s hi, checkConfigured, firstFault, hready.2]

/-- VALUE on a context that holds the remainder of its message writes the reference's CRC of the message
(42_crc_engine.md rule R186), whatever the native width. -/
theorem effectOf_value_of_holds {s : State} {m : Nat → List Bool} (hinv : s.Inv) (hcfg : s.cfgValid = true)
    (h : s.holds m) {c : Nat} (hc : c < s.params.nctx) : (effectOf s (.value c)).result = refCrc s.active (m c) := by
  have hlegal := hinv.config.legal hcfg
  rw [effectOf, State.setResult_result, h hcfg c hc,
    finalize_eq _ (nw_cases s) _ hlegal _ (refRegister_isBits hlegal hlegal.init_bits _), refCrc]

/-- Settles O36: VALUE writes the reference's CRC on either block, and the combiner reads nothing of the native
width. -/
theorem nativeWidthDoesNotChangeResults : Obligations.NativeWidthDoesNotChangeResults := by
  intro s t u v m i _ _ hsinv htinv hsready htready hactive hnctx hsm htm harg0 harg1 harg2 harg3 hi hu hv
  have hperform : exec i s = .next (effectOf s i) ∧ exec i t = .next (effectOf t i) ∧
      (effectOf t i).result = (effectOf s i).result := by
    rcases hi with hi | ⟨c, hc, rfl⟩
    · have hfield : t.field = s.field := by
        rw [htinv.config.field htready.2, hsinv.config.field hsready.2, hactive]
      exact ⟨exec_combiner hsready hi, exec_combiner htready hi,
        effectOf_combiner_congr hi hactive hfield harg0 harg1 harg2 harg3⟩
    · have hc' := hnctx ▸ hc
      refine ⟨exec_value hsready hc, exec_value htready hc', ?_⟩
      rw [effectOf_value_of_holds htinv htready.2 htm hc', effectOf_value_of_holds hsinv hsready.2 hsm hc, hactive]
  obtain ⟨hs, ht, hresult⟩ := hperform
  obtain rfl := Host.Outcome.next.inj (hs.symm.trans hu)
  obtain rfl := Host.Outcome.next.inj (ht.symm.trans hv)
  exact ⟨hresult, (effectOf_faultRecord s i).1.trans hsready.1, (effectOf_faultRecord t i).1.trans htready.1⟩

end Sys2Proof.Machine

/-! ### The adapter as a native model -/

namespace Sys2Proof.Machine

/-- The model of width `nw` whose polynomial, initial value and XOR mask are the adapter's `EPOLY`, `EINIT` and `EXOR`
(43_width_adapter.md rule R208). -/
def ActiveConfig.native (nw : Nat) (a : ActiveConfig) : ActiveConfig :=
  { a with aw := BitVec.ofNat 7 nw, apoly := epoly nw a, ainit := einit nw a, axor := exor nw a }

section
variable {nw : Nat} (hnw : nw = 32 ∨ nw = 64) {a : ActiveConfig} (ha : a.Legal nw) {reg : Word}
  (hreg : isBits a.w reg = true)
include hnw

/-- The native model's width is the native width. -/
theorem native_w (a : ActiveConfig) : (a.native nw).w = nw := by
  rcases hnw with rfl | rfl <;> rfl

/-- A bit of the native model's reference is a natural-order bit step of the engine (42_crc_engine.md rule R175). -/
theorem refBit_native (a : ActiveConfig) : refBit (a.native nw) = bitStep nw { a with refIn := false } := by
  funext reg bit
  rw [refBit, native_w hnw]
  rfl

include ha hreg

/-- The native model's register runs the adapted model's, aligned at the top. -/
theorem refRegister_native (bits : List Bool) :
    refRegister (a.native nw) (shl nw reg (alignShift nw a)) bits =
      shl nw (refRegister a reg bits) (alignShift nw a) := by
  have hnatural : ActiveConfig.Legal nw { a with refIn := false } := { ha with }
  rw [refRegister, refBit_native hnw]
  exact foldl_bitStep_engineRegister hnw hnatural hreg bits

/-- The native model's output of an aligned remainder is the adapted model's output, aligned unless it is reflected. -/
theorem refOutput_native : refOutput a reg = if a.refOut = true then
    refOutput (a.native nw) (shl nw reg (alignShift nw a))
    else refOutput (a.native nw) (shl nw reg (alignShift nw a)) >>> (nw - a.w) := by
  have h64 : nw ≤ 64 := by omega
  cases ho : a.refOut
  · have hout : refOutput (a.native nw) (shl nw reg (alignShift nw a)) = shl nw (refOutput a reg) (nw - a.w) := by
      simp [refOutput, ActiveConfig.native, exor, ho, alignShift, shl_xor]
    have hbits : isBits a.w (refOutput a reg) = true := by
      simpa [refOutput, ho] using isBits_xor _ _ _ hreg ha.xor_bits
    rw [if_neg (by simp), hout, shl_back _ _ ha.width_le h64 _ hbits]
  · have hrev : bitrev nw (shl nw reg (alignShift nw a)) = bitrev a.w reg := bitrev_shl _ _ ha.width_le h64 _
    rw [if_pos rfl, refOutput, refOutput, native_w hnw, hrev]
    simp [ActiveConfig.native, exor, ho]

end

/-- Settles O37: the native model's register holds the adapted model's remainder at the top throughout, and the output
step brings it down. -/
theorem adapterIsAPreShiftedNativeModel : Obligations.AdapterIsAPreShiftedNativeModel := by
  intro nw a bits hnw ha
  have hrun : refCrc (a.native nw) bits =
      refOutput (a.native nw) (shl nw (refRegister a a.ainit bits) (alignShift nw a)) :=
    congrArg _ (refRegister_native hnw ha ha.init_bits bits)
  change refCrc a bits = if a.refOut = true then refCrc (a.native nw) bits else refCrc (a.native nw) bits >>> (nw - a.w)
  rw [hrun]
  exact refOutput_native hnw ha (refRegister_isBits ha ha.init_bits bits)

end Sys2Proof.Machine

/-!
PROOFS of the statements on 44_gf2_combiner.md: what the combiner commands write; the multiplication; powers of x; the
combiner-encoded CRC as a function of its start; COMBINE, CHSEED, ZEROES and RESIDUE.
-/

/-! ### The combiner commands -/

namespace Sys2Proof.Machine

/-- Settles O38: each combiner command has its effect in a ready block, and the effect is the rule's. -/
theorem combinerCommandsWriteResult : Obligations.CombinerCommandsWriteResult := fun _ hready =>
  ⟨exec_combiner hready rfl, exec_combiner hready rfl, exec_combiner hready rfl, exec_combiner hready rfl,
    exec_combiner hready rfl, exec_combiner hready rfl⟩

/-- What a combiner command answers in a ready block. -/
theorem eq_effectOf_combiner {s t : State} {i : Instr} (h : exec i s = .next t) (hready : s.ready)
    (hi : isCombiner i = true) : t = effectOf s i :=
  Host.Outcome.next.inj (h.symm.trans (exec_combiner hready hi))

end Sys2Proof.Machine

/-! ### Multiplication -/

namespace Sys2Proof.Machine

/-- Multiplication is linear in its second factor. -/
theorem fieldMul_xor_right (a : ActiveConfig) (u v v' : Word) :
    fieldMul a u (v ^^^ v') = fieldMul a u v ^^^ fieldMul a u v' := by
  simp only [fieldMul_eq_sum, and_mask_xor, sumOfPowers_xor_right]

theorem fieldMul_zero_right (a : ActiveConfig) (u : Word) : fieldMul a u 0 = 0 := by
  have h := fieldMul_xor_right a u 0 0
  simpa using h

/-- Only the low `w` bits of the second factor count (44_gf2_combiner.md rule R221). -/
theorem fieldMul_and_mask_right (a : ActiveConfig) (u v : Word) : fieldMul a u (v &&& mask a.w) = fieldMul a u v := by
  rw [fieldMul_eq_sum, fieldMul_eq_sum, and_mask_of_isBits _ _ (isBits_and_mask _ _)]

section
variable {a : ActiveConfig} (h : FieldOk a)
include h

/-- Multiplication commutes with multiplication by a power of `x`. -/
theorem fieldMul_iterate_right (u : Word) {v : Word} (hv : isBits a.w v = true) (n : Nat) :
    fieldMul a u ((timesX a)^[n] v) = (timesX a)^[n] (fieldMul a u v) := by
  rw [fieldMul_eq_sum, fieldMul_eq_sum, and_mask_of_isBits _ _ (timesX_iterate_bits a h n v hv),
    and_mask_of_isBits _ _ hv, sumOfPowers_iterate]

/-- Multiplication takes a sum of multiples by powers of `x` to the sum of the products' multiples. -/
theorem fieldMul_sumOfPowers (u : Word) (c : Nat → Bool) {v : Word} (hv : isBits a.w v = true) (n : Nat) :
    fieldMul a u (sumOfPowers a c v n) = sumOfPowers a c (fieldMul a u v) n := by
  induction n with
  | zero => exact fieldMul_zero_right a u
  | succ n ih =>
    rw [sumOfPowers, sumOfPowers, fieldMul_xor_right, ih, apply_ite (fieldMul a u), fieldMul_iterate_right h u hv,
      fieldMul_zero_right]

/-- Two factors may be taken in either order: both products are the sum of the multiples that `v` selects. -/
theorem fieldMul_left_comm (u v x : Word) : fieldMul a u (fieldMul a v x) = fieldMul a v (fieldMul a u x) :=
  calc fieldMul a u (fieldMul a v x)
    _ = sumOfPowers a (coefficient a (v &&& mask a.w)) (fieldMul a u (x &&& mask a.w)) a.w := by
      rw [fieldMul_eq_sum a v x, fieldMul_sumOfPowers h u _ (isBits_and_mask _ _)]
    _ = sumOfPowers a (coefficient a (v &&& mask a.w)) (fieldMul a u x &&& mask a.w) a.w := by
      rw [fieldMul_and_mask_right, and_mask_of_isBits _ _ (fieldMul_isBits h u x)]
    _ = fieldMul a v (fieldMul a u x) := (fieldMul_eq_sum a v _).symm

/-- Multiplication is commutative, by exchanging the factors in front of `ONE` (44_gf2_combiner.md rule R221). -/
theorem fieldMul_comm (u v : Word) : fieldMul a u v = fieldMul a v u := by
  have hone := fieldMul_left_comm h u v (fieldOne a)
  rwa [fieldMul_one a h, fieldMul_one a h, fieldMul_and_mask_right, fieldMul_and_mask_right] at hone

/-- Multiplication is associative, for every polynomial (44_gf2_combiner.md rule R221). -/
theorem fieldMul_assoc (u v x : Word) : fieldMul a (fieldMul a u v) x = fieldMul a u (fieldMul a v x) := by
  rw [fieldMul_comm h _ x, fieldMul_left_comm h x u v, fieldMul_comm h x v]

end

/-- A configuration that is legal on either native width has a field to compute in. -/
theorem fieldOk_of_legal {nw : Nat} (hnw : nw = 32 ∨ nw = 64) {a : ActiveConfig} (ha : a.Legal nw) : FieldOk a :=
  ha.fieldOk (by omega)

/-- Settles O39: products are sums of multiples by powers of `x`, so factors can be exchanged, and `ONE` is the unit. -/
theorem fieldMultiplicationIsCommutativeMonoid : Obligations.FieldMultiplicationIsCommutativeMonoid := by
  intro nw a hnw ha
  have h := fieldOk_of_legal hnw ha
  exact ⟨fieldMul_comm h, fieldMul_assoc h, fun v => (fieldMul_comm h _ v).trans (fieldMul_one a h v),
    fieldMul_isBits h⟩

end Sys2Proof.Machine

/-! ### Powers of x -/

namespace Sys2Proof.Machine

theorem length_xpowEntries (a : ActiveConfig) (red0 red1 : Word) (count : Nat) (x : Word) :
    (xpowEntries a red0 red1 count x).length = count := by
  induction count generalizing x with
  | zero => rfl
  | succ count ih => rw [xpowEntries, List.length_cons, ih]

/-- Entry `i` of XPOW is `XMODP` squared `i` times (44_gf2_combiner.md rule R224). -/
theorem xpow_getD (a : ActiveConfig) {i : Nat} (hi : i < 64) :
    (buildFieldContext a).xpow.getD i 0 = (fun y => fieldMul a y y)^[i] (xModP a) :=
  xpowEntries_get a 0 (polyEnc a) 64 (xModP a) i hi

/-- Settles O40: every entry is the square of the one before, so entry `i` is `x^(2^i)`. -/
theorem xpowEntriesAreSquaredPowersOfX : Obligations.XpowEntriesAreSquaredPowersOfX := by
  refine ⟨fun nw a hnw ha => ⟨length_xpowEntries _ _ _ _ _, rfl, fun i hi => ?_, fun i hi => ?_⟩, ?_, ?_⟩
  · rw [xpow_getD a (by omega), xpow_getD a (by omega), Function.iterate_succ_apply']
  · rw [xpow_getD a hi]
    exact square_iterate a (fieldOk_of_legal hnw ha) i
  · decide +kernel
  · decide +kernel

/-- The exponent of `x` for a length in bytes, on the bus's 64 bits (44_gf2_combiner.md rule R226). -/
theorem toNat_eight_mul (len : Word) : (8 * len).toNat = (8 * len.toNat) % 2 ^ 64 := by
  rw [BitVec.toNat_mul]
  rfl

/-- Settles O41: the square-and-multiply loop gives `x^n`, and `X8N` takes the exponent `8 * len`. -/
theorem xPowNIsThePowerOfX : Obligations.XPowNIsThePowerOfX := by
  intro nw a hnw ha
  have hpow := xPowN_buildFieldContext (fieldOk_of_legal hnw ha)
  have hlen (len : Word) : x8N a (buildFieldContext a) len = timesXPow a ((8 * len.toNat) % 2 ^ 64) (fieldOne a) := by
    rw [x8N, hpow, toNat_eight_mul, timesXPow]
  refine ⟨hpow, hpow 0, hlen, fun len hlt => ?_⟩
  rw [hlen, Nat.mod_eq_of_lt (by omega)]

end Sys2Proof.Machine

/-! ### The combiner-encoded CRC -/

namespace Sys2Proof.Machine

/-- A word added on both sides of another cancels. -/
theorem xor_xor_self_right (u v : Word) : u ^^^ (v ^^^ u) = v := by
  rw [BitVec.xor_comm, BitVec.xor_assoc, BitVec.xor_self, BitVec.xor_zero]

/-- The combiner's conversion of an output is the remainder in combiner encoding, `CANON` added
(44_gf2_combiner.md rules R216, R219). -/
theorem valueToCombiner_refOutput {a : ActiveConfig} (hw : a.w ≤ 64) {reg : Word} (hreg : isBits a.w reg = true) :
    valueToCombiner a (refOutput a reg) = combinerEncode a reg ^^^ canonValue a := by
  have hrev : bitrev a.w (bitrev a.w reg) = reg := by rw [bitrev_bitrev _ hw, and_mask_of_isBits _ _ hreg]
  unfold valueToCombiner refOutput combinerEncode canonValue
  cases a.refIn <;> cases a.refOut <;> simp [bitrev_xor _ hw, hrev]

/-- Converting a w-bit value twice gives it back (44_gf2_combiner.md rule R216). -/
theorem valueToCombiner_valueToCombiner {a : ActiveConfig} (hw : a.w ≤ 64) {y : Word} (hy : isBits a.w y = true) :
    valueToCombiner a (valueToCombiner a y) = y := by
  unfold valueToCombiner
  split
  · rfl
  · rw [bitrev_bitrev _ hw, and_mask_of_isBits _ _ hy]

theorem refOutput_isBits {a : ActiveConfig} (hw : a.w ≤ 64) (hx : isBits a.w a.axor = true) {reg : Word}
    (hreg : isBits a.w reg = true) : isBits a.w (refOutput a reg) = true := by
  unfold refOutput
  split
  · exact isBits_xor _ _ _ (isBits_bitrev _ hw _) hx
  · exact isBits_xor _ _ _ hreg hx

/-- Settles O42: the start's `CANON` cancels, which leaves the reference's remainder from the initial register. -/
theorem valueInCombinerEncoding : Obligations.ValueInCombinerEncoding := by
  intro nw a bits hnw ha
  have h := fieldOk_of_legal hnw ha
  have hreg := refRegister_isBits ha ha.init_bits bits
  refine ⟨?_, valueToCombiner_valueToCombiner h.w2 (refOutput_isBits h.w2 ha.xor_bits hreg)⟩
  rw [refCrc, valueToCombiner_refOutput h.w2 hreg, combinerCrc, BitVec.xor_assoc, BitVec.xor_self, BitVec.xor_zero,
    combinerEncode_combinerEncode a h _ ha.init_bits]

/-- The remainder stays a w-bit value. -/
theorem feed_isBits {a : ActiveConfig} (h : FieldOk a) {e : Word} (he : isBits a.w e = true) (bit : Bool) :
    isBits a.w (feed a e bit) = true := by
  refine timesX_bits a h _ (isBits_xor _ _ _ he ?_)
  have hw := h.w1
  rw [isBits_iff]
  intro i hi
  cases bit <;> cases a.refIn <;> simp [-BitVec.getLsbD_eq_getElem, BitVec.getLsbD_twoPow] <;> omega

section
variable {a : ActiveConfig} (h : FieldOk a) (hx : isBits a.w a.axor = true) {start : Word}
  (hs : isBits a.w start = true)
include h hx hs

/-- A combiner-encoded CRC is a w-bit value. -/
theorem combinerCrc_isBits (bits : List Bool) : isBits a.w (combinerCrc a start bits) = true := by
  have hc := canonValue_isBits h.w2 hx
  rw [combinerCrc_eq a h hx start hs]
  exact isBits_xor _ _ _ (foldl_isBits _ _ (fun e b he => feed_isBits h he b) bits _ (isBits_xor _ _ _ hs hc)) hc

/-- The CRC of a message in two parts is the second part's, from the first part's as its start. -/
theorem combinerCrc_append (first second : List Bool) :
    combinerCrc a start (first ++ second) = combinerCrc a (combinerCrc a start first) second := by
  rw [combinerCrc_eq a h hx _ (combinerCrc_isBits h hx hs first), combinerCrc_eq a h hx start hs,
    combinerCrc_eq a h hx start hs, List.foldl_append, BitVec.xor_assoc _ (canonValue a), BitVec.xor_self,
    BitVec.xor_zero]

/-- A change of the start changes the CRC by that change times `x` to the message's length. -/
theorem combinerCrc_xor_start {change : Word} (hc : isBits a.w change = true) (bits : List Bool) :
    combinerCrc a (start ^^^ change) bits = combinerCrc a start bits ^^^ (timesX a)^[bits.length] change := by
  have hxor (u v w : Word) : u ^^^ v ^^^ w = u ^^^ w ^^^ v := by ac_rfl
  rw [combinerCrc_eq a h hx _ (isBits_xor _ _ _ hs hc), combinerCrc_eq a h hx start hs, hxor start,
    foldl_feed_xor, hxor]

/-- The CRC from a start is the CRC from the start 0 and the start times `x` to the message's length. -/
theorem combinerCrc_eq_zero_start (bits : List Bool) :
    combinerCrc a start bits = combinerCrc a 0 bits ^^^ (timesX a)^[bits.length] start := by
  rw [← combinerCrc_xor_start h hx (isBits_zero _) hs, show (0 : Word) ^^^ start = start from BitVec.zero_xor]

/-- Appending a message's own CRC leaves a remainder that depends on neither the message nor the start
(44_gf2_combiner.md rule R238). -/
theorem combinerCrc_append_crcBits (bits : List Bool) :
    combinerCrc a start (bits ++ crcBits a (combinerCrc a start bits)) =
      (timesX a)^[a.w] (canonValue a) ^^^ canonValue a := by
  have hcrc := combinerCrc_isBits h hx hs bits
  have hcanon := canonValue_isBits h.w2 hx
  rw [combinerCrc_append h hx hs, combinerCrc_eq a h hx _ hcrc,
    feed_own_bits a h _ _ (isBits_xor _ _ _ hcrc hcanon) hcrc, BitVec.xor_assoc, xor_xor_self_right]

end

theorem length_bytesToBits (refIn : Bool) (bytes : List Byte) :
    (bytesToBits refIn bytes).length = 8 * bytes.length := by
  have hbyte (b : Byte) : (messageBits refIn 8 b).length = 8 := by cases refIn <;> rfl
  simp [bytesToBits, List.length_flatMap, hbyte, Nat.mul_comm]

theorem bytesToBits_append (refIn : Bool) (first second : List Byte) :
    bytesToBits refIn (first ++ second) = bytesToBits refIn first ++ bytesToBits refIn second :=
  List.flatMap_append

/-- A run of zero bytes is a run of zero bits, in either bit order. -/
theorem bytesToBits_zeros (refIn : Bool) (n : Nat) :
    bytesToBits refIn (List.replicate n 0) = List.replicate (8 * n) false := by
  have hzero : messageBits refIn 8 0 = List.replicate 8 false := by cases refIn <;> rfl
  induction n with
  | zero => rfl
  | succ n ih =>
    rw [List.replicate_succ, bytesToBits, List.flatMap_cons, ← bytesToBits, ih, hzero, List.replicate_append_replicate]
    congr 1
    omega

/-- A zero bit into the remainder is a multiplication by `x`. -/
theorem foldl_feed_zeros (a : ActiveConfig) (n : Nat) (e : Word) :
    (List.replicate n false).foldl (feed a) e = (timesX a)^[n] e := by
  have hzero (e : Word) : feed a e false = timesX a e := congrArg (timesX a) BitVec.xor_zero
  induction n generalizing e with
  | zero => rfl
  | succ n ih => rw [List.replicate_succ, List.foldl_cons, hzero, ih, Function.iterate_succ_apply]

end Sys2Proof.Machine

/-! ### COMBINE, CHSEED and ZEROES -/

namespace Sys2Proof.Machine

section
variable {s : State} (hinv : s.Inv) (hready : s.ready)
include hinv hready

/-- In a configured state with the invariant the XOR mask is a w-bit value. -/
theorem active_axor_isBits : isBits s.active.w s.active.axor = true :=
  (hinv.config.legal hready.2).xor_bits

/-- Multiplying by the factor of a length in bytes is multiplying by `x` eight times per byte
(44_gf2_combiner.md rule R226). -/
theorem gfMul_xPowN_bytes {u : Word} (hu : isBits s.active.w u = true) {n : Nat} (hn : n < 2 ^ 61) :
    s.gfMul u (s.xPowN (8 * BitVec.ofNat 64 n)) = (timesX s.active)^[8 * n] u := by
  have h := fieldOk_active hinv hready
  have hlen : (8 * BitVec.ofNat 64 n).toNat = 8 * n := by
    rw [toNat_eight_mul, BitVec.toNat_ofNat]
    omega
  rw [State.gfMul, State.xPowN, hinv.config.field hready.2, xPowN_buildFieldContext h, hlen]
  exact (fieldMul_timesX_iterate _ h u _).trans (congrArg _ (and_mask_of_isBits _ _ hu))

end

/-- Settles O43: the concatenation's CRC is the second message's from the first one's CRC, so the CRC of the second
message from 0 and the first one's CRC times the factor of the second one's length. -/
theorem combineGivesTheConcatenationsCrc : Obligations.CombineGivesTheConcatenationsCrc := by
  intro s start first second hinv hready hstart hlen harg0 harg1 harg2
  have h := fieldOk_active hinv hready
  have hx := active_axor_isBits hinv hready
  have hfirst := combinerCrc_isBits h hx hstart (bytesToBits s.active.refIn first)
  have hsecond := combinerCrc_isBits h hx (isBits_zero _) (bytesToBits s.active.refIn second)
  obtain ⟨-, -, hcombine, -⟩ := combinerCommandsWriteResult s hready
  rw [hcombine, harg0, harg1, harg2, and_mask_of_isBits _ _ hfirst, and_mask_of_isBits _ _ hsecond,
    gfMul_xPowN_bytes hinv hready hfirst hlen, bytesToBits_append, combinerCrc_append h hx hstart,
    combinerCrc_eq_zero_start h hx hfirst (bytesToBits s.active.refIn second), length_bytesToBits]

/-- Settles O44: CHSEED adds the change of the start times the factor of the length, and adding it again takes it
away. -/
theorem chseedChangesTheStart : Obligations.ChseedChangesTheStart := by
  refine ⟨fun s start start' message hinv hready hstart hstart' hlen harg0 harg1 harg2 harg3 => ?_,
    fun s t u hinv hready ht hu => ?_⟩
  · have h := fieldOk_active hinv hready
    have hx := active_axor_isBits hinv hready
    have hcrc := combinerCrc_isBits h hx hstart (bytesToBits s.active.refIn message)
    have hchange := isBits_xor _ _ _ hstart' hstart
    obtain ⟨-, -, -, hchseed, -⟩ := combinerCommandsWriteResult s hready
    rw [hchseed, harg0, harg1, harg2, harg3, and_mask_of_isBits _ _ hcrc, and_mask_of_isBits _ _ hchange,
      gfMul_xPowN_bytes hinv hready hchange hlen, ← length_bytesToBits s.active.refIn,
      ← combinerCrc_xor_start h hx hstart hchange, xor_xor_self_right]
  · obtain rfl := eq_effectOf_combiner ht hready rfl
    obtain rfl := eq_effectOf_combiner hu hready rfl
    have hresult := effectOf_result_isBits hinv hready (i := .chseed) (.inl rfl)
    change (effectOf s .chseed).result &&& mask s.active.w ^^^ s.gfMul (s.operand (s.arg2 ^^^ s.arg3)) (s.x8N s.arg1) =
      s.operand s.arg0
    rw [and_mask_of_isBits _ _ hresult, effectOf, State.setResult_result, BitVec.xor_comm s.arg2, BitVec.xor_assoc,
      BitVec.xor_self, BitVec.xor_zero]

/-- Settles O45: feeding zero bytes is multiplying the remainder by the factor of their number. -/
theorem zeroesGivesTheZeroRunsCrc : Obligations.ZeroesGivesTheZeroRunsCrc := by
  intro s start n hinv hready hstart hn harg0 harg1
  have h := fieldOk_active hinv hready
  have hx := active_axor_isBits hinv hready
  have hremainder := isBits_xor _ _ _ hstart (canonValue_isBits h.w2 hx)
  have hcanon : s.field.canon = canonValue s.active := by rw [hinv.config.field hready.2]; rfl
  obtain ⟨-, -, -, -, hzeroes, -⟩ := combinerCommandsWriteResult s hready
  rw [hzeroes, harg0, harg1, hcanon, and_mask_of_isBits _ _ hstart, gfMul_xPowN_bytes hinv hready hremainder hn,
    combinerCrc_eq _ h hx _ hstart, bytesToBits_zeros, foldl_feed_zeros]

end Sys2Proof.Machine

/-! ### RESIDUE -/

namespace Sys2Proof.Machine

/-- `RESK` is `CANON` times `1 + x^w` (44_gf2_combiner.md rule R227). -/
theorem buildFieldContext_resk {a : ActiveConfig} (h : FieldOk a) (hx : isBits a.w a.axor = true) :
    (buildFieldContext a).resk = canonValue a ^^^ (timesX a)^[a.w] (canonValue a) := by
  have hw : (BitVec.ofNat 64 a.w).toNat = a.w := by
    have := h.w2
    rw [BitVec.toNat_ofNat]
    omega
  have hcanon := and_mask_of_isBits _ _ (canonValue_isBits h.w2 hx)
  calc (buildFieldContext a).resk
    _ = fieldMul a (canonValue a) (fieldOne a ^^^ xPowN a (buildFieldContext a) (BitVec.ofNat 64 a.w)) := rfl
    _ = canonValue a ^^^ (timesX a)^[a.w] (canonValue a) := by
      rw [xPowN_buildFieldContext h, hw, fieldMul_xor_right, fieldMul_one a h, fieldMul_timesX_iterate a h, hcanon]

/-- The bits of whole bytes of `c`, lowest first. -/
theorem range_map_getLsbD_bytes (c : Word) (n : Nat) :
    (List.range (8 * n)).map (fun i => c.getLsbD i) =
      (List.range n).flatMap fun j => messageBits true 8 (c.extractLsb' (8 * j) 8) := by
  induction n with
  | zero => rfl
  | succ n ih =>
    rw [Nat.mul_succ, List.range_add, List.map_append, ih, List.range_succ (n := n), List.flatMap_append,
      List.flatMap_singleton, List.map_map]
    congr 1
    refine List.map_congr_left fun i hi => ?_
    have hi : i < 8 := List.mem_range.mp hi
    simp [-BitVec.getLsbD_eq_getElem, BitVec.getLsbD_extractLsb', hi]

/-- The bits of a byte in natural order are the reflected order's, reversed (00_scope.md rule R13). -/
theorem messageBits_reverse (k : Nat) (v : Byte) : (messageBits true k v).reverse = messageBits false k v :=
  List.map_reverse.symm

/-- A CRC of whole bytes is appended byte by byte (44_gf2_combiner.md rule R238). -/
theorem crcBits_eq_bytesToBits (a : ActiveConfig) (c : Word) (hw : a.w % 8 = 0) :
    crcBits a c = bytesToBits a.refIn
      ((if a.refIn = true then List.range (a.w / 8) else (List.range (a.w / 8)).reverse).map fun i =>
        c.extractLsb' (8 * i) 8) := by
  have hbits := range_map_getLsbD_bytes c (a.w / 8)
  rw [Nat.mul_div_cancel' (Nat.dvd_of_mod_eq_zero hw)] at hbits
  unfold crcBits bytesToBits
  rw [List.flatMap_map]
  cases a.refIn
  · have hrev := congrArg List.reverse hbits
    rw [List.reverse_flatMap, ← List.map_reverse] at hrev
    simpa [Function.comp_def, messageBits_reverse] using hrev
  · exact hbits

/-- Settles O46: the appended bits leave `x^w` times `CANON` and `CANON`, which is `RESK`. -/
theorem appendedCrcGivesTheResidue : Obligations.AppendedCrcGivesTheResidue := by
  refine ⟨fun s start bits hinv hready hstart => ?_, crcBits_eq_bytesToBits, by decide⟩
  have h := fieldOk_active hinv hready
  have hx := active_axor_isBits hinv hready
  obtain ⟨-, -, -, -, -, hresidue⟩ := combinerCommandsWriteResult s hready
  rw [hresidue, combinerCrc_append_crcBits h hx hstart, hinv.config.field hready.2, buildFieldContext_resk h hx,
    BitVec.xor_comm]

end Sys2Proof.Machine

/-!
PROOFS of the statements on 60_exceptions.md: what each check applies to; the check order as the first check that
applies; what issuing a value does; the causes and the commands of every fault code.
-/

/-! ### When a check applies -/

namespace Sys2Proof.Machine

/-- A field of a word is zero exactly when each of its bits is. -/
theorem extractLsb'_eq_zero_iff {start len : Nat} {v : Word} :
    v.extractLsb' start len = 0 ↔ ∀ i, i < len → v.getLsbD (start + i) = false := by
  constructor
  · intro h i hi
    have hbit : (v.extractLsb' start len).getLsbD i = false := h ▸ BitVec.getLsbD_zero
    simpa [hi] using hbit
  · intro h
    refine BitVec.eq_of_getLsbD_eq fun i hi => ?_
    simp [h i hi]

/-- The reserved bits of MODEL_CFG are the fields `[7:2]` and `[63:16]` (10_state.md rule R30). -/
theorem and_reservedMask_eq_zero_iff_fields (cfg : Word) : cfg &&& ~~~(0xFF03 : Word) = 0 ↔
    cfg.extractLsb' 2 6 = 0 ∧ cfg.extractLsb' 16 48 = 0 := by
  rw [and_reservedMask_eq_zero_iff, extractLsb'_eq_zero_iff, extractLsb'_eq_zero_iff]
  constructor
  · intro h
    exact ⟨fun i hi => h _ (by omega) (by omega), fun i hi => h _ (by omega) (by omega)⟩
  · rintro ⟨hlow, hhigh⟩ i hi (⟨h2, h7⟩ | h16)
    · simpa [h2] using hlow (i - 2) (by omega)
    · simpa [h16] using hhigh (i - 16) (by omega)

/-- BAD_WIDTH applies to a width of 0 and to one above `NW` (60_exceptions.md rule R253). -/
theorem widthLegal_eq_false_iff {nw : Nat} {width : Word} :
    widthLegal nw width = false ↔ width.toNat = 0 ∨ nw < width.toNat := by
  rw [widthLegal, Bool.and_eq_false_iff, decide_eq_false_iff_not, decide_eq_false_iff_not, not_le, not_le,
    Nat.lt_one_iff]

/-- BAD_CFG applies to a reserved bit that is set and to a lane count that is not 1, 8 or 16
(60_exceptions.md rule R254). -/
theorem cfgLegal_eq_false_iff {cfg : Word} : cfgLegal cfg = false ↔
    cfg.extractLsb' 2 6 ≠ 0 ∨ cfg.extractLsb' 16 48 ≠ 0 ∨
      (cfg.extractLsb' 8 8 ≠ 1 ∧ cfg.extractLsb' 8 8 ≠ 8 ∧ cfg.extractLsb' 8 8 ≠ 16) := by
  have hfields := and_reservedMask_eq_zero_iff_fields cfg
  rw [cfgLegal, Bool.and_eq_false_iff, beq_eq_false_iff_ne, ne_eq, hfields, not_and_or, or_assoc]
  simp [cfgLanes, and_assoc]

/-- BOUNDS applies to UPDBUF when the buffer leaves DMEM or the sub-range the buffer (60_exceptions.md rule R256). -/
theorem rangeLegal_eq_false_iff {s : State} {base blen o len : Nat} : rangeLegal s base blen o len = false ↔
    s.params.dmemBytes < base + blen ∨ blen < o ∨ blen - o < len := by
  simp only [rangeLegal, Bool.and_eq_false_iff, decide_eq_false_iff_not, not_le, or_assoc]

/-- Each check of a command, and the commands that make it (60_exceptions.md rules R252 to R257). -/
theorem mem_checksOf_cases {s : State} {i : Instr} {check : Bool × FaultCode} (h : check ∈ checksOf s i) :
    (check = checkConfigured s ∧ i ≠ .configure ∧ i ≠ .clearerr) ∨
    (i = .configure ∧ (check = checkWidth s ∨ check = checkCfg s)) ∨
    (∃ c, contextOf i = some c ∧ check = checkCtx s c) ∨
    (∃ c v k, i = .updbits c v k ∧ check = checkLanes s) ∨
    (∃ c, i = .updbuf c ∧ check = checkSubRange s) ∨
    (∃ c, i = .updall c ∧ check = checkBuffer s) := by
  cases i with
  | clearerr => cases h
  | configure => exact .inr (.inl ⟨rfl, by simpa [checksOf] using h⟩)
  | gfmul | gfxpow | combine | chseed | zeroes | residue =>
    exact .inl ⟨by simpa [checksOf] using h, by simp, by simp⟩
  | reset | updb | updbits | updbuf | updall | value =>
    simp only [checksOf, List.mem_cons, List.not_mem_nil, or_false] at h
    simp [contextOf, h]

/-- Every command but CONFIGURE and CLEARERR first checks that the block is configured (60_exceptions.md rule R260). -/
theorem checksOf_eq_configured_cons (s : State) {i : Instr} (hc : i ≠ .configure) (he : i ≠ .clearerr) :
    ∃ rest, checksOf s i = checkConfigured s :: rest := by
  cases i with
  | configure => exact absurd rfl hc
  | clearerr => exact absurd rfl he
  | reset | updb | updbits | updbuf | updall | value | gfmul | gfxpow | combine | chseed | zeroes | residue =>
    exact ⟨_, rfl⟩

/-- A command on a context next checks that the context exists (60_exceptions.md rule R260). -/
theorem checksOf_eq_ctx_cons (s : State) {i : Instr} {c : Nat} (hi : contextOf i = some c) :
    ∃ rest, checksOf s i = checkConfigured s :: checkCtx s c :: rest := by
  cases i with
  | reset | updb | updbits | updbuf | updall | value =>
    obtain rfl := Option.some.inj hi
    exact ⟨_, rfl⟩
  | configure | clearerr | gfmul | gfxpow | combine | chseed | zeroes | residue => cases hi

end Sys2Proof.Machine

/-! ### The check order -/

namespace Sys2Proof.Machine

section
variable {s : State} {v : Word} {i : Instr} {k : FaultCode}

/-- The rule's check order on a legal value is its command's own list of checks (60_exceptions.md rule R260). -/
theorem firstCheck_command (hd : decode v = .command i) : firstCheck s v = firstFault (checksOf s i) := by
  unfold firstCheck
  rw [hd]
  cases i with
  | clearerr => rfl
  | configure =>
    simp [checksOf, checkWidth, checkCfg, widthLegal, cfgLegal, firstFault, imp_iff_not_or, and_assoc]
  | gfmul | gfxpow | combine | chseed | zeroes | residue => simp [checksOf, checkConfigured, firstFault, contextOf]
  | reset | updb | value => simp [checksOf, checkConfigured, checkCtx, firstFault, contextOf]
  | updbits => simp [checksOf, checkConfigured, checkCtx, checkLanes, firstFault, contextOf]
  | updbuf =>
    simp [checksOf, checkConfigured, checkCtx, checkSubRange, rangeLegal_eq_false_iff, firstFault, contextOf]
  | updall => simp [checksOf, checkConfigured, checkCtx, checkBuffer, firstFault, contextOf]

/-- The decoding is the first check while ERR = 0 (60_exceptions.md rule R251). -/
theorem firstCheck_illegal {why : Illegal} (hd : decode v = .illegal why) : firstCheck s v = some .illegalCmd := by
  simp only [firstCheck, hd]

/-- The first check that applies is the fault that issuing the value takes (60_exceptions.md rules R258, R260). -/
theorem issue_faults (hs : s.err = false) (hk : firstCheck s v = some k) : issue v s = .next (s.takeFault k v) := by
  cases hd : decode v with
  | illegal why =>
    obtain rfl := Option.some.inj ((firstCheck_illegal hd).symm.trans hk)
    rw [issue_illegal v why hd, hs]
    rfl
  | command i =>
    rw [firstCheck_command hd] at hk
    have hi : i ≠ .clearerr := by
      rintro rfl
      cases hk
    rw [issue_command v i hd, exec_faults hi hs hk, encode_of_decode hd]

/-- A value to which no check applies has its command's effect, which records no fault
(60_exceptions.md rule R260). -/
theorem issue_performs (hs : s.err = false) (hk : firstCheck s v = none) :
    ∃ i, decode v = .command i ∧ issue v s = .next (effectOf s i) := by
  cases hd : decode v with
  | illegal why => simp [firstCheck_illegal hd] at hk
  | command i =>
    refine ⟨i, rfl, (issue_command v i hd s).trans ?_⟩
    by_cases hi : i = .clearerr
    · subst hi
      exact clearerrLeavesTheErrorState.2.1 s hs
    · exact exec_performs hi hs (firstCheck_command hd ▸ hk)

/-- A value that records a fault takes that of its first check that applies. -/
theorem eq_takeFault_of_issue {t : State} (h : issue v s = .next t) (hs : s.err = false) (ht : t.err = true) :
    ∃ k, firstCheck s v = some k ∧ t = s.takeFault k v := by
  cases hk : firstCheck s v with
  | some k => exact ⟨k, rfl, Host.Outcome.next.inj (h.symm.trans (issue_faults hs hk))⟩
  | none =>
    obtain ⟨i, -, hi⟩ := issue_performs hs hk
    obtain rfl := Host.Outcome.next.inj (h.symm.trans hi)
    simp [effectOf_faultRecord, hs] at ht

/-- No check has the code of no fault. -/
theorem firstCheck_ne_noFault (hk : firstCheck s v = some k) : k ≠ .noFault := by
  cases hd : decode v with
  | illegal why =>
    obtain rfl := Option.some.inj ((firstCheck_illegal hd).symm.trans hk)
    simp
  | command i => exact firstFault_checksOf_ne s i k (firstCheck_command hd ▸ hk)

end

end Sys2Proof.Machine

/-! ### Fault entry, the sticky error and the check order -/

namespace Sys2Proof.Machine

/-- Settles O8: the fault entry is that of the first check that applies, and every check has a code other than 0. -/
theorem faultEntryChangesNothingElse : Obligations.FaultEntryChangesNothingElse := by
  intro v s t hs h ht
  obtain ⟨k, hk, rfl⟩ := eq_takeFault_of_issue h hs ht
  exact ⟨k, firstCheck_ne_noFault hk, rfl⟩

/-- While ERR = 1 every value but CLEARERR's is dropped (60_exceptions.md rule R261). -/
theorem issue_dropped {v : Word} {s : State} (hs : s.err = true) (hv : v ≠ 2) : issue v s = .next s := by
  cases hd : decode v with
  | illegal why => rw [issue_illegal v why hd, if_pos hs]
  | command i =>
    have hi : i ≠ .clearerr := fun hi => hv (decode_eq_clearerr_iff.mp (hi ▸ hd))
    rw [issue_command v i hd, exec_dropped hi hs]

/-- CLEARERR's value clears the fault record (60_exceptions.md rule R259). -/
theorem issue_clears {s : State} (hs : s.err = true) : issue 2 s = .next s.clearFault := by
  rw [issue_command 2 .clearerr (decode_eq_clearerr_iff.mpr rfl), exec_clearerr, if_pos hs]

/-- A write to a register other than CMD neither looks at ERR nor writes it. -/
theorem writeReg_withErr {r : Reg} (hr : r ≠ .cmd) (v : Word) (s : State) (b : Bool) :
    writeReg r v { s with err := b } = mapNext (fun t => { t with err := b }) (writeReg r v s) := by
  cases r
  case cmd => exact absurd rfl hr
  all_goals rfl

/-- Only STATUS shows ERR. -/
theorem readReg_withErr {r : Reg} (hr : r ≠ .status) (s : State) (b : Bool) :
    readReg r { s with err := b } = readReg r s := by
  cases r
  case status => exact absurd rfl hr
  all_goals rfl

/-- Settles O9: CLEARERR's value is the only one that is not dropped, and no other access looks at ERR. -/
theorem stickyErrorDropsEveryOtherCommand : Obligations.StickyErrorDropsEveryOtherCommand :=
  ⟨fun _ _ hs hv => issue_dropped hs hv, fun _ hs => issue_clears hs, fun _ v s b hr => writeReg_withErr hr v s b,
    fun _ s b hr => readReg_withErr hr s b, fun _ _ _ _ _ => ⟨rfl, rfl⟩⟩

/-- Settles O11: the first check that applies is the fault that is taken, and an effect records none. -/
theorem firstApplicableCheckDecides : Obligations.FirstApplicableCheckDecides := by
  refine ⟨fun v s hs => ?_, fun v s k hs hk => issue_faults hs hk, fun v s hs hk => ?_⟩
  · split_ifs with hv
    · exact hv ▸ issue_clears hs
    · exact issue_dropped hs hv
  · obtain ⟨i, -, hi⟩ := issue_performs hs hk
    obtain ⟨herr, hcode, hcmd⟩ := effectOf_faultRecord s i
    exact ⟨_, hi, herr.trans hs, hcode, hcmd⟩

end Sys2Proof.Machine

/-! ### The faults of each check -/

namespace Sys2Proof.Machine

/-- Settles O12: every such command checks first that the block is configured. -/
theorem unconfiguredBlockFaultsNotConfigured : Obligations.UnconfiguredBlockFaultsNotConfigured := by
  intro v i s hd hc he hs hcfg
  obtain ⟨rest, hrest⟩ := checksOf_eq_configured_cons s hc he
  refine issue_faults hs ?_
  rw [firstCheck_command hd, hrest, checkConfigured, hcfg]
  rfl

/-- Settles O13: CONFIGURE checks the width, and MODEL_CFG behind it. -/
theorem badModelFaultsConfigure : Obligations.BadModelFaultsConfigure := by
  refine ⟨fun s hs hw => exec_faults (by simp) hs ?_, fun s hs hpos hle hcfg => exec_faults (by simp) hs ?_⟩
  · simp [checksOf, checkWidth, firstFault, widthLegal_eq_false_iff.mpr hw]
  · have hwidth : widthLegal s.nw s.staging.width = true := by simp [widthLegal, hpos, hle]
    simp [checksOf, checkWidth, checkCfg, firstFault, hwidth, cfgLegal_eq_false_iff.mpr hcfg]

/-- Settles O14: in a ready block the context check is the first that can apply, and UPDBITS checks the lanes behind
it. -/
theorem badContextAndLanesFault : Obligations.BadContextAndLanesFault := by
  refine ⟨fun v i c s hd hready hi hc => issue_faults hready.1 ?_,
    fun v c b k s hd hready hc hl => issue_faults hready.1 ?_⟩
  · obtain ⟨rest, hrest⟩ := checksOf_eq_ctx_cons s hi
    simp [firstCheck_command hd, hrest, checkConfigured, checkCtx, firstFault, hready.2, hc]
  · simp [firstCheck_command hd, checksOf, checkConfigured, checkCtx, checkLanes, firstFault, hready.2, hc, hl]

/-- Settles O15: in a ready block, on a context that exists, only the range check is left. -/
theorem outOfRangeUpdateFaultsBounds : Obligations.OutOfRangeUpdateFaultsBounds := by
  refine ⟨fun c s hready hc hrange => exec_faults (by simp) hready.1 ?_,
    fun c s hready hc hb => exec_updall_faults hready hc hb⟩
  simp [checksOf, checkConfigured, checkCtx, checkSubRange, firstFault, hready.2, hc,
    rangeLegal_eq_false_iff.mpr hrange]

/-- No code is above 7 (60_exceptions.md rule R250). -/
theorem FaultCode.code_le_seven (k : FaultCode) : k.code.toNat ≤ 7 := by
  cases k <;> decide

/-- Settles O60: the code recorded is that of a check which applies, made by the command the value spells. -/
theorem faultCodesNameTheirCauses : Obligations.FaultCodesNameTheirCauses := by
  refine ⟨⟨rfl, rfl, rfl, rfl, rfl, rfl, rfl, rfl⟩, fun s => ⟨?_, s.errCode.code_le_seven⟩,
    fun v s t hs h ht => ?_⟩
  · obtain ⟨-, -, hcode, -, -⟩ := flagWord_fields s.errCode.code s.err s.cfgValid
    exact hcode
  obtain ⟨k, hk, rfl⟩ := eq_takeFault_of_issue h hs ht
  cases hd : decode v with
  | illegal why =>
    obtain rfl := Option.some.inj ((firstCheck_illegal hd).symm.trans hk)
    exact nofun
  | command i =>
    have hcheck := firstFault_mem _ _ (firstCheck_command hd ▸ hk)
    rcases mem_checksOf_cases hcheck with ⟨hc, hne, hne'⟩ | ⟨rfl, hc | hc⟩ | ⟨c, hi, hc⟩ |
      ⟨c, b, n, rfl, hc⟩ | ⟨c, rfl, hc⟩ | ⟨c, rfl, hc⟩ <;> obtain ⟨happlies, rfl⟩ := Prod.mk.inj hc
    · exact ⟨by simpa using happlies, i, rfl, hne, hne'⟩
    · exact ⟨rfl, widthLegal_eq_false_iff.mp (by simpa using happlies)⟩
    · exact ⟨rfl, cfgLegal_eq_false_iff.mp (by simpa using happlies)⟩
    · exact ⟨i, c, rfl, hi, by simpa using happlies⟩
    · exact ⟨c, b, n, rfl, by simpa using happlies⟩
    · exact .inl ⟨c, rfl, rangeLegal_eq_false_iff.mp (by simpa using happlies)⟩
    · exact .inr ⟨c, rfl, by simpa using happlies⟩

end Sys2Proof.Machine

/-!
PROOFS of the statements on 70_reset_and_hazards.md: what every step keeps, and what the reset input leaves.
-/

/-! ### The parameters stay -/

namespace Sys2Proof.Machine

/-- Issuing any value keeps the parameters. -/
theorem issue_params {v : Word} {s t : State} (h : issue v s = .next t) : t.params = s.params := by
  rcases issue_cases h with ⟨i, -, hi⟩ | ⟨-, rfl⟩ | ⟨-, rfl⟩
  · obtain ⟨-, -, -, -, -, -, -, hparams⟩ := commandsLeaveHostRegisters i s t hi
    exact hparams
  · rfl
  · rfl

/-- Every event from outside keeps the parameters, the reset input too (log entry 8). -/
theorem perform_params {e : HostEvent} {s t : State} (h : perform e s = .next t) : t.params = s.params := by
  rcases perform_cases h with ⟨-, rfl⟩ | ⟨v, -, hv⟩ | ⟨a, bytes, -, rfl⟩ | hs
  · rfl
  · exact (issue_params hv).trans (s.respond_params _)
  · rfl
  · rw [hs]

/-- Every step keeps the parameters (log entry 1). -/
theorem step_params {s t : State} (h : step s = .next t) : t.params = s.params := by
  rcases step_cases h with ⟨-, rfl⟩ | ⟨e, rest, -, he⟩
  · rfl
  · exact (perform_params he :)

/-- Settles O7: a step idles or performs one event, and every event is answered and keeps the parameters. -/
theorem everyStepAnswersANextState : Obligations.EveryStepAnswersANextState := by
  refine ⟨fun s => ?_, performNext_nil⟩
  obtain ⟨t, ht⟩ := step_next s
  exact ⟨t, ht, step_params ht⟩

end Sys2Proof.Machine

/-! ### What the reset input leaves -/

namespace Sys2Proof.Machine

/-- After reset every context holds 0 (70_reset_and_hazards.md rule R281). -/
@[simp] theorem State.afterReset_readAcc (s : State) (c : Nat) : s.afterReset.readAcc c = 0 := by
  rw [State.readAcc, State.afterReset_acc, List.getD_eq_getElem?_getD, List.getElem?_replicate]
  split <;> rfl

/-- After reset a DMEM byte is the free value of its address and of this reset (20_memory.md rule R89, log entry 3). -/
@[simp] theorem State.afterReset_memRead (s : State) (a : Nat) :
    s.afterReset.memRead a = Config.freeByte (s.resets + 1) a := rfl

/-- After reset STATUS reads as at power-on: no flag is set and no fault code recorded. -/
theorem statusWord_afterReset (s : State) : statusWord s.afterReset = 0 :=
  calc statusWord s.afterReset = statusWord .reset := rfl
    _ = 0 := by decide

/-- ACT_CFG reads 0 while no configuration is latched. -/
theorem actCfgWord_unset : actCfgWord .unset = 0 := by decide

/-- After reset every register but the two constants reads 0: the contexts hold 0, the XPOW and TABLE windows are closed
while the block is not configured, and every other register shows a field that is 0 (70_reset_and_hazards.md rule
R281). -/
theorem readReg_afterReset (s : State) {r : Reg} (hid : r ≠ .id) (hparam : r ≠ .param) :
    readReg r s.afterReset = 0 := by
  cases r
  case id => exact absurd rfl hid
  case param => exact absurd rfl hparam
  case status => exact statusWord_afterReset s
  case actCfg => exact actCfgWord_unset
  case acc | xpow | table => simp [readReg]
  all_goals rfl

/-- A step whose oldest event is the reset input leaves the state after reset, with the later events still to come. -/
theorem step_resetInput {s : State} {rest : List HostEvent} (hp : s.pending = .resetInput :: rest) :
    step s = .next ({ s with pending := rest } : State).afterReset :=
  performNext_cons s .resetInput rest hp

/-- Settles O57: the step leaves the state after reset, whose fields are the reset values. -/
theorem resetInputLeavesTheResetState : Obligations.ResetInputLeavesTheResetState := by
  intro s rest hp
  exact ⟨_, step_resetInput hp, rfl, rfl, rfl, rfl, rfl, rfl, rfl, rfl, rfl, rfl, rfl, rfl, rfl, rfl,
    fun _ => readReg_afterReset _, rfl, rfl, State.afterReset_memRead _, rfl, rfl⟩

/-- Settles O58: the state after reset has the invariant whatever the legal parameters, those of the model among
them. -/
theorem invariantHoldsAfterReset : Obligations.InvariantHoldsAfterReset :=
  ⟨inv_resetWith (by decide) 0, fun _ n hp => inv_resetWith hp n⟩

end Sys2Proof.Machine
